-- ==== Sys2Proof/Word.lean ====
section
/-! DEFINITION. The word of the engine (00_scope.md R8, R11, R12). -/

namespace Sys2Proof

/-- A word: an unsigned integer in [0, 2^32) (00_scope.md R11). -/
abbrev Word := BitVec 32

/-- `mod32(v) = v mod 2^32` (00_scope.md R12). -/
def mod32 (n : Nat) : Word := BitVec.ofNat 32 n

end Sys2Proof
end

