-- ==== Sys2Proof/Syntax.lean ====
section
/-! DEFINITION. The commands of the engine as syntax: one constructor per row of the opcode map
(30_encoding.md R96), with the operand its class takes (R102). -/

namespace Sys2Proof

/-- The 26 commands (30_encoding.md R96). `sh` is a shift amount, `n` a bit count, `last` the last-block flag. -/
inductive Instr where
  | nop
  | init
  | clrerr
  | compress (last : Bool)
  | expand
  | rstart
  | round
  | feedfwd (last : Bool)
  | check
  | msgPush (n : Nat)
  | msgFinal
  | add
  | add3
  | xor
  | and
  | not
  | ch
  | maj
  | rotr (sh : Nat)
  | shr (sh : Nat)
  | bsig0
  | bsig1
  | ssig0
  | ssig1
  | pack
  | unpack
  deriving DecidableEq, Repr

/-- The format classes (30_encoding.md R92). -/
inductive Format where
  /-- Class N: no operand. -/
  | plain
  /-- Class S: a shift amount in IMM5. -/
  | shift
  /-- Class C: a bit count minus one in IMM5. -/
  | count
  /-- Class F: the last-block flag in L. -/
  | flag
  deriving DecidableEq, Repr

/-- One row of the opcode map (30_encoding.md R96). -/
structure Row where
  mnemonic : String
  opc : BitVec 8
  format : Format
  deriving DecidableEq, Repr

/-- Why a command word is illegal (30_encoding.md R98). Every reason is reported as the one error ILLEGAL_CMD. -/
inductive Illegal where
  /-- (a) the OPC value is unassigned. -/
  | opcode
  /-- (b) RES0 or RES1 is not 0. -/
  | reserved
  /-- (c) IMM5 is not 0 in class N or F. -/
  | immediate
  /-- (d) L is not 0 in class N, S or C. -/
  | lastFlag
  deriving DecidableEq, Repr

end Sys2Proof
end

