-- ==== Sys2Proof/WellFormed.lean ====
section
/-! DEFINITION. Which commands can be written in a command word: the operand ranges of 30_encoding.md R93, R94
and R102. -/

namespace Sys2Proof

/-- The operand is in the range its class encodes: a shift amount in 0..31 (30_encoding.md R93), a bit count in
1..32 (R94). -/
def Instr.wellFormed : Instr → Bool
  | .nop | .init | .clrerr | .compress _ | .expand | .rstart | .round | .feedfwd _ | .check => true
  | .msgPush n => decide (1 ≤ n) && decide (n ≤ 32)
  | .msgFinal | .add | .add3 | .xor | .and | .not | .ch | .maj => true
  | .rotr sh => decide (sh ≤ 31)
  | .shr sh => decide (sh ≤ 31)
  | .bsig0 | .bsig1 | .ssig0 | .ssig1 | .pack | .unpack => true

/-- A well-formed command. -/
abbrev Instr.WellFormed (i : Instr) : Prop := i.wellFormed = true

end Sys2Proof
end

