-- ==== Sys2Proof/Decode.lean ====
section
/-! DEFINITION. The command word: its fields, its decoder and its encoder (30_encoding.md). -/

namespace Sys2Proof

/-! ### Fields of the command word (30_encoding.md R91) -/

/-- OPC, bits 7:0. -/
def fieldOpc (c : Word) : BitVec 8 := c.extractLsb' 0 8

/-- IMM5, bits 12:8. -/
def fieldImm5 (c : Word) : BitVec 5 := c.extractLsb' 8 5

/-- RES0, bits 15:13. -/
def fieldRes0 (c : Word) : BitVec 3 := c.extractLsb' 13 3

/-- L, bit 16. -/
def fieldL (c : Word) : Bool := c.getLsbD 16

/-- RES1, bits 31:17. -/
def fieldRes1 (c : Word) : BitVec 15 := c.extractLsb' 17 15

/-! ### Decoder (30_encoding.md R101) -/

/-- Class N: IMM5 and L must be 0. -/
def decodeN (i : Instr) (imm : BitVec 5) (l : Bool) : Except Illegal Instr :=
  if imm ≠ 0 then .error .immediate else if l then .error .lastFlag else .ok i

/-- Class S: `sh = imm`; L must be 0. -/
def decodeS (mk : Nat → Instr) (imm : BitVec 5) (l : Bool) : Except Illegal Instr :=
  if l then .error .lastFlag else .ok (mk imm.toNat)

/-- Class C: `n = imm + 1`; L must be 0. -/
def decodeC (mk : Nat → Instr) (imm : BitVec 5) (l : Bool) : Except Illegal Instr :=
  if l then .error .lastFlag else .ok (mk (imm.toNat + 1))

/-- Class F: `last = l`; IMM5 must be 0. -/
def decodeF (mk : Bool → Instr) (imm : BitVec 5) (l : Bool) : Except Illegal Instr :=
  if imm ≠ 0 then .error .immediate else .ok (mk l)

/-- The opcode map (30_encoding.md R96) applied to OPC, then the class of the row applied to IMM5 and L. -/
def decodeOpcode (opc : Nat) (imm : BitVec 5) (l : Bool) : Except Illegal Instr :=
  match opc with
  | 0x00 => decodeN .nop imm l
  | 0x01 => decodeN .init imm l
  | 0x02 => decodeN .clrerr imm l
  | 0x10 => decodeF .compress imm l
  | 0x11 => decodeN .expand imm l
  | 0x12 => decodeN .rstart imm l
  | 0x13 => decodeN .round imm l
  | 0x14 => decodeF .feedfwd imm l
  | 0x15 => decodeN .check imm l
  | 0x20 => decodeC .msgPush imm l
  | 0x21 => decodeN .msgFinal imm l
  | 0x40 => decodeN .add imm l
  | 0x41 => decodeN .add3 imm l
  | 0x42 => decodeN .xor imm l
  | 0x43 => decodeN .and imm l
  | 0x44 => decodeN .not imm l
  | 0x45 => decodeN .ch imm l
  | 0x46 => decodeN .maj imm l
  | 0x48 => decodeS .rotr imm l
  | 0x49 => decodeS .shr imm l
  | 0x4C => decodeN .bsig0 imm l
  | 0x4D => decodeN .bsig1 imm l
  | 0x4E => decodeN .ssig0 imm l
  | 0x4F => decodeN .ssig1 imm l
  | 0x50 => decodeN .pack imm l
  | 0x51 => decodeN .unpack imm l
  | _ => .error .opcode

/-- `decodeCmd` of 30_encoding.md R101: total on every 32-bit word. -/
def decodeCmd (c : Word) : Except Illegal Instr :=
  if fieldRes0 c ≠ 0 ∨ fieldRes1 c ≠ 0 then .error .reserved
  else decodeOpcode (fieldOpc c).toNat (fieldImm5 c) (fieldL c)

/-- The command the decoder reads from an instruction whose bits are `w`, as spec/opcode_table.json numbers them:
every command is one 32-bit word (30_encoding.md R90), so a longer pattern is none. -/
def decodeTableWord (nbits w : Nat) : Option Instr :=
  if nbits ≤ 32 ∧ w < 2 ^ nbits then
    match decodeCmd (BitVec.ofNat 32 w) with
    | .ok i => some i
    | .error _ => none
  else none

/-! ### Rows of the opcode map (30_encoding.md R96, R97) -/

/-- OPC of each command (30_encoding.md R96). -/
def Instr.opc : Instr → BitVec 8
  | .nop => 0x00
  | .init => 0x01
  | .clrerr => 0x02
  | .compress _ => 0x10
  | .expand => 0x11
  | .rstart => 0x12
  | .round => 0x13
  | .feedfwd _ => 0x14
  | .check => 0x15
  | .msgPush _ => 0x20
  | .msgFinal => 0x21
  | .add => 0x40
  | .add3 => 0x41
  | .xor => 0x42
  | .and => 0x43
  | .not => 0x44
  | .ch => 0x45
  | .maj => 0x46
  | .rotr _ => 0x48
  | .shr _ => 0x49
  | .bsig0 => 0x4C
  | .bsig1 => 0x4D
  | .ssig0 => 0x4E
  | .ssig1 => 0x4F
  | .pack => 0x50
  | .unpack => 0x51

/-- The class of each command (30_encoding.md R96). -/
def Instr.format : Instr → Format
  | .compress _ | .feedfwd _ => .flag
  | .msgPush _ => .count
  | .rotr _ | .shr _ => .shift
  | .nop | .init | .clrerr | .expand | .rstart | .round | .check | .msgFinal => .plain
  | .add | .add3 | .xor | .and | .not | .ch | .maj | .bsig0 | .bsig1 | .ssig0 | .ssig1 => .plain
  | .pack | .unpack => .plain

/-- The mnemonic of each command (30_encoding.md R96, R102). -/
def Instr.mnemonic : Instr → String
  | .nop => "NOP"
  | .init => "INIT"
  | .clrerr => "CLRERR"
  | .compress _ => "COMPRESS"
  | .expand => "EXPAND"
  | .rstart => "RSTART"
  | .round => "ROUND"
  | .feedfwd _ => "FEEDFWD"
  | .check => "CHECK"
  | .msgPush _ => "MSG_PUSH"
  | .msgFinal => "MSG_FINAL"
  | .add => "ADD"
  | .add3 => "ADD3"
  | .xor => "XOR"
  | .and => "AND"
  | .not => "NOT"
  | .ch => "CH"
  | .maj => "MAJ"
  | .rotr _ => "ROTR"
  | .shr _ => "SHR"
  | .bsig0 => "BSIG0"
  | .bsig1 => "BSIG1"
  | .ssig0 => "SSIG0"
  | .ssig1 => "SSIG1"
  | .pack => "PACK"
  | .unpack => "UNPACK"

/-- The row of the opcode map a command belongs to. -/
def Instr.row (i : Instr) : Row := ⟨i.mnemonic, i.opc, i.format⟩

/-- The opcode map, one row per command in the table's order (30_encoding.md R96). -/
def opcodeRows : List Row :=
  [Instr.nop.row, Instr.init.row, Instr.clrerr.row, (Instr.compress false).row, Instr.expand.row,
    Instr.rstart.row, Instr.round.row, (Instr.feedfwd false).row, Instr.check.row, (Instr.msgPush 1).row,
    Instr.msgFinal.row] ++
  [Instr.add.row, Instr.add3.row, Instr.xor.row, Instr.and.row, Instr.not.row, Instr.ch.row, Instr.maj.row,
    (Instr.rotr 0).row, (Instr.shr 0).row, Instr.bsig0.row, Instr.bsig1.row, Instr.ssig0.row, Instr.ssig1.row,
    Instr.pack.row, Instr.unpack.row]

/-- The mask of each class (30_encoding.md R97). -/
def Format.mask : Format → Word
  | .plain => 0xFFFFFFFF
  | .shift => 0xFFFFE0FF
  | .count => 0xFFFFE0FF
  | .flag => 0xFFFEFFFF

/-- `match = OPC(m)` (30_encoding.md R97). -/
def Row.matchWord (r : Row) : Word := r.opc.zeroExtend 32

/-- A command word selects a row iff `(c & mask) = match` (30_encoding.md R97). -/
def Row.selects (r : Row) (c : Word) : Bool := (c &&& r.format.mask) == r.matchWord

/-! ### Encoder (30_encoding.md R102) -/

/-- The IMM5 field a command is written with: the shift amount (R93) or the bit count minus one (R94). -/
def Instr.imm5 : Instr → BitVec 5
  | .msgPush n => BitVec.ofNat 5 (n - 1)
  | .rotr sh => BitVec.ofNat 5 sh
  | .shr sh => BitVec.ofNat 5 sh
  | .nop | .init | .clrerr | .compress _ | .expand | .rstart | .round | .feedfwd _ | .check | .msgFinal => 0
  | .add | .add3 | .xor | .and | .not | .ch | .maj | .bsig0 | .bsig1 | .ssig0 | .ssig1 => 0
  | .pack | .unpack => 0

/-- The L field a command is written with (R95). -/
def Instr.lastBit : Instr → Bool
  | .compress last => last
  | .feedfwd last => last
  | .nop | .init | .clrerr | .expand | .rstart | .round | .check | .msgPush _ | .msgFinal => false
  | .add | .add3 | .xor | .and | .not | .ch | .maj | .rotr _ | .shr _ => false
  | .bsig0 | .bsig1 | .ssig0 | .ssig1 | .pack | .unpack => false

/-- `enc(m, operand) = OPC(m) | (IMM5 << 8) | (L << 16)` (30_encoding.md R102). -/
def encode (i : Instr) : Word :=
  i.opc.zeroExtend 32 ||| (i.imm5.zeroExtend 32 <<< 8) ||| ((BitVec.ofBool i.lastBit).zeroExtend 32 <<< 16)

/-- The assembler: it "rejects an operand out of range rather than truncating it" (30_encoding.md R102). -/
def assemble (i : Instr) : Option Word := if i.wellFormed then some (encode i) else none

/-- The assembler's text of a command (30_encoding.md R102). -/
def Instr.asm (i : Instr) : String :=
  match i with
  | .compress last => if last then "COMPRESS.L" else "COMPRESS"
  | .feedfwd last => if last then "FEEDFWD.L" else "FEEDFWD"
  | .msgPush n => "MSG_PUSH " ++ toString n
  | .rotr sh => "ROTR " ++ toString sh
  | .shr sh => "SHR " ++ toString sh
  | .nop | .init | .clrerr | .expand | .rstart | .round | .check | .msgFinal => i.mnemonic
  | .add | .add3 | .xor | .and | .not | .ch | .maj | .bsig0 | .bsig1 | .ssig0 | .ssig1 => i.mnemonic
  | .pack | .unpack => i.mnemonic

end Sys2Proof
end

