-- ==== Sys2Proof/Config.lean ====
section
/-! DEFINITION. The free values of the machine: opaque constants, so that nothing can be proved about any one of
them and every claim holds for every value (92_eei_decisions.md, "Open parameters"). -/

namespace Sys2Proof.Config

/-- The reset draws (10_state.md R54, D33): `resetDraw n a` is the word that draw number `n` puts into the storage
element at register-space offset `a` (20_memory.md R63). A free value, log 1. -/
opaque resetDraw : Nat → Nat → Word

/-- The busy-read draws (20_memory.md R69, D6): what draw number `n` makes a host read return while BUSY = 1.
A free value, log 3. -/
opaque busyRead : Nat → Word

end Sys2Proof.Config
end

