-- ==== Sys2Proof/Machine/Rom.lean ====
section
/-! DEFINITION. The hardwired constants of the engine: ID, the round-constant ROM K and the initial-hash ROM IV
(10_state.md R23, R44, R45). No event changes them (R55), so they are no part of State. -/

namespace Sys2Proof.Machine

/-- ID (10_state.md R23). -/
def Rom.idWord : Word := 0x53484132

/-- A row of eight words as 10_state.md R44 and R45 print it: the word with the least index in the highest 32 bits. -/
def Rom.rowWords (row : BitVec 256) : Vector Word 8 :=
  Vector.ofFn fun i => row.extractLsb' (224 - 32 * i.val) 32

/-- K[0..63], eight words a row, K[8r] to K[8r + 7] in row r (10_state.md R44). -/
def Rom.K : Vector Word 64 :=
  Rom.rowWords 0x428a2f98_71374491_b5c0fbcf_e9b5dba5_3956c25b_59f111f1_923f82a4_ab1c5ed5 ++
  Rom.rowWords 0xd807aa98_12835b01_243185be_550c7dc3_72be5d74_80deb1fe_9bdc06a7_c19bf174 ++
  Rom.rowWords 0xe49b69c1_efbe4786_0fc19dc6_240ca1cc_2de92c6f_4a7484aa_5cb0a9dc_76f988da ++
  Rom.rowWords 0x983e5152_a831c66d_b00327c8_bf597fc7_c6e00bf3_d5a79147_06ca6351_14292967 ++
  Rom.rowWords 0x27b70a85_2e1b2138_4d2c6dfc_53380d13_650a7354_766a0abb_81c2c92e_92722c85 ++
  Rom.rowWords 0xa2bfe8a1_a81a664b_c24b8b70_c76c51a3_d192e819_d6990624_f40e3585_106aa070 ++
  Rom.rowWords 0x19a4c116_1e376c08_2748774c_34b0bcb5_391c0cb3_4ed8aa4a_5b9cca4f_682e6ff3 ++
  Rom.rowWords 0x748f82ee_78a5636f_84c87814_8cc70208_90befffa_a4506ceb_bef9a3f7_c67178f2

/-- IV[0..7] (10_state.md R45). -/
def Rom.IV : Vector Word 8 :=
  Rom.rowWords 0x6a09e667_bb67ae85_3c6ef372_a54ff53a_510e527f_9b05688c_1f83d9ab_5be0cd19

end Sys2Proof.Machine
end

