-- ==== Sys2Proof/Machine/State.lean ====
section
/-! DEFINITION. The state of one engine instance (10_state.md R20), the moves of its agents as plain data, the
reasons a step can stop, and the state after reset (R53). -/

namespace Sys2Proof.Machine

/-- FSM (10_state.md R46): the source's Initialized, Processing, Finalized. -/
inductive Fsm where
  | initialized
  | processing
  | finalized
  deriving DecidableEq, Repr

/-- PATH (10_state.md R48): how the current message is supplied. -/
inductive Path where
  | none
  | word
  | bit
  deriving DecidableEq, Repr

/-- The error codes (60_exceptions.md R241). Codes 8 to 255 are never produced. -/
inductive ErrCode where
  | noError
  | lengthMismatch
  | malformedBlock
  | constraintViolation
  | illegalCmd
  | sequence
  | busy
  | lengthOverflow
  deriving DecidableEq, Repr

/-- One move of an agent (00_scope.md R19): a host access of `bytes` bytes at a register-space offset, the engine's
step, or a reset by the platform (70_reset_and_hazards.md R270). -/
inductive Event where
  /-- The host reads (20_memory.md R66). -/
  | read (bytes : Nat) (offset : BitVec 12)
  /-- The host writes (20_memory.md R67). -/
  | write (bytes : Nat) (offset : BitVec 12) (value : Word)
  /-- The engine takes its step, if a command is pending (20_memory.md R71). -/
  | engine
  /-- The platform asserts reset (70_reset_and_hazards.md R270). -/
  | reset
  deriving DecidableEq, Repr

/-- The state (10_state.md R20), then the model's own fields `agenda`, `rdata` and `draws`. -/
structure State where
  /-- CTRL.ENDIAN (10_state.md R22). -/
  endian : Bool
  /-- CTRL.PADBYP (10_state.md R22). -/
  padbyp : Bool
  /-- FSM (10_state.md R46). -/
  fsm : Fsm
  /-- INBLOCK (10_state.md R47). -/
  inblock : Bool
  /-- PATH (10_state.md R48). -/
  path : Path
  /-- STATUS.CHKOK (46_verifier.md R225). -/
  chkok : Bool
  /-- PENDING, the command latch (10_state.md R49): the word while its valid bit is 1. -/
  pending : Option Word
  /-- ERRCODE (10_state.md R26). -/
  errcode : ErrCode
  /-- BLKIDX (10_state.md R27). -/
  blkidx : Word
  /-- The round counter t, 0..64 (10_state.md R28). -/
  t : Fin 65
  /-- VMASK (10_state.md R29). -/
  vmask : BitVec 16
  /-- L, the message bit length (10_state.md R30). -/
  len : BitVec 64
  /-- BITS (10_state.md R31). -/
  bits : Word
  /-- CHKIDX (10_state.md R32). -/
  chkidx : Word
  /-- X (10_state.md R33). -/
  x : Word
  /-- Y (10_state.md R33). -/
  y : Word
  /-- Z (10_state.md R33). -/
  z : Word
  /-- R (10_state.md R34). -/
  r : Word
  /-- CARRY (10_state.md R35). -/
  carry : BitVec 2
  /-- H[0..7], the chaining value (10_state.md R36). -/
  h : Vector Word 8
  /-- WK[0..7], the working registers a..h (10_state.md R37). -/
  wk : Vector Word 8
  /-- M[0..15], the block buffer (10_state.md R38). -/
  m : Vector Word 16
  /-- W[0..63], the schedule memory (10_state.md R39). -/
  w : Vector Word 64
  /-- T1[0..63] (10_state.md R41). -/
  t1 : Vector Word 64
  /-- T2[0..63] (10_state.md R41). -/
  t2 : Vector Word 64
  /-- WR[0..63][0..7] (10_state.md R42). -/
  wr : Vector (Vector Word 8) 64
  /-- HIN[0..7] (10_state.md R43). -/
  hin : Vector Word 8
  /-- HOUT[0..7] (10_state.md R43). -/
  hout : Vector Word 8
  /-- The model's own: the moves still to come, oldest first (20_memory.md R79; log 4). -/
  agenda : List Event
  /-- The model's own: what the latest host read returned (log 5). -/
  rdata : Option Word
  /-- The model's own: how many free values have been drawn (log 2). -/
  draws : Nat
  deriving DecidableEq, Repr

/-- The reasons the machine stops with a fault: none. "The hardware has no trap" (60_exceptions.md R240): an error
is recorded in ERRCODE and the machine goes on. -/
inductive Fault where
  deriving DecidableEq, Repr

/-- The reasons the model has no meaning for a step. -/
inductive Refusal where
  /-- Raised by `exec` for an instruction without a meaning yet. No arm of this model raises it. Safe. -/
  | notModelled (mnemonic : String)
  /-- Raised by a host access that is not a 32-bit access at a multiple of 4: "A model refuses it" (20_memory.md
  R61). Safe: no claim covers such a run. -/
  | accessOutsideInterface (bytes : Nat) (offset : BitVec 12)
  deriving DecidableEq, Repr

/-- The state that a reset with draw number `n` leaves (10_state.md R53, 70_reset_and_hazards.md R270): constants for
the registers, a draw for each element of WK, M and the witness arrays (R54), named by the element's offset. -/
def State.resetAt (n : Nat) : State where
  endian := false
  padbyp := false
  fsm := .initialized
  inblock := false
  path := .none
  chkok := false
  pending := none
  errcode := .noError
  blkidx := 0
  t := 0
  vmask := 0
  len := 0
  bits := 0
  chkidx := 0
  x := 0
  y := 0
  z := 0
  r := 0
  carry := 0
  h := Rom.IV
  wk := Vector.ofFn fun k => Config.resetDraw n (0x0E0 + 4 * k)
  m := Vector.ofFn fun j => Config.resetDraw n (0x080 + 4 * j)
  w := Vector.ofFn fun t => Config.resetDraw n (0x100 + 4 * t)
  t1 := Vector.ofFn fun t => Config.resetDraw n (0x200 + 4 * t)
  t2 := Vector.ofFn fun t => Config.resetDraw n (0x300 + 4 * t)
  wr := Vector.ofFn fun t => Vector.ofFn fun k => Config.resetDraw n (0x400 + 32 * t + 4 * k)
  hin := Vector.ofFn fun i => Config.resetDraw n (0xC00 + 4 * i)
  hout := Vector.ofFn fun i => Config.resetDraw n (0xC20 + 4 * i)
  agenda := []
  rdata := none
  draws := n + 1

/-- The state right after power-on reset (10_state.md R53): draw number 0, and no move of any agent yet. -/
def State.reset : State := State.resetAt 0

end Sys2Proof.Machine
end

