-- ==== Sys2Proof/Machine/Flags.lean ====
section
/-! DEFINITION. The status bits and codes a program can test (10_state.md R52): codes of the enumerations, the
STATUS word and the other register views, and the carry-out of the adder. -/

namespace Sys2Proof.Machine

/-- The code of each error (60_exceptions.md R241). -/
def ErrCode.code : ErrCode → BitVec 8
  | .noError => 0
  | .lengthMismatch => 1
  | .malformedBlock => 2
  | .constraintViolation => 3
  | .illegalCmd => 4
  | .sequence => 5
  | .busy => 6
  | .lengthOverflow => 7

/-- STATUS.FSM (10_state.md R46). -/
def Fsm.code : Fsm → BitVec 2
  | .initialized => 0
  | .processing => 1
  | .finalized => 2

/-- STATUS.PATH (10_state.md R48). -/
def Path.code : Path → BitVec 2
  | .none => 0
  | .word => 1
  | .bit => 2

/-- STATUS.BUSY = PENDING.valid (10_state.md R49). -/
def State.busy (s : State) : Bool := s.pending.isSome

/-- STATUS.ERR = (ERRCODE != 0) (10_state.md R24, 60_exceptions.md R243). -/
def State.err (s : State) : Bool := s.errcode != .noError

/-- The STATUS word, `{24'b0, CHKOK, PATH, INBLOCK, ERR, FSM, BUSY}` (20_memory.md R66). -/
def statusWord (s : State) : Word :=
  0#24 ++ BitVec.ofBool s.chkok ++ s.path.code ++ BitVec.ofBool s.inblock ++ BitVec.ofBool s.err ++ s.fsm.code ++
    BitVec.ofBool s.busy

/-- The CTRL word, `zext_32({PADBYP, ENDIAN})` (20_memory.md R66). -/
def ctrlWord (s : State) : Word := (BitVec.ofBool s.padbyp ++ BitVec.ofBool s.endian).zeroExtend 32

/-- The carry-out of an exact sum, `floor(sum / 2^32)`, on the two bits of CARRY (10_state.md R35). -/
def carryOut (sum : Nat) : BitVec 2 := BitVec.ofNat 2 (sum / 2 ^ 32)

end Sys2Proof.Machine
end

