-- ==== Sys2Proof/Machine/Operands.lean ====
section
/-! DEFINITION. The operand forms: bit sequences held in a register in the lane order of CTRL.ENDIAN
(42_codec.md R151), and the state conditions a command tests before it runs (60_exceptions.md R242). -/

namespace Sys2Proof.Machine

/-! ### Bit sequences in a register -/

/-- Element `i` of the 32-bit sequence held in `v` (42_codec.md R151): MSB-first for ENDIAN = 0, LSB-first for 1. -/
def laneBit (endian : Bool) (v : Word) (i : Nat) : Bool :=
  if endian then v.getLsbD i else v.getLsbD (31 - i)

/-- The word whose bits, from the most significant down, are `s 0, s 1, …, s 31` (20_memory.md R73). -/
def wordOfMsbFirst (s : Nat → Bool) : Word := BitVec.ofFnLE fun i : Fin 32 => s (31 - i.val)

/-- The word whose bits, from the least significant up, are `s 0, s 1, …, s 31`. -/
def wordOfLsbFirst (s : Nat → Bool) : Word := BitVec.ofFnLE fun i : Fin 32 => s i.val

/-- The 32-bit bit reversal (42_codec.md R154). -/
def brev (x : Word) : Word := wordOfLsbFirst fun i => x.getLsbD (31 - i)

/-- One word of `bitsToWords` (42_codec.md R152): the sequence in the lane order becomes a word, first bit the MSB. -/
def packWord (endian : Bool) (x : Word) : Word := wordOfMsbFirst (laneBit endian x)

/-- One word of `wordsToBits` (42_codec.md R153): the word's bits, MSB first, placed in the lane order. -/
def unpackWord (endian : Bool) (x : Word) : Word :=
  let s := fun i => x.getLsbD (31 - i)
  if endian then wordOfLsbFirst s else wordOfMsbFirst s

/-- `x` with bit `b` replaced by `v` (43_padding.md R161). -/
def replaceBit (x : Word) (b : Nat) (v : Bool) : Word :=
  if v then x ||| (1#32 <<< b) else x &&& ~~~(1#32 <<< b)

/-! ### The fill pointer -/

/-- `P = L mod 512` (10_state.md R50). -/
def fillPointer (s : State) : Fin 512 := ⟨s.len.toNat % 512, Nat.mod_lt _ (by decide)⟩

/-! ### State conditions -/

/-- EXPAND, RSTART and COMPRESS are out of sequence: FSM = FINALIZED, or PATH = BIT, or INBLOCK = 1
(60_exceptions.md R242). -/
def blockOutOfSequence (s : State) : Bool := s.fsm == .finalized || s.path == .bit || s.inblock

/-- MSG_PUSH and MSG_FINAL are out of sequence: FSM = FINALIZED, or PATH = WORD (43_padding.md R162). -/
def messageOutOfSequence (s : State) : Bool := s.fsm == .finalized || s.path == .word

/-- The block buffer is not well-formed: VMASK != 0xFFFF (10_state.md R29). -/
def blockMalformed (s : State) : Bool := s.vmask != 0xFFFF

/-- A MSG_PUSH of `n` bits would make L exceed 2^64 - 1 (43_padding.md R165). -/
def lengthOverflows (n : Nat) (s : State) : Bool := decide (s.len.toNat + n > 2 ^ 64 - 1)

end Sys2Proof.Machine
end

