-- ==== Sys2Proof/Machine/Ops.lean ====
section
/-! DEFINITION. The shared operations: error recording (60_exceptions.md R243, R244), the barrel shifter and the SHA
functions (00_scope.md R12, R13), the schedule (44_scheduler.md R180), the round, the feed-forward and CompressBlock
(45_compression.md R191 to R195), and the bit-path writes of the block buffer (43_padding.md R161). -/

namespace Sys2Proof.Machine

/-- What a step of this machine answers. -/
abbrev Answer := Host.Outcome State Fault Refusal

/-! ### Errors -/

/-- `record E`: the first error since reset or CLRERR stays (60_exceptions.md R243). -/
def record (e : ErrCode) (s : State) : State :=
  if s.errcode = .noError then { s with errcode := e } else s

/-- `raise E` inside a command: record it and end the command with no other change (60_exceptions.md R244). This is
the one way a command is aborted. -/
def raise (e : ErrCode) (s : State) : Answer := .next (record e s)

/-! ### Barrel shifter and SHA functions -/

/-- `rotr(x, n)` for 0 <= n <= 31 (00_scope.md R12, 41_datapath.md R129). -/
def rotr (x : Word) (n : Nat) : Word := if n = 0 then x else (x >>> n) ||| (x <<< (32 - n))

/-- `shr(x, n) = floor(x / 2^n)` (00_scope.md R12). -/
def shr (x : Word) (n : Nat) : Word := x >>> n

/-- BSIG0, the source's Σ0 (00_scope.md R13). -/
def bsig0 (x : Word) : Word := rotr x 2 ^^^ rotr x 13 ^^^ rotr x 22

/-- BSIG1, the source's Σ1 (00_scope.md R13). -/
def bsig1 (x : Word) : Word := rotr x 6 ^^^ rotr x 11 ^^^ rotr x 25

/-- SSIG0, the source's σ0 (00_scope.md R13). -/
def ssig0 (x : Word) : Word := rotr x 7 ^^^ rotr x 18 ^^^ shr x 3

/-- SSIG1, the source's σ1 (00_scope.md R13). -/
def ssig1 (x : Word) : Word := rotr x 17 ^^^ rotr x 19 ^^^ shr x 10

/-- Ch (00_scope.md R13). -/
def chFn (x y z : Word) : Word := (x &&& y) ^^^ (~~~x &&& z)

/-- Maj (00_scope.md R13). -/
def majFn (x y z : Word) : Word := (x &&& y) ^^^ (x &&& z) ^^^ (y &&& z)

/-! ### Result registers of the datapath -/

/-- A command that writes R alone (41_datapath.md R120). -/
def setResult (v : Word) (s : State) : State := { s with r := v }

/-- The modular adder on an exact sum: R is the sum modulo 2^32, CARRY the carry-out (41_datapath.md R121). -/
def setSum (sum : Nat) (s : State) : State := { s with r := mod32 sum, carry := carryOut sum }

/-! ### Message scheduler -/

/-- `SSIG1(W[t-2]) + W[t-7] + SSIG0(W[t-15]) + W[t-16]` modulo 2^32, for t = 16 + i (44_scheduler.md R180). Reducing
after each addition gives the same word as reducing once (41_datapath.md R121). -/
def schedWord (w : Vector Word 64) (i : Fin 48) : Word :=
  ssig1 w[i.val + 14] + w[i.val + 9] + ssig0 w[i.val + 1] + w[i.val]

/-- `W[t] <- blk[t]` for t in 0..15 (44_scheduler.md R180). -/
def copyBlock (blk : Vector Word 16) (w : Vector Word 64) : Vector Word 64 :=
  (List.finRange 16).foldl (fun w j => w.set j.val blk[j]) w

/-- `W[t]` for t in 16..63, in increasing t (44_scheduler.md R180). -/
def extendSchedule (w : Vector Word 64) : Vector Word 64 :=
  (List.finRange 48).foldl (fun w i => w.set (i.val + 16) (schedWord w i)) w

/-- `Expand(blk)` into the schedule memory (44_scheduler.md R180). -/
def expandBlock (blk : Vector Word 16) (s : State) : State :=
  { s with w := extendSchedule (copyBlock blk s.w) }

/-! ### Compression engine -/

/-- `T1 = h + BSIG1(e) + Ch(e,f,g) + K[t] + W[t]` modulo 2^32 (45_compression.md R191). -/
def roundT1 (v : Vector Word 8) (k w : Word) : Word :=
  v[7] + bsig1 v[4] + chFn v[4] v[5] v[6] + k + w

/-- `T2 = BSIG0(a) + Maj(a,b,c)` modulo 2^32 (45_compression.md R191). -/
def roundT2 (v : Vector Word 8) : Word := bsig0 v[0] + majFn v[0] v[1] v[2]

/-- The shift of the working registers, `(T1+T2, a, b, c, d+T1, e, f, g)` (45_compression.md R191). -/
def roundShift (v : Vector Word 8) (t1 t2 : Word) : Vector Word 8 :=
  #v[t1 + t2, v[0], v[1], v[2], v[3] + t1, v[4], v[5], v[6]]

/-- `Round(t)` (45_compression.md R191), which also writes row t of the witness. -/
def roundOp (t : Fin 64) (s : State) : State :=
  let t1v := roundT1 s.wk Rom.K[t] s.w[t]
  let t2v := roundT2 s.wk
  let wk' := roundShift s.wk t1v t2v
  { s with wk := wk', t1 := s.t1.set t.val t1v, t2 := s.t2.set t.val t2v, wr := s.wr.set t.val wk' }

/-- `WK[i] <- H[i]; HIN[i] <- H[i]` (45_compression.md R193). -/
def loadWorking (s : State) : State := { s with wk := s.h, hin := s.h }

/-- `for t in 0..63: Round(t)` (45_compression.md R195). -/
def allRounds (s : State) : State := (List.finRange 64).foldl (fun s t => roundOp t s) s

/-- The feed-forward: H, HOUT, BLKIDX and FSM (45_compression.md R194). -/
def feedForward (last : Bool) (s : State) : State :=
  let h' := Vector.zipWith (· + ·) s.h s.wk
  { s with h := h', hout := h', blkidx := s.blkidx + 1, fsm := if last then .finalized else .processing }

/-- `CompressBlock(blk, last)` (45_compression.md R195). It does not write INBLOCK, PATH, VMASK, L or M (log 11). -/
def compressBlock (blk : Vector Word 16) (last : Bool) (s : State) : State :=
  feedForward last { allRounds (loadWorking (expandBlock blk s)) with t := 64 }

/-! ### Padding engine -/

/-- `setbit(p, v)` (43_padding.md R161). -/
def setbit (p : Fin 512) (v : Bool) (s : State) : State :=
  { s with m := s.m.set (p.val / 32) (replaceBit s.m[p.val / 32] (31 - p.val % 32) v) }

/-- The first success of a bit-path command: VMASK is cleared if PATH = NONE, and PATH becomes BIT
(43_padding.md R162). -/
def enterBitPath (s : State) : State :=
  { s with vmask := if s.path = .none then 0 else s.vmask, path := .bit }

/-- One pass of MSG_PUSH's loop for bit number `i` of BITS; a bit that fills the block compresses it as a non-last
block (43_padding.md R163, R164). -/
def pushBit (i : Nat) (s : State) : State :=
  let s := setbit (fillPointer s) (laneBit s.endian s.bits i) s
  let s := { s with len := s.len + 1 }
  if s.len.toNat % 512 = 0 then compressBlock s.m false s else s

/-- `for i in 0 .. n-1` of MSG_PUSH (43_padding.md R163). -/
def pushBits (n : Nat) (s : State) : State := (List.range n).foldl (fun s i => pushBit i s) s

/-- `for p in lo .. lo+n-1: setbit(p, 0)` (43_padding.md R166). -/
def clearBits (lo n : Nat) (s : State) : State :=
  (List.range n).foldl (fun s i => setbit (Fin.ofNat 512 (lo + i)) false s) s

/-- `M[14] <- L[63:32]; M[15] <- L[31:0]` (43_padding.md R166, 20_memory.md R74). -/
def putLength (s : State) : State :=
  { s with m := (s.m.set 14 (s.len.extractLsb' 32 32)).set 15 (s.len.extractLsb' 0 32) }

/-- `for j in 0 .. 13: M[j] <- 0` (43_padding.md R166). -/
def clearWords (s : State) : State :=
  { s with m := (List.finRange 14).foldl (fun m j => m.set j.val 0) s.m }

end Sys2Proof.Machine
end

