-- ==== Sys2Proof/Machine/Codec.lean ====
section
/-! DEFINITION. The word endian codec: PACK and UNPACK (42_codec.md). ENDIAN is read at the engine step
(70_reset_and_hazards.md R285). -/

namespace Sys2Proof.Machine

/-- PACK (42_codec.md R152). -/
def execPack (s : State) : Answer := .next (setResult (packWord s.endian s.x) s)

/-- UNPACK (42_codec.md R153). -/
def execUnpack (s : State) : Answer := .next (setResult (unpackWord s.endian s.x) s)

end Sys2Proof.Machine
end

