-- ==== Sys2Proof/Machine/Compression.lean ====
section
/-! DEFINITION. The compression engine: RSTART, ROUND, FEEDFWD and COMPRESS (45_compression.md). -/

namespace Sys2Proof.Machine

/-- RSTART (45_compression.md R193). -/
def execRstart (s : State) : Answer :=
  if blockOutOfSequence s then raise .sequence s
  else .next { loadWorking s with t := 0, inblock := true, path := .word }

/-- ROUND (45_compression.md R192): out of sequence when INBLOCK = 0 or t = 64. -/
def execRound (s : State) : Answer :=
  if h : s.inblock = true ∧ s.t.val < 64 then
    .next { roundOp ⟨s.t.val, h.2⟩ s with t := ⟨s.t.val + 1, Nat.succ_lt_succ h.2⟩ }
  else raise .sequence s

/-- FEEDFWD (45_compression.md R194): out of sequence when INBLOCK = 0 or t != 64. -/
def execFeedfwd (last : Bool) (s : State) : Answer :=
  if s.inblock = true ∧ s.t.val = 64 then .next { feedForward last s with inblock := false }
  else raise .sequence s

/-- COMPRESS (45_compression.md R196). -/
def execCompress (last : Bool) (s : State) : Answer :=
  if blockOutOfSequence s then raise .sequence s
  else if blockMalformed s then raise .malformedBlock s
  else .next { compressBlock s.m last s with vmask := 0, path := .word }

end Sys2Proof.Machine
end

