-- ==== Sys2Proof/Machine/Control.lean ====
section
/-! DEFINITION. The control commands NOP, INIT and CLRERR (40_control.md). -/

namespace Sys2Proof.Machine

/-- NOP (40_control.md R111): `skip`. -/
def execNop (s : State) : Answer := .next s

/-- INIT (40_control.md R112): start a new message. -/
def execInit (s : State) : Answer :=
  .next { s with
    h := Rom.IV, blkidx := 0, t := 0, inblock := false, len := 0, vmask := 0, path := .none, fsm := .initialized }

/-- CLRERR (40_control.md R113). -/
def execClrerr (s : State) : Answer := .next { s with errcode := .noError }

end Sys2Proof.Machine
end

