-- ==== Sys2Proof/Machine/Datapath.lean ====
section
/-! DEFINITION. The datapath commands: modular adder, logic units, barrel shifter and SHA function units
(41_datapath.md). Each is legal in every state and raises nothing (R120). -/

namespace Sys2Proof.Machine

/-- ADD (41_datapath.md R122). -/
def execAdd (s : State) : Answer := .next (setSum (s.x.toNat + s.y.toNat) s)

/-- ADD3 (41_datapath.md R123). -/
def execAdd3 (s : State) : Answer := .next (setSum (s.x.toNat + s.y.toNat + s.z.toNat) s)

/-- XOR (41_datapath.md R124). -/
def execXor (s : State) : Answer := .next (setResult (s.x ^^^ s.y) s)

/-- AND (41_datapath.md R125). -/
def execAnd (s : State) : Answer := .next (setResult (s.x &&& s.y) s)

/-- NOT (41_datapath.md R126). -/
def execNot (s : State) : Answer := .next (setResult (~~~s.x) s)

/-- CH (41_datapath.md R127). -/
def execCh (s : State) : Answer := .next (setResult (chFn s.x s.y s.z) s)

/-- MAJ (41_datapath.md R128). -/
def execMaj (s : State) : Answer := .next (setResult (majFn s.x s.y s.z) s)

/-- ROTR sh (41_datapath.md R130). -/
def execRotr (sh : Nat) (s : State) : Answer := .next (setResult (rotr s.x sh) s)

/-- SHR sh (41_datapath.md R131). -/
def execShr (sh : Nat) (s : State) : Answer := .next (setResult (shr s.x sh) s)

/-- BSIG0 (41_datapath.md R132). -/
def execBsig0 (s : State) : Answer := .next (setResult (bsig0 s.x) s)

/-- BSIG1 (41_datapath.md R133). -/
def execBsig1 (s : State) : Answer := .next (setResult (bsig1 s.x) s)

/-- SSIG0 (41_datapath.md R134). -/
def execSsig0 (s : State) : Answer := .next (setResult (ssig0 s.x) s)

/-- SSIG1 (41_datapath.md R135). -/
def execSsig1 (s : State) : Answer := .next (setResult (ssig1 s.x) s)

end Sys2Proof.Machine
end

