-- ==== Sys2Proof/Machine/Padding.lean ====
section
/-! DEFINITION. The padding engine and bit path: MSG_PUSH and MSG_FINAL (43_padding.md). -/

namespace Sys2Proof.Machine

/-- MSG_PUSH n (43_padding.md R163). -/
def execMsgPush (n : Nat) (s : State) : Answer :=
  if messageOutOfSequence s then raise .sequence s
  else if lengthOverflows n s then raise .lengthOverflow s
  else .next (pushBits n (enterBitPath s))

/-- MSG_FINAL with padding, P <= 447: the length field fits in this block (43_padding.md R166). -/
def padInBlock (s : State) : State :=
  let p := (fillPointer s).val
  let s := clearBits (p + 1) (447 - p) (setbit (fillPointer s) true s)
  let s := putLength s
  compressBlock s.m true s

/-- MSG_FINAL with padding, P >= 448: an extra block is needed (43_padding.md R166). -/
def padTwoBlocks (s : State) : State :=
  let p := (fillPointer s).val
  let s := clearBits (p + 1) (511 - p) (setbit (fillPointer s) true s)
  let s := compressBlock s.m false s
  let s := putLength (clearWords s)
  compressBlock s.m true s

/-- MSG_FINAL (43_padding.md R166); PADBYP is read at the engine step (70_reset_and_hazards.md R285). -/
def execMsgFinal (s : State) : Answer :=
  if messageOutOfSequence s then raise .sequence s
  else if s.padbyp then
    if (fillPointer s).val ≠ 0 then raise .lengthMismatch s
    else .next { enterBitPath s with fsm := .finalized }
  else if (fillPointer s).val ≤ 447 then .next (padInBlock (enterBitPath s))
  else .next (padTwoBlocks (enterBitPath s))

end Sys2Proof.Machine
end

