-- ==== Sys2Proof/Machine/Scheduler.lean ====
section
/-! DEFINITION. The message scheduler: EXPAND (44_scheduler.md). -/

namespace Sys2Proof.Machine

/-- EXPAND (44_scheduler.md R181). -/
def execExpand (s : State) : Answer :=
  if blockOutOfSequence s then raise .sequence s
  else if blockMalformed s then raise .malformedBlock s
  else .next { expandBlock s.m s with vmask := 0, path := .word }

end Sys2Proof.Machine
end

