-- ==== Sys2Proof/Machine/Verifier.lean ====
section
/-! DEFINITION. The constraint verifier: the equations of a witness (46_verifier.md R221 to R223) and CHECK (R224). -/

namespace Sys2Proof.Machine

/-- The equations: schedule word t = 16 + i (46_verifier.md R221), equation j of round t (R222), feed-forward i
(R223). -/
inductive Equation where
  | schedule (i : Fin 48)
  | round (t : Fin 64) (j : Fin 10)
  | feedForward (i : Fin 8)
  deriving DecidableEq, Repr

/-- The index of an equation (46_verifier.md R221 to R223). -/
def Equation.index : Equation → Nat
  | .schedule i => 16 + i.val
  | .round t j => 64 + 10 * t.val + j.val
  | .feedForward i => 704 + i.val

/-- The registers `(a, …, h)` before round t, as the witness claims them: HIN for t = 0, else row t-1 of WR
(46_verifier.md R222). -/
def roundInput (s : State) (t : Fin 64) : Vector Word 8 :=
  if t.val = 0 then s.hin else s.wr[t.val - 1]

/-- The left side and the right side of equation j of round t; they use the claimed T1[t] and T2[t]
(46_verifier.md R222). -/
def roundEquation (s : State) (t : Fin 64) (j : Fin 10) : Word × Word :=
  let v := roundInput s t
  let row := s.wr[t]
  match j with
  | 0 => (s.t1[t], roundT1 v Rom.K[t] s.w[t])
  | 1 => (s.t2[t], roundT2 v)
  | 2 => (row[0], s.t1[t] + s.t2[t])
  | 3 => (row[1], v[0])
  | 4 => (row[2], v[1])
  | 5 => (row[3], v[2])
  | 6 => (row[4], v[3] + s.t1[t])
  | 7 => (row[5], v[4])
  | 8 => (row[6], v[5])
  | 9 => (row[7], v[6])

/-- The two sides of an equation over the witness memory. -/
def Equation.sides (s : State) : Equation → Word × Word
  | .schedule i => (s.w[i.val + 16], schedWord s.w i)
  | .round t j => roundEquation s t j
  | .feedForward i => (s.hout[i], s.hin[i] + s.wr[63][i])

/-- The equation is true of the witness. -/
def Equation.holds (s : State) (e : Equation) : Bool := (e.sides s).1 == (e.sides s).2

/-- Every equation, in increasing index 16..711 (46_verifier.md R224). -/
def allEquations : List Equation :=
  (List.finRange 48).map .schedule ++
  ((List.finRange 64).flatMap fun t => (List.finRange 10).map (.round t)) ++
  (List.finRange 8).map .feedForward

/-- The first equation that is false of the witness. -/
def firstFalse (s : State) : Option Equation := allEquations.find? fun e => !e.holds s

/-- The state CHECK leaves (46_verifier.md R224): CHKIDX, CHKOK, and CONSTRAINT_VIOLATION recorded without abort
(R226). -/
def checkWitness (s : State) : State :=
  match firstFalse s with
  | none => { s with chkidx := 0xFFFFFFFF, chkok := true }
  | some e => record .constraintViolation { s with chkidx := BitVec.ofNat 32 e.index, chkok := false }

/-- CHECK (46_verifier.md R224). -/
def execCheck (s : State) : Answer := .next (checkWitness s)

end Sys2Proof.Machine
end

