-- ==== Sys2Proof/Machine/Dispatch.lean ====
section
/-! DEFINITION. One arm per command: the meaning of each (30_encoding.md R96). -/

namespace Sys2Proof.Machine

def exec (i : Instr) (s : State) : Host.Outcome State Fault Refusal :=
  match i with
  | .nop => Sys2Proof.Machine.execNop s
  | .init => Sys2Proof.Machine.execInit s
  | .clrerr => Sys2Proof.Machine.execClrerr s
  | .compress last => Sys2Proof.Machine.execCompress last s
  | .expand => Sys2Proof.Machine.execExpand s
  | .rstart => Sys2Proof.Machine.execRstart s
  | .round => Sys2Proof.Machine.execRound s
  | .feedfwd last => Sys2Proof.Machine.execFeedfwd last s
  | .check => Sys2Proof.Machine.execCheck s
  | .msgPush n => Sys2Proof.Machine.execMsgPush n s
  | .msgFinal => Sys2Proof.Machine.execMsgFinal s
  | .add => Sys2Proof.Machine.execAdd s
  | .add3 => Sys2Proof.Machine.execAdd3 s
  | .xor => Sys2Proof.Machine.execXor s
  | .and => Sys2Proof.Machine.execAnd s
  | .not => Sys2Proof.Machine.execNot s
  | .ch => Sys2Proof.Machine.execCh s
  | .maj => Sys2Proof.Machine.execMaj s
  | .rotr sh => Sys2Proof.Machine.execRotr sh s
  | .shr sh => Sys2Proof.Machine.execShr sh s
  | .bsig0 => Sys2Proof.Machine.execBsig0 s
  | .bsig1 => Sys2Proof.Machine.execBsig1 s
  | .ssig0 => Sys2Proof.Machine.execSsig0 s
  | .ssig1 => Sys2Proof.Machine.execSsig1 s
  | .pack => Sys2Proof.Machine.execPack s
  | .unpack => Sys2Proof.Machine.execUnpack s

end Sys2Proof.Machine
end

