-- ==== Sys2Proof/Machine/Engine.lean ====
section
/-! DEFINITION. The engine step: the pending command is decoded and executed as one transition, and BUSY clears
(20_memory.md R71). -/

namespace Sys2Proof.Machine

/-- PENDING.valid <- 0 (20_memory.md R71). -/
def clearPending (s : State) : State := { s with pending := none }

/-- The engine step (20_memory.md R71). It is enabled exactly when a command is pending; an illegal word raises
ILLEGAL_CMD (30_encoding.md R98). PENDING is cleared first: the transition is indivisible and no command reads or
writes PENDING, so the order cannot be seen. -/
def engineStep (s : State) : Answer :=
  match s.pending with
  | none => .next s
  | some c =>
    match decodeCmd c with
    | .ok i => exec i (clearPending s)
    | .error _ => raise .illegalCmd (clearPending s)

end Sys2Proof.Machine
end

