-- ==== Sys2Proof/Machine/HostAccess.lean ====
section
/-! DEFINITION. The register space: address map and decode (20_memory.md R60 to R65), host reads and writes (R66 to
R69) and command issue (R70). -/

namespace Sys2Proof.Machine

/-- What an offset of the register space names (20_memory.md R62, R63). -/
inductive Target where
  | id | ctrl | status | cmd | errcode | blkidx | roundt | vmask | lenlo | lenhi | bits | chkidx
  | x | y | z | r | carry
  | m (j : Fin 16)
  | h (i : Fin 8)
  | wk (k : Fin 8)
  | w (t : Fin 64)
  | t1 (t : Fin 64)
  | t2 (t : Fin 64)
  | wr (t : Fin 64) (k : Fin 8)
  | hin (i : Fin 8)
  | hout (i : Fin 8)
  | k (t : Fin 64)
  | iv (i : Fin 8)
  | reserved
  deriving DecidableEq, Repr

/-- The control register at word number `n` of 0x000..0x043 (20_memory.md R62). -/
def controlRegister (n : Nat) : Target :=
  match n with
  | 0 => .id
  | 1 => .ctrl
  | 2 => .status
  | 3 => .cmd
  | 4 => .errcode
  | 5 => .blkidx
  | 6 => .roundt
  | 7 => .vmask
  | 8 => .lenlo
  | 9 => .lenhi
  | 10 => .bits
  | 11 => .chkidx
  | 12 => .x
  | 13 => .y
  | 14 => .z
  | 15 => .r
  | 16 => .carry
  | _ => .reserved

/-- `decode(a)` of 20_memory.md R64, on the offset as a number. -/
def decodeOffset (a : Nat) : Target :=
  if a < 0x044 then controlRegister (a / 4)
  else if a < 0x080 then .reserved
  else if a < 0x0C0 then .m (Fin.ofNat 16 ((a - 0x080) / 4))
  else if a < 0x0E0 then .h (Fin.ofNat 8 ((a - 0x0C0) / 4))
  else if a < 0x100 then .wk (Fin.ofNat 8 ((a - 0x0E0) / 4))
  else if a < 0x200 then .w (Fin.ofNat 64 ((a - 0x100) / 4))
  else if a < 0x300 then .t1 (Fin.ofNat 64 ((a - 0x200) / 4))
  else if a < 0x400 then .t2 (Fin.ofNat 64 ((a - 0x300) / 4))
  else if a < 0xC00 then .wr (Fin.ofNat 64 ((a - 0x400) / 32)) (Fin.ofNat 8 ((a - 0x400) % 32 / 4))
  else if a < 0xC20 then .hin (Fin.ofNat 8 ((a - 0xC00) / 4))
  else if a < 0xC40 then .hout (Fin.ofNat 8 ((a - 0xC20) / 4))
  else if a < 0xD00 then .reserved
  else if a < 0xE00 then .k (Fin.ofNat 64 ((a - 0xD00) / 4))
  else if a < 0xE20 then .iv (Fin.ofNat 8 ((a - 0xE00) / 4))
  else .reserved

/-- The offset of a register or array element (20_memory.md R62, R63); a reserved target has no one offset and is
given the first reserved one. -/
def Target.offset : Target → BitVec 12
  | .id => 0x000
  | .ctrl => 0x004
  | .status => 0x008
  | .cmd => 0x00C
  | .errcode => 0x010
  | .blkidx => 0x014
  | .roundt => 0x018
  | .vmask => 0x01C
  | .lenlo => 0x020
  | .lenhi => 0x024
  | .bits => 0x028
  | .chkidx => 0x02C
  | .x => 0x030
  | .y => 0x034
  | .z => 0x038
  | .r => 0x03C
  | .carry => 0x040
  | .m j => BitVec.ofNat 12 (0x080 + 4 * j.val)
  | .h i => BitVec.ofNat 12 (0x0C0 + 4 * i.val)
  | .wk i => BitVec.ofNat 12 (0x0E0 + 4 * i.val)
  | .w t => BitVec.ofNat 12 (0x100 + 4 * t.val)
  | .t1 t => BitVec.ofNat 12 (0x200 + 4 * t.val)
  | .t2 t => BitVec.ofNat 12 (0x300 + 4 * t.val)
  | .wr t i => BitVec.ofNat 12 (0x400 + 32 * t.val + 4 * i.val)
  | .hin i => BitVec.ofNat 12 (0xC00 + 4 * i.val)
  | .hout i => BitVec.ofNat 12 (0xC20 + 4 * i.val)
  | .k t => BitVec.ofNat 12 (0xD00 + 4 * t.val)
  | .iv i => BitVec.ofNat 12 (0xE00 + 4 * i.val)
  | .reserved => 0x044

/-- The offset, if any, that a platform address selects when the register space is placed at `base`: BASE is a
parameter (20_memory.md R60). -/
def busOffset (base addr : Nat) : Option (BitVec 12) :=
  if base ≤ addr ∧ addr < base + 4096 then some (BitVec.ofNat 12 (addr - base)) else none

/-- The value an exact read of a target returns (20_memory.md R66); constants and reserved fields as R55, R65. -/
def targetValue (s : State) : Target → Word
  | .id => Rom.idWord
  | .ctrl => ctrlWord s
  | .status => statusWord s
  | .cmd => 0
  | .errcode => s.errcode.code.zeroExtend 32
  | .blkidx => s.blkidx
  | .roundt => BitVec.ofNat 32 s.t.val
  | .vmask => s.vmask.zeroExtend 32
  | .lenlo => s.len.extractLsb' 0 32
  | .lenhi => s.len.extractLsb' 32 32
  | .bits => s.bits
  | .chkidx => s.chkidx
  | .x => s.x
  | .y => s.y
  | .z => s.z
  | .r => s.r
  | .carry => s.carry.zeroExtend 32
  | .m j => s.m[j]
  | .h i => s.h[i]
  | .wk i => s.wk[i]
  | .w t => s.w[t]
  | .t1 t => s.t1[t]
  | .t2 t => s.t2[t]
  | .wr t i => s.wr[t][i]
  | .hin i => s.hin[i]
  | .hout i => s.hout[i]
  | .k t => Rom.K[t]
  | .iv i => Rom.IV[i]
  | .reserved => 0

/-- A read of this target is exact while BUSY = 1 (20_memory.md R69). -/
def Target.exactWhileBusy : Target → Bool
  | .id | .status => true
  | _ => false

/-- `MemRead(a, 4)` of a target (20_memory.md R66): the value goes to the host, here in `rdata`; a busy read of
anything but ID and STATUS draws a fresh free value (R69, log 3). No register or array changes. -/
def readTarget (tgt : Target) (s : State) : State :=
  if s.busy && !tgt.exactWhileBusy then { s with rdata := some (Config.busyRead s.draws), draws := s.draws + 1 }
  else { s with rdata := some (targetValue s tgt) }

/-- `issue(c)` (20_memory.md R70). -/
def issue (c : Word) (s : State) : State := { s with pending := some c }

/-- A host write of M[j] (20_memory.md R67): rejected on the bit path. -/
def writeBlockWord (j : Fin 16) (v : Word) (s : State) : State :=
  if s.path = .bit then record .sequence s
  else { s with m := s.m.set j.val v, vmask := s.vmask ||| (1#16 <<< j.val) }

/-- `MemWrite(a, 4, v)` of a target while BUSY = 0 (20_memory.md R67). -/
def writeIdle (tgt : Target) (v : Word) (s : State) : State :=
  match tgt with
  | .cmd => issue v s
  | .ctrl => { s with endian := v.getLsbD 0, padbyp := v.getLsbD 1 }
  | .bits => { s with bits := v }
  | .x => { s with x := v }
  | .y => { s with y := v }
  | .z => { s with z := v }
  | .m j => writeBlockWord j v s
  | .w t => { s with w := s.w.set t.val v }
  | .t1 t => { s with t1 := s.t1.set t.val v }
  | .t2 t => { s with t2 := s.t2.set t.val v }
  | .wr t i => { s with wr := s.wr.set t.val (s.wr[t].set i.val v) }
  | .hin i => { s with hin := s.hin.set i.val v }
  | .hout i => { s with hout := s.hout.set i.val v }
  | .id | .status | .errcode | .blkidx | .roundt | .vmask | .lenlo | .lenhi | .chkidx | .r | .carry => s
  | .h _ | .wk _ | .k _ | .iv _ | .reserved => s

/-- `MemWrite(a, 4, v)` of a target (20_memory.md R67): while BUSY = 1 it is dropped and BUSY is recorded (R68). -/
def writeTarget (tgt : Target) (v : Word) (s : State) : State :=
  if s.busy then record .busy s else writeIdle tgt v s

/-- The access is inside the interface: 32 bits at a multiple of 4 (20_memory.md R61). -/
def accessAllowed (bytes : Nat) (offset : BitVec 12) : Bool := bytes == 4 && offset.toNat % 4 == 0

/-- A host read of `bytes` bytes at an offset (20_memory.md R61, R66). -/
def hostRead (bytes : Nat) (offset : BitVec 12) (s : State) : Answer :=
  if accessAllowed bytes offset then .next (readTarget (decodeOffset offset.toNat) s)
  else .refused (.accessOutsideInterface bytes offset)

/-- A host write of `bytes` bytes at an offset (20_memory.md R61, R67). -/
def hostWrite (bytes : Nat) (offset : BitVec 12) (v : Word) (s : State) : Answer :=
  if accessAllowed bytes offset then .next (writeTarget (decodeOffset offset.toNat) v s)
  else .refused (.accessOutsideInterface bytes offset)

/-- Reset asserted between two steps (70_reset_and_hazards.md R270, R272): every state element at its reset value,
fresh draws, the pending command discarded. The coming moves and the host's own data stay. -/
def assertReset (s : State) : State :=
  { State.resetAt s.draws with agenda := s.agenda, rdata := s.rdata }

end Sys2Proof.Machine
end

