-- ==== Sys2Proof/Machine/Step.lean ====
section
/-! DEFINITION. One step of the machine: the next move of the agenda (00_scope.md R19, 20_memory.md R79). -/

namespace Sys2Proof.Machine

/-- One step (00_scope.md R19): the first move of the agenda is made. With no move listed the engine executes the
pending command, if there is one; otherwise it is idle (60_exceptions.md R257) and nothing changes. -/
def step (s : State) : Host.Outcome State Fault Refusal :=
  match s.agenda with
  | [] => engineStep s
  | .engine :: rest => engineStep { s with agenda := rest }
  | .read bytes offset :: rest => hostRead bytes offset { s with agenda := rest }
  | .write bytes offset v :: rest => hostWrite bytes offset v { s with agenda := rest }
  | .reset :: rest => .next (assertReset { s with agenda := rest })

/-- `s` with the command word `w` latched in PENDING and the engine's step as the next move, so that `step` executes
exactly it (log 12). -/
def State.withFetchWord (s : State) (nbits w : Nat) : State :=
  { s with pending := some (BitVec.ofNat 32 (w % 2 ^ nbits)), agenda := .engine :: s.agenda }

end Sys2Proof.Machine
end

