-- ==== Sys2Proof/Machine/Digest.lean ====
section
/-! DEFINITION. The digest as the host reads it from H: as 32 bytes, as 256 bits and as a hex string
(20_memory.md R75, 42_codec.md R158). -/

namespace Sys2Proof.Machine

/-- Digest byte 4i + b is `H[i][31 - 8b : 24 - 8b]` (20_memory.md R75). -/
def digestByte (s : State) (n : Fin 32) : BitVec 8 := s.h[n.val / 4].extractLsb' (24 - 8 * (n.val % 4)) 8

/-- Digest bit 32i + b is `H[i][31 - b]` (42_codec.md R158). -/
def digestBit (s : State) (n : Fin 256) : Bool := s.h[n.val / 32].getLsbD (31 - n.val % 32)

/-- One word as 8 hex digits, the most significant first (20_memory.md R75). -/
def hexWord (w : Word) : List Char :=
  (List.range 8).map fun i => Nat.digitChar ((w.toNat / 16 ^ (7 - i)) % 16)

/-- The digest as a string of 64 hex digits (20_memory.md R75). -/
def digestHex (s : State) : String := String.ofList (s.h.toList.flatMap hexWord)

end Sys2Proof.Machine
end

