-- ==== Sys2Proof/Safety.lean ====
section
/-! DEFINITION. What counts as a good state and a right result, in the terms the claims use: the error table
(60_exceptions.md R242), the write matrix (10_state.md R56), the invariant of reachable states, and SHA-256 as a
function of a bit sequence (43_padding.md R167, 45_compression.md R198). -/

namespace Sys2Proof.Machine

/-! ### The error table (60_exceptions.md R242, R245) -/

/-- The error a decoded command raises, in the order SEQUENCE, then the data error (60_exceptions.md R245). CHECK
raises none: it records a violation without abort. -/
def commandError (i : Instr) (s : State) : Option ErrCode :=
  match i with
  | .expand | .compress _ =>
    if s.fsm = .finalized ∨ s.path = .bit ∨ s.inblock = true then some .sequence
    else if s.vmask ≠ 0xFFFF then some .malformedBlock else none
  | .rstart => if s.fsm = .finalized ∨ s.path = .bit ∨ s.inblock = true then some .sequence else none
  | .round => if s.inblock = false ∨ s.t.val = 64 then some .sequence else none
  | .feedfwd _ => if s.inblock = false ∨ s.t.val ≠ 64 then some .sequence else none
  | .msgPush n =>
    if s.fsm = .finalized ∨ s.path = .word then some .sequence
    else if s.len.toNat + n > 2 ^ 64 - 1 then some .lengthOverflow else none
  | .msgFinal =>
    if s.fsm = .finalized ∨ s.path = .word then some .sequence
    else if s.padbyp = true ∧ s.len.toNat % 512 ≠ 0 then some .lengthMismatch else none
  | .nop | .init | .clrerr | .check => none
  | .add | .add3 | .xor | .and | .not | .ch | .maj | .rotr _ | .shr _ => none
  | .bsig0 | .bsig1 | .ssig0 | .ssig1 | .pack | .unpack => none

/-- The next step of `s` is the engine executing the command `i` (20_memory.md R71). -/
def executes (i : Instr) (s : State) : Prop :=
  (s.agenda = [] ∨ ∃ rest, s.agenda = .engine :: rest) ∧ ∃ c, s.pending = some c ∧ decodeCmd c = .ok i

/-! ### The write matrix (10_state.md R56) -/

/-- The columns of the write matrix, then the elements no column lists. -/
inductive Element where
  | h | wk | m | w | roundWitness | hin | hout | blkidx | t | vmask | len | fsm | inblock | path | r | carry | check
  | errcode | ctrl | bits | operands | pending | modelOwn
  deriving DecidableEq, Repr

/-- Two states agree on an element. -/
def Element.same (e : Element) (s s' : State) : Prop :=
  match e with
  | .h => s'.h = s.h
  | .wk => s'.wk = s.wk
  | .m => s'.m = s.m
  | .w => s'.w = s.w
  | .roundWitness => s'.t1 = s.t1 ∧ s'.t2 = s.t2 ∧ s'.wr = s.wr
  | .hin => s'.hin = s.hin
  | .hout => s'.hout = s.hout
  | .blkidx => s'.blkidx = s.blkidx
  | .t => s'.t = s.t
  | .vmask => s'.vmask = s.vmask
  | .len => s'.len = s.len
  | .fsm => s'.fsm = s.fsm
  | .inblock => s'.inblock = s.inblock
  | .path => s'.path = s.path
  | .r => s'.r = s.r
  | .carry => s'.carry = s.carry
  | .check => s'.chkidx = s.chkidx ∧ s'.chkok = s.chkok
  | .errcode => s'.errcode = s.errcode
  | .ctrl => s'.endian = s.endian ∧ s'.padbyp = s.padbyp
  | .bits => s'.bits = s.bits
  | .operands => s'.x = s.x ∧ s'.y = s.y ∧ s'.z = s.z
  | .pending => s'.pending = s.pending
  | .modelOwn => s'.agenda = s.agenda ∧ s'.rdata = s.rdata ∧ s'.draws = s.draws

/-- A push of `n` bits fills the block (43_padding.md R164). -/
def fills (n : Nat) (s : State) : Bool := decide (s.len.toNat % 512 + n ≥ 512)

/-- The write matrix: whether a command may write an element in a state (10_state.md R56). ERRCODE may be written by
CLRERR, by CHECK and by the commands that raise an error. -/
def mayWrite (i : Instr) (s : State) (e : Element) : Bool :=
  match i with
  | .nop => false
  | .clrerr => e == .errcode
  | .init => e ∈ [.h, .blkidx, .t, .vmask, .len, .fsm, .inblock, .path]
  | .add | .add3 => e ∈ [.r, .carry]
  | .xor | .and | .not | .ch | .maj | .rotr _ | .shr _ | .bsig0 | .bsig1 | .ssig0 | .ssig1 => e == .r
  | .pack | .unpack => e == .r
  | .expand => e ∈ [.w, .vmask, .path, .errcode]
  | .rstart => e ∈ [.wk, .hin, .t, .inblock, .path, .errcode]
  | .round => e ∈ [.wk, .roundWitness, .t, .errcode]
  | .feedfwd _ => e ∈ [.h, .hout, .blkidx, .fsm, .inblock, .errcode]
  | .compress _ => e ∈ [.h, .wk, .w, .roundWitness, .hin, .hout, .blkidx, .t, .vmask, .fsm, .path, .errcode]
  | .msgPush n =>
    e ∈ [.m, .len, .path, .errcode] || (e == .vmask && s.path == .none) ||
      (fills n s && e ∈ [.h, .wk, .w, .roundWitness, .hin, .hout, .blkidx, .t, .fsm])
  | .msgFinal =>
    e ∈ [.path, .fsm, .errcode] || (e == .vmask && s.path == .none) ||
      (!s.padbyp && e ∈ [.h, .wk, .m, .w, .roundWitness, .hin, .hout, .blkidx, .t])
  | .check => e ∈ [.check, .errcode]

/-! ### The digest as a fold over blocks (45_compression.md R198) -/

/-- The schedule of a block as a function of the block alone (44_scheduler.md R180). -/
def scheduleOf (blk : Vector Word 16) : Vector Word 64 := extendSchedule (copyBlock blk (Vector.replicate 64 0))

/-- The working registers after 64 rounds on schedule `w`, from `v` (45_compression.md R191). -/
def workingAfter (w : Vector Word 64) (v : Vector Word 8) : Vector Word 8 :=
  (List.finRange 64).foldl (fun v t => roundShift v (roundT1 v Rom.K[t] w[t]) (roundT2 v)) v

/-- `H_(i+1) = H_i + F(H_i, b_i)` component-wise (45_compression.md R198). -/
def foldBlock (h : Vector Word 8) (blk : Vector Word 16) : Vector Word 8 :=
  Vector.zipWith (· + ·) h (workingAfter (scheduleOf blk) h)

/-- The fold of the blocks of one message from IV (45_compression.md R198). -/
def digestOf (blks : List (Vector Word 16)) : Vector Word 8 := blks.foldl foldBlock Rom.IV

/-! ### Messages as bit sequences -/

/-- Message bit `p` of a block (20_memory.md R73). -/
def blockBit (blk : Vector Word 16) (p : Fin 512) : Bool := blk[p.val / 32].getLsbD (31 - p.val % 32)

/-- Block `b` of a bit sequence (42_codec.md R156). -/
def messageBlock (msg : List Bool) (b : Nat) : Vector Word 16 :=
  Vector.ofFn fun j => wordOfMsbFirst fun i => msg.getD (512 * b + 32 * j.val + i) false

/-- The first `n` blocks of a bit sequence. -/
def messageBlocks (msg : List Bool) (n : Nat) : List (Vector Word 16) := (List.range n).map (messageBlock msg)

/-- The number of zero bits of the padding, `k = (447 - L) mod 512` (43_padding.md R167). -/
def padZeros (len : Nat) : Nat := (447 + 512 - len % 512) % 512

/-- The length field: 64 bits, the most significant first (43_padding.md R167). -/
def lengthField (len : Nat) : List Bool := (List.range 64).map fun i => len.testBit (63 - i)

/-- The padded message: the message, one 1 bit, k zero bits, the 64-bit length (43_padding.md R167). -/
def paddedMessage (msg : List Bool) : List Bool :=
  msg ++ [true] ++ List.replicate (padZeros msg.length) false ++ lengthField msg.length

/-- The digest of a bit sequence: pad it, cut it into blocks, fold them (43_padding.md R167, 45_compression.md
R198). -/
def sha256 (msg : List Bool) : Vector Word 8 :=
  let p := paddedMessage msg
  digestOf (messageBlocks p (p.length / 512))

/-- The bits a MSG_PUSH of `n` bits takes from BITS, in order (43_padding.md R163). -/
def pushedBits (n : Nat) (s : State) : List Bool := (List.range n).map (laneBit s.endian s.bits)

/-- The bit path of `s` holds the message bits `msg`, pushed since INIT or reset: L counts them, H has folded the
whole blocks, and M holds the bits of the partial block (43_padding.md R160). -/
structure HoldsMessage (s : State) (msg : List Bool) : Prop where
  path : s.path ≠ .word
  fsm : s.fsm ≠ .finalized
  len : s.len.toNat = msg.length
  chain : s.h = digestOf (messageBlocks msg (msg.length / 512))
  tail : ∀ p : Fin 512, p.val < msg.length % 512 →
    blockBit s.m p = msg.getD (512 * (msg.length / 512) + p.val) false

/-! ### The word path -/

/-- The host fills the block buffer: sixteen writes of M (20_memory.md R67). -/
def loadBlock (blk : Vector Word 16) (s : State) : State := { s with m := blk, vmask := 0xFFFF }

/-- The blocks of one message on the word path: each is loaded and compressed, the last with COMPRESS.L
(70_reset_and_hazards.md R275). `none` if a command does not answer a next state. -/
def compressAll : List (Vector Word 16) → State → Option State
  | [], s => some s
  | blk :: rest, s =>
    match exec (.compress rest.isEmpty) (loadBlock blk s) with
    | .next s' => compressAll rest s'
    | .fault _ => none
    | .refused _ => none

/-- The 64 ROUND commands of a stepped block (45_compression.md R201). `none` if one does not answer a next state. -/
def runCommands : List Instr → State → Option State
  | [], s => some s
  | i :: rest, s =>
    match exec i s with
    | .next s' => runCommands rest s'
    | .fault _ => none
    | .refused _ => none

/-! ### The witness -/

/-- Every equation of the witness holds (46_verifier.md R228). -/
def WitnessValid (s : State) : Prop := ∀ e : Equation, e.holds s = true

/-- One element of the witness memory (46_verifier.md R220). -/
inductive WitnessElement where
  | w (t : Fin 64)
  | t1 (t : Fin 64)
  | t2 (t : Fin 64)
  | wr (t : Fin 64) (k : Fin 8)
  | hin (i : Fin 8)
  | hout (i : Fin 8)
  deriving DecidableEq, Repr

/-- The witness with one element replaced. -/
def WitnessElement.put (e : WitnessElement) (v : Word) (s : State) : State :=
  match e with
  | .w t => { s with w := s.w.set t.val v }
  | .t1 t => { s with t1 := s.t1.set t.val v }
  | .t2 t => { s with t2 := s.t2.set t.val v }
  | .wr t k => { s with wr := s.wr.set t.val (s.wr[t].set k.val v) }
  | .hin i => { s with hin := s.hin.set i.val v }
  | .hout i => { s with hout := s.hout.set i.val v }

/-- The value of one element of the witness. -/
def WitnessElement.get (e : WitnessElement) (s : State) : Word :=
  match e with
  | .w t => s.w[t]
  | .t1 t => s.t1[t]
  | .t2 t => s.t2[t]
  | .wr t k => s.wr[t][k]
  | .hin i => s.hin[i]
  | .hout i => s.hout[i]

/-! ### The invariant of reachable states -/

/-- What holds of every reachable state: the relations between FSM, INBLOCK, PATH, the counters and H that the rules
of 10_state.md, 43_padding.md and 45_compression.md give. -/
structure State.Inv (s : State) : Prop where
  /-- INBLOCK = 1 implies PATH = WORD and FSM != FINALIZED (45_compression.md R192, 43_padding.md R162). -/
  stepping : s.inblock = true → s.path = .word ∧ s.fsm ≠ .finalized
  /-- PATH = NONE means no block or message command has succeeded (10_state.md R48). -/
  untouched : s.path = .none → s.fsm = .initialized
  /-- FSM = INITIALIZED: no block is folded (10_state.md R27, R46; 45_compression.md R197). -/
  initial : s.fsm = .initialized → s.h = Rom.IV ∧ s.blkidx = 0
  /-- Only the bit path counts message bits (10_state.md R30). -/
  counted : s.path ≠ .bit → s.len = 0
  /-- VMASK means nothing on the bit path and stays clear (43_padding.md R162). -/
  noMask : s.path = .bit → s.vmask = 0
  /-- On the bit path every 512 bits pushed are one folded block (43_padding.md R164). -/
  filled : s.path = .bit → s.fsm ≠ .finalized →
    s.blkidx = BitVec.ofNat 32 (s.len.toNat / 512) ∧ (s.fsm = .initialized ↔ s.len.toNat < 512)
  /-- t rests at 0 before the first block and at 64 after a block (10_state.md R28). -/
  resting : s.inblock = false → (s.fsm = .initialized → s.t.val = 0) ∧ (s.fsm = .processing → s.t.val = 64)
  /-- CHKOK and CHKIDX tell the same verdict (46_verifier.md R225). -/
  verdict : s.chkok = true ↔ s.chkidx = 0xFFFFFFFF

end Sys2Proof.Machine
end

