-- ==== Sys2Proof/Certificates/Slice0/Obligations.lean ====
section
/-! DEFINITION. The statements about the machine, each from numbered rules of spec/ (OBLIGATIONS.json says which). -/

open Sys2Proof Sys2Proof.Machine

/-! ### The command word (30_encoding.md) -/

/-- 30_encoding.md R101, R102: decoding what the assembler encodes gives the command back, every operand included. -/
def Obligations.DecodeOfEncode : Prop :=
  ∀ i : Instr, i.WellFormed → decodeCmd (encode i) = .ok i

/-- 30_encoding.md R98: a word that decodes is the encoding of one well-formed command, and of no other. -/
def Obligations.EncodeOfDecode : Prop :=
  ∀ (c : Word) (i : Instr), decodeCmd c = .ok i →
    i.WellFormed ∧ encode i = c ∧ ∀ j : Instr, j.WellFormed → encode j = c → j = i

/-- 30_encoding.md R98: exactly the words of (a) to (d) are illegal, and an illegal word, when the engine executes
it, records ILLEGAL_CMD (if no error is recorded yet), clears BUSY and changes nothing else. -/
def Obligations.IllegalWordsExactly : Prop :=
  (∀ c : Word,
    let opc := c.toNat % 256
    let imm := c.toNat / 256 % 32
    let res0 := c.toNat / 8192 % 8
    let l := c.toNat / 65536 % 2
    let res1 := c.toNat / 131072
    (∃ why, decodeCmd c = .error why) ↔
      ((0x03 ≤ opc ∧ opc ≤ 0x0F) ∨ (0x16 ≤ opc ∧ opc ≤ 0x1F) ∨ (0x22 ≤ opc ∧ opc ≤ 0x3F) ∨ opc = 0x47 ∨
          opc = 0x4A ∨ opc = 0x4B ∨ (0x52 ≤ opc ∧ opc ≤ 0xFF)) ∨
        (res0 ≠ 0 ∨ res1 ≠ 0) ∨
        (imm ≠ 0 ∧ opc ∉ [0x20, 0x48, 0x49]) ∨
        (l ≠ 0 ∧ opc ∉ [0x10, 0x14])) ∧
  ∀ (s : State) (c : Word) (why : Illegal), s.pending = some c → decodeCmd c = .error why →
    engineStep s = .next { s with
      pending := none, errcode := if s.errcode = .noError then .illegalCmd else s.errcode }

/-- 30_encoding.md R97: a word decodes to a row's command iff its masked bits equal the row's match word; at most one
row matches a word. -/
def Obligations.MaskAndMatchSelectRow : Prop :=
  (∀ (c : Word) (r : Row), r ∈ opcodeRows →
    ((c &&& (match r.format with
        | .plain => 0xFFFFFFFF#32
        | .shift => 0xFFFFE0FF#32
        | .count => 0xFFFFE0FF#32
        | .flag => 0xFFFEFFFF#32)) = r.opc.zeroExtend 32 ↔
      ∃ i, decodeCmd c = .ok i ∧ i.row = r)) ∧
  ∀ (c : Word) (r r' : Row), r ∈ opcodeRows → r' ∈ opcodeRows → r.selects c = true → r'.selects c = true → r = r'

/-- 30_encoding.md R105: the encoding examples decode to the commands they stand for, and the illegal examples do not
decode. -/
def Obligations.SampleWordsDecode : Prop :=
  decodeCmd 0x00000000 = .ok .nop ∧ decodeCmd 0x00000001 = .ok .init ∧
  decodeCmd 0x00000010 = .ok (.compress false) ∧ decodeCmd 0x00010010 = .ok (.compress true) ∧
  decodeCmd 0x00010014 = .ok (.feedfwd true) ∧ decodeCmd 0x00000748 = .ok (.rotr 7) ∧
  decodeCmd 0x00000A49 = .ok (.shr 10) ∧ decodeCmd 0x00000048 = .ok (.rotr 0) ∧
  decodeCmd 0x00000020 = .ok (.msgPush 1) ∧ decodeCmd 0x00001720 = .ok (.msgPush 24) ∧
  decodeCmd 0x00001F20 = .ok (.msgPush 32) ∧
  decodeCmd 0x00000003 = .error .opcode ∧ decodeCmd 0x00000111 = .error .immediate ∧
  decodeCmd 0x00010048 = .error .lastFlag ∧ decodeCmd 0x00002000 = .error .reserved ∧
  decodeCmd 0x80000000 = .error .reserved

/-! ### The step (20_memory.md R71) -/

/-- 20_memory.md R71: with a command pending whose word decodes to `i`, the engine's step is `exec` of `i` on the
state with PENDING cleared; with none pending it is not enabled and changes nothing. When the step is the engine's is
the model's choice (log 4, DESIGN CHOICE): on an empty agenda, and on an engine move, which is taken off the agenda
also where no command is pending. The order "cleared, then executed" is the model's presentation of one indivisible
transition (log 9, DESIGN CHOICE). -/
def Obligations.StepExecutesPendingCommand : Prop :=
  (∀ (s : State) (c : Word) (i : Instr), s.pending = some c → decodeCmd c = .ok i →
    (s.agenda = [] → step s = exec i { s with pending := none }) ∧
    ∀ rest, s.agenda = .engine :: rest → step s = exec i { s with pending := none, agenda := rest }) ∧
  ∀ s : State, s.pending = none →
    (s.agenda = [] → step s = .next s) ∧
    ∀ rest, s.agenda = .engine :: rest → step s = .next { s with agenda := rest }

/-- 70_reset_and_hazards.md R288: every command completes: whatever word is pending, the engine's step answers a next
state with BUSY = 0. -/
def Obligations.EveryCommandCompletes : Prop :=
  ∀ (s : State) (c : Word), s.pending = some c →
    ∃ t, engineStep s = .next t ∧ t.busy = false ∧ t.agenda = s.agenda ∧ t.rdata = s.rdata ∧ t.draws = s.draws

/-! ### Control commands (40_control.md) -/

/-- 40_control.md R111: NOP is the word 0 and changes nothing, in every state; BUSY goes 1 then 0 as for every
command. -/
def Obligations.NopChangesNothing : Prop :=
  decodeCmd 0x00000000 = .ok .nop ∧ (∀ s : State, exec .nop s = .next s) ∧
  ∀ s : State, s.pending = some 0x00000000 → s.busy = true ∧ engineStep s = .next { s with pending := none }

/-- 40_control.md R112: INIT, in every state: H = IV, BLKIDX, t, INBLOCK, L, VMASK = 0, PATH = NONE and
FSM = INITIALIZED; nothing else changes (CTRL, ERRCODE, BITS, X, Y, Z, R, CARRY, CHKIDX, CHKOK, WK, M and the witness
among it). -/
def Obligations.InitStartsMessage : Prop :=
  decodeCmd 0x00000001 = .ok .init ∧
  ∀ s : State, ∃ t, exec .init s = .next t ∧
    (∀ i : Fin 8, t.h[i] = Rom.IV[i]) ∧
    t = { s with
      h := t.h, blkidx := 0, t := 0, inblock := false, len := 0, vmask := 0, path := .none, fsm := .initialized }

/-- 40_control.md R113: CLRERR, in every state: ERRCODE = 0, so STATUS.ERR = 0, and nothing else changes. -/
def Obligations.ClrerrClearsError : Prop :=
  decodeCmd 0x00000002 = .ok .clrerr ∧
  ∀ s : State, ∃ t, exec .clrerr s = .next t ∧ t = { s with errcode := .noError } ∧ t.err = false

/-! ### Datapath commands (41_datapath.md) -/

/-- 41_datapath.md R122: ADD, in every state: R and CARRY are the exact sum X + Y split at 2^32; CARRY is 0 or 1;
nothing else changes. -/
def Obligations.AddIsExactSum : Prop :=
  decodeCmd 0x00000040 = .ok .add ∧
  ∀ s : State, ∃ r c, exec .add s = .next { s with r := r, carry := c } ∧
    r.toNat + 2 ^ 32 * c.toNat = s.x.toNat + s.y.toNat ∧ c.toNat ≤ 1

/-- 41_datapath.md R123: ADD3, in every state: R and CARRY are the exact sum X + Y + Z split at 2^32; CARRY is 0, 1
or 2; nothing else changes. -/
def Obligations.Add3IsExactSum : Prop :=
  decodeCmd 0x00000041 = .ok .add3 ∧
  ∀ s : State, ∃ r c, exec .add3 s = .next { s with r := r, carry := c } ∧
    r.toNat + 2 ^ 32 * c.toNat = s.x.toNat + s.y.toNat + s.z.toNat ∧ c.toNat ≤ 2

/-- 41_datapath.md R124 to R128: XOR, AND, NOT, CH and MAJ, in every state, bit by bit: CH takes Y[i] where X[i] = 1
and Z[i] where X[i] = 0, MAJ takes the majority; nothing but R changes. -/
def Obligations.LogicUnitsBitwise : Prop :=
  decodeCmd 0x00000042 = .ok .xor ∧ decodeCmd 0x00000043 = .ok .and ∧ decodeCmd 0x00000044 = .ok .not ∧
  decodeCmd 0x00000045 = .ok .ch ∧ decodeCmd 0x00000046 = .ok .maj ∧
  ∀ s : State,
    (∃ r, exec .xor s = .next { s with r := r } ∧
      ∀ i < 32, r.getLsbD i = (s.x.getLsbD i != s.y.getLsbD i)) ∧
    (∃ r, exec .and s = .next { s with r := r } ∧
      ∀ i < 32, r.getLsbD i = (s.x.getLsbD i && s.y.getLsbD i)) ∧
    (∃ r, exec .not s = .next { s with r := r } ∧ r.toNat = 0xFFFFFFFF - s.x.toNat) ∧
    (∃ r, exec .ch s = .next { s with r := r } ∧
      ∀ i < 32, r.getLsbD i = (if s.x.getLsbD i then s.y.getLsbD i else s.z.getLsbD i)) ∧
    ∃ r, exec .maj s = .next { s with r := r } ∧
      ∀ i < 32, r.getLsbD i =
        decide ((s.x.getLsbD i).toNat + (s.y.getLsbD i).toNat + (s.z.getLsbD i).toNat ≥ 2)

/-- 41_datapath.md R130: ROTR sh for every amount 0..31, in every state: its word is `0x48 | (sh << 8)`; bit i of R
is bit (i + sh) mod 32 of X, so sh = 0 gives X, sh = 31 rotates left by 1, and the number of 1 bits is kept; nothing
but R changes. -/
def Obligations.RotrRotatesRight : Prop :=
  ∀ (s : State) (sh : Nat), sh ≤ 31 →
    decodeCmd (0x48#32 ||| (BitVec.ofNat 32 sh <<< 8)) = .ok (.rotr sh) ∧
    ∃ r, exec (.rotr sh) s = .next { s with r := r } ∧
      (∀ i < 32, r.getLsbD i = s.x.getLsbD ((i + sh) % 32)) ∧
      ((List.range 32).filter r.getLsbD).length = ((List.range 32).filter s.x.getLsbD).length

/-- 41_datapath.md R131: SHR sh for every amount 0..31, in every state: its word is `0x49 | (sh << 8)`;
R = floor(X / 2^sh); nothing but R changes. -/
def Obligations.ShrDividesByPower : Prop :=
  ∀ (s : State) (sh : Nat), sh ≤ 31 →
    decodeCmd (0x49#32 ||| (BitVec.ofNat 32 sh <<< 8)) = .ok (.shr sh) ∧
    ∃ r, exec (.shr sh) s = .next { s with r := r } ∧ r.toNat = s.x.toNat / 2 ^ sh

/-- 41_datapath.md R132 to R135: BSIG0, BSIG1, SSIG0 and SSIG1, in every state, bit by bit: each rotation takes bit
(i + n) mod 32 of X, each shift bit i + n or 0; nothing but R changes. -/
def Obligations.ShaFunctionUnitsBitwise : Prop :=
  decodeCmd 0x0000004C = .ok .bsig0 ∧ decodeCmd 0x0000004D = .ok .bsig1 ∧ decodeCmd 0x0000004E = .ok .ssig0 ∧
  decodeCmd 0x0000004F = .ok .ssig1 ∧
  ∀ s : State,
    let rot := fun n i => s.x.getLsbD ((i + n) % 32)
    let sh := fun n i => decide (i + n < 32) && s.x.getLsbD (i + n)
    (∃ r, exec .bsig0 s = .next { s with r := r } ∧
      ∀ i < 32, r.getLsbD i = (rot 2 i ^^ rot 13 i ^^ rot 22 i)) ∧
    (∃ r, exec .bsig1 s = .next { s with r := r } ∧
      ∀ i < 32, r.getLsbD i = (rot 6 i ^^ rot 11 i ^^ rot 25 i)) ∧
    (∃ r, exec .ssig0 s = .next { s with r := r } ∧
      ∀ i < 32, r.getLsbD i = (rot 7 i ^^ rot 18 i ^^ sh 3 i)) ∧
    ∃ r, exec .ssig1 s = .next { s with r := r } ∧
      ∀ i < 32, r.getLsbD i = (rot 17 i ^^ rot 19 i ^^ sh 10 i)

/-- 41_datapath.md R120, as the host sees it: a datapath or codec command leaves every offset of the register space
reading as before except R and, for ADD and ADD3, CARRY; and it raises no error and leaves the rest of the state. -/
def Obligations.DatapathTouchesOnlyResult : Prop :=
  ∀ (i : Instr) (s : State),
    i ∈ [.add, .add3, .xor, .and, .not, .ch, .maj, .bsig0, .bsig1, .ssig0, .ssig1, .pack, .unpack] ∨
      (∃ sh, i = .rotr sh) ∨ (∃ sh, i = .shr sh) →
    ∃ t, exec i s = .next t ∧ t = { s with r := t.r, carry := t.carry } ∧
      (i ≠ .add → i ≠ .add3 → t.carry = s.carry) ∧
      ∀ a : BitVec 12, decodeOffset a.toNat ≠ .r → decodeOffset a.toNat ≠ .carry →
        targetValue t (decodeOffset a.toNat) = targetValue s (decodeOffset a.toNat)

/-- 41_datapath.md R137: the result of a datapath command depends only on X, Y, Z and the amount: two states that
agree on those give the same R, and for ADD and ADD3 the same CARRY, whatever else differs. -/
def Obligations.DatapathDependsOnOperandsOnly : Prop :=
  ∀ (i : Instr) (s s' : State),
    i ∈ [.add, .add3, .xor, .and, .not, .ch, .maj, .bsig0, .bsig1, .ssig0, .ssig1] ∨
      (∃ sh, i = .rotr sh) ∨ (∃ sh, i = .shr sh) →
    s.x = s'.x → s.y = s'.y → s.z = s'.z →
    ∃ t t', exec i s = .next t ∧ exec i s' = .next t' ∧ t.r = t'.r ∧
      (i = .add ∨ i = .add3 → t.carry = t'.carry)

/-! ### Codec (42_codec.md) -/

/-- 42_codec.md R152, R153: PACK and UNPACK, in every state: R = X for ENDIAN = 0, and for ENDIAN = 1 bit i of R is
bit 31 - i of X; nothing but R changes. -/
def Obligations.CodecConvertsLaneOrder : Prop :=
  decodeCmd 0x00000050 = .ok .pack ∧ decodeCmd 0x00000051 = .ok .unpack ∧
  ∀ s : State, ∃ r,
    exec .pack s = .next { s with r := r } ∧ exec .unpack s = .next { s with r := r } ∧
    (s.endian = false → r = s.x) ∧
    (s.endian = true → ∀ i < 32, r.getLsbD i = s.x.getLsbD (31 - i))

/-- 42_codec.md R155: PACK and UNPACK compute the same function, and applying one to the other's result gives the
operand back, in each mode. -/
def Obligations.CodecIsInvolution : Prop :=
  ∀ (e : Bool) (x : Word),
    packWord e x = unpackWord e x ∧ unpackWord e (packWord e x) = x ∧ packWord e (unpackWord e x) = x

/-! ### Padding engine and bit path (43_padding.md) -/

/-- 43_padding.md R161: setbit writes one message bit of the block in the big-endian packing and changes no other bit
of M and nothing else. -/
def Obligations.SetbitWritesOneBit : Prop :=
  ∀ (p : Fin 512) (v : Bool) (s : State),
    (∀ q : Fin 512, blockBit (setbit p v s).m q = if q = p then v else blockBit s.m q) ∧
    setbit p v s = { s with m := (setbit p v s).m }

/-- 43_padding.md R163: a MSG_PUSH of n bits that passes its checks and does not fill the block completes, in any
state: bit number i of BITS in the lane order of ENDIAN lands at message bit P + i, every other bit of M stays, L
grows by n, PATH = BIT, VMASK is cleared if PATH was NONE, and nothing else changes. -/
def Obligations.PushWithoutFill : Prop :=
  ∀ (s : State) (n : Nat), 1 ≤ n → n ≤ 32 → s.fsm ≠ .finalized → s.path ≠ .word →
    s.len.toNat + n ≤ 2 ^ 64 - 1 → s.len.toNat % 512 + n < 512 →
    ∃ m, exec (.msgPush n) s = .next { s with
        m := m, len := s.len + BitVec.ofNat 64 n, path := .bit, vmask := if s.path = .none then 0 else s.vmask } ∧
      ∀ p : Fin 512, blockBit m p =
        if s.len.toNat % 512 ≤ p.val ∧ p.val < s.len.toNat % 512 + n then
          (if s.endian then s.bits.getLsbD (p.val - s.len.toNat % 512)
            else s.bits.getLsbD (31 - (p.val - s.len.toNat % 512)))
        else blockBit s.m p

/-- 43_padding.md R163, R164: a MSG_PUSH of n bits that passes its checks and fills the block completes, in any
state: the block filled by the bits up to message bit 511 is folded into H as a non-last block, BLKIDX grows by 1,
FSM = PROCESSING, t = 64, the remaining bits start the next block over the filled one, L grows by n, and CTRL, BITS,
INBLOCK, ERRCODE and the datapath registers stay. -/
def Obligations.PushWithFill : Prop :=
  ∀ (s : State) (n : Nat), 1 ≤ n → n ≤ 32 → s.fsm ≠ .finalized → s.path ≠ .word →
    s.len.toNat + n ≤ 2 ^ 64 - 1 → s.len.toNat % 512 + n ≥ 512 →
    let P := s.len.toNat % 512
    let bitOf := fun i => if s.endian then s.bits.getLsbD i else s.bits.getLsbD (31 - i)
    ∃ (t : State) (filled : Vector Word 16), exec (.msgPush n) s = .next t ∧
      (∀ p : Fin 512, blockBit filled p = if p.val < P then blockBit s.m p else bitOf (p.val - P)) ∧
      t.h = foldBlock s.h filled ∧ t.hin = s.h ∧ t.hout = t.h ∧ t.wk = workingAfter (scheduleOf filled) s.h ∧
      t.w = scheduleOf filled ∧ t.blkidx = s.blkidx + 1 ∧ t.fsm = .processing ∧ t.t.val = 64 ∧
      (∀ p : Fin 512, blockBit t.m p =
        if p.val < P + n - 512 then bitOf (512 - P + p.val) else blockBit filled p) ∧
      t.len = s.len + BitVec.ofNat 64 n ∧ t.path = .bit ∧ t.vmask = (if s.path = .none then 0 else s.vmask) ∧
      t = { s with
        h := t.h, hin := t.hin, hout := t.hout, wk := t.wk, w := t.w, t1 := t.t1, t2 := t.t2, wr := t.wr,
        blkidx := t.blkidx, fsm := t.fsm, t := t.t, m := t.m, len := t.len, path := t.path, vmask := t.vmask }

/-- 43_padding.md R163, R164: MSG_PUSH appends its bits to the message the bit path holds, whatever the operands and
the lane order; blocks are folded in order as they fill. -/
def Obligations.PushAppendsToMessage : Prop :=
  ∀ (s : State) (msg : List Bool) (n : Nat), HoldsMessage s msg → 1 ≤ n → n ≤ 32 →
    msg.length + n ≤ 2 ^ 64 - 1 →
    ∃ t, exec (.msgPush n) s = .next t ∧ HoldsMessage t (msg ++ pushedBits n s)

/-- 43_padding.md R166: a MSG_FINAL with PADBYP = 0 and P <= 447 completes, in any state that passes its check: the
block of the P message bits, one 1 bit, zeros up to bit 447, and the 64-bit length is folded as the last block; L,
INBLOCK, ERRCODE, CTRL and the datapath registers stay. -/
def Obligations.FinalPadsInOneBlock : Prop :=
  ∀ s : State, s.fsm ≠ .finalized → s.path ≠ .word → s.padbyp = false → s.len.toNat % 512 ≤ 447 →
    ∃ t, exec .msgFinal s = .next t ∧
      (∀ p : Fin 512, p.val < 448 → blockBit t.m p =
        if p.val < s.len.toNat % 512 then blockBit s.m p else decide (p.val = s.len.toNat % 512)) ∧
      t.m[14] = s.len.extractLsb' 32 32 ∧ t.m[15] = s.len.extractLsb' 0 32 ∧
      t.h = foldBlock s.h t.m ∧ t.hin = s.h ∧ t.hout = t.h ∧ t.wk = workingAfter (scheduleOf t.m) s.h ∧
      t.w = scheduleOf t.m ∧ t.blkidx = s.blkidx + 1 ∧ t.fsm = .finalized ∧ t.t.val = 64 ∧ t.path = .bit ∧
      t.vmask = (if s.path = .none then 0 else s.vmask) ∧
      t = { s with
        h := t.h, hin := t.hin, hout := t.hout, wk := t.wk, w := t.w, t1 := t.t1, t2 := t.t2, wr := t.wr,
        blkidx := t.blkidx, fsm := t.fsm, t := t.t, m := t.m, path := t.path, vmask := t.vmask }

/-- 43_padding.md R166: a MSG_FINAL with PADBYP = 0 and P >= 448 completes with two blocks: the first holds the
message bits, one 1 bit and zeros, the second 448 zeros and the length; both are folded, the second as the last. -/
def Obligations.FinalPadsInTwoBlocks : Prop :=
  ∀ s : State, s.fsm ≠ .finalized → s.path ≠ .word → s.padbyp = false → s.len.toNat % 512 ≥ 448 →
    ∃ (t : State) (first : Vector Word 16), exec .msgFinal s = .next t ∧
      (∀ p : Fin 512, blockBit first p =
        if p.val < s.len.toNat % 512 then blockBit s.m p else decide (p.val = s.len.toNat % 512)) ∧
      (∀ j : Fin 14, t.m[j.val] = 0) ∧ t.m[14] = s.len.extractLsb' 32 32 ∧ t.m[15] = s.len.extractLsb' 0 32 ∧
      t.h = foldBlock (foldBlock s.h first) t.m ∧ t.hin = foldBlock s.h first ∧ t.hout = t.h ∧
      t.wk = workingAfter (scheduleOf t.m) (foldBlock s.h first) ∧
      t.w = scheduleOf t.m ∧ t.blkidx = s.blkidx + 2 ∧ t.fsm = .finalized ∧ t.t.val = 64 ∧ t.path = .bit ∧
      t.vmask = (if s.path = .none then 0 else s.vmask) ∧
      t = { s with
        h := t.h, hin := t.hin, hout := t.hout, wk := t.wk, w := t.w, t1 := t.t1, t2 := t.t2, wr := t.wr,
        blkidx := t.blkidx, fsm := t.fsm, t := t.t, m := t.m, path := t.path, vmask := t.vmask }

/-- 43_padding.md R169: with PADBYP = 1 MSG_FINAL requires L mod 512 = 0 and raises LENGTH_MISMATCH otherwise,
changing no other state; when it succeeds it sets PATH = BIT and FSM = FINALIZED, clears VMASK if PATH was NONE, and
compresses nothing. -/
def Obligations.FinalBypassed : Prop :=
  ∀ s : State, s.fsm ≠ .finalized → s.path ≠ .word → s.padbyp = true →
    (s.len.toNat % 512 = 0 → exec .msgFinal s = .next { s with
      path := .bit, vmask := if s.path = .none then 0 else s.vmask, fsm := .finalized }) ∧
    (s.len.toNat % 512 ≠ 0 → exec .msgFinal s = .next { s with
      errcode := if s.errcode = .noError then .lengthMismatch else s.errcode })

/-- 43_padding.md R167, 45_compression.md R198: ending the message the bit path holds gives, in H, the digest of that
message: pad, cut into blocks, fold. -/
def Obligations.FinalGivesMessageDigest : Prop :=
  ∀ (s : State) (msg : List Bool), HoldsMessage s msg → s.padbyp = false →
    ∃ t, exec .msgFinal s = .next t ∧ t.h = sha256 msg ∧ t.fsm = .finalized ∧ t.len = s.len ∧
      t.errcode = s.errcode

/-- 43_padding.md R168: the padded message of L bits has exactly 512 * (floor((L + 64) / 512) + 1) bits, which is
floor(L / 512) + 1 blocks when L mod 512 <= 447 and floor(L / 512) + 2 otherwise, and ceil((L + 65) / 512). -/
def Obligations.PaddedBlockCount : Prop :=
  ∀ msg : List Bool,
    (paddedMessage msg).length = 512 * ((msg.length + 64) / 512 + 1) ∧
    (msg.length + 64) / 512 + 1 = (msg.length + 65 + 511) / 512 ∧
    (msg.length + 64) / 512 + 1 = (if msg.length % 512 ≤ 447 then msg.length / 512 + 1 else msg.length / 512 + 2)

/-! ### Message scheduler (44_scheduler.md) -/

/-- 44_scheduler.md R180, R181: EXPAND, when its checks pass: W[0..15] are the block words, W[16..63] obey the
recurrence on the new W, VMASK = 0, PATH = WORD; nothing else changes. Out of sequence it raises SEQUENCE, else with
VMASK != 0xFFFF it raises MALFORMED_BLOCK. -/
def Obligations.ExpandWritesSchedule : Prop :=
  decodeCmd 0x00000011 = .ok .expand ∧
  (∀ s : State, s.fsm ≠ .finalized → s.path ≠ .bit → s.inblock = false → s.vmask = 0xFFFF →
    ∃ w, exec .expand s = .next { s with w := w, vmask := 0, path := .word } ∧
      (∀ j : Fin 16, w[j.val] = s.m[j]) ∧
      ∀ i : Fin 48, (w[i.val + 16]).toNat =
        ((ssig1 w[i.val + 14]).toNat + (w[i.val + 9]).toNat + (ssig0 w[i.val + 1]).toNat + (w[i.val]).toNat) % 2 ^ 32) ∧
  (∀ s : State, s.fsm = .finalized ∨ s.path = .bit ∨ s.inblock = true → exec .expand s = .next { s with
    errcode := if s.errcode = .noError then .sequence else s.errcode }) ∧
  ∀ s : State, s.fsm ≠ .finalized → s.path ≠ .bit → s.inblock = false → s.vmask ≠ 0xFFFF →
    exec .expand s = .next { s with errcode := if s.errcode = .noError then .malformedBlock else s.errcode }

/-! ### Compression engine (45_compression.md) -/

/-- 45_compression.md R193: RSTART, when its check passes: WK = HIN = H, t = 0, INBLOCK = 1, PATH = WORD; nothing
else changes. VMASK is not read. Out of sequence it raises SEQUENCE. -/
def Obligations.RstartLoadsWorking : Prop :=
  decodeCmd 0x00000012 = .ok .rstart ∧
  (∀ s : State, s.fsm ≠ .finalized → s.path ≠ .bit → s.inblock = false →
    exec .rstart s = .next { s with wk := s.h, hin := s.h, t := 0, inblock := true, path := .word }) ∧
  ∀ s : State, s.fsm = .finalized ∨ s.path = .bit ∨ s.inblock = true → exec .rstart s = .next { s with
    errcode := if s.errcode = .noError then .sequence else s.errcode }

/-- 45_compression.md R191, R192: ROUND, when INBLOCK = 1 and t < 64: T1 and T2 are the exact sums modulo 2^32 on the
old working registers, WK shifts, row t of T1, T2 and WR receives the values, every other row stays, t grows by 1;
nothing else changes. With INBLOCK = 0 or t = 64 it raises SEQUENCE. -/
def Obligations.RoundShiftsWorking : Prop :=
  decodeCmd 0x00000013 = .ok .round ∧
  (∀ (s : State) (ht : s.t.val < 64), s.inblock = true →
    ∃ (t1v t2v : Word) (u : State), exec .round s = .next u ∧
      t1v.toNat = ((s.wk[7]).toNat + (bsig1 s.wk[4]).toNat + (chFn s.wk[4] s.wk[5] s.wk[6]).toNat +
        (Rom.K[s.t.val]).toNat + (s.w[s.t.val]).toNat) % 2 ^ 32 ∧
      t2v.toNat = ((bsig0 s.wk[0]).toNat + (majFn s.wk[0] s.wk[1] s.wk[2]).toNat) % 2 ^ 32 ∧
      u.wk = #v[t1v + t2v, s.wk[0], s.wk[1], s.wk[2], s.wk[3] + t1v, s.wk[4], s.wk[5], s.wk[6]] ∧
      (∀ j : Fin 64, u.t1[j] = if j.val = s.t.val then t1v else s.t1[j]) ∧
      (∀ j : Fin 64, u.t2[j] = if j.val = s.t.val then t2v else s.t2[j]) ∧
      (∀ j : Fin 64, u.wr[j] = if j.val = s.t.val then u.wk else s.wr[j]) ∧
      u.t.val = s.t.val + 1 ∧
      u = { s with wk := u.wk, t1 := u.t1, t2 := u.t2, wr := u.wr, t := u.t }) ∧
  ∀ s : State, s.inblock = false ∨ s.t.val = 64 → exec .round s = .next { s with
    errcode := if s.errcode = .noError then .sequence else s.errcode }

/-- 45_compression.md R194: FEEDFWD and FEEDFWD.L, when INBLOCK = 1 and t = 64: H[i] = H[i] + WK[i] modulo 2^32,
HOUT = H, BLKIDX + 1 modulo 2^32, INBLOCK = 0, FSM as the flag says; nothing else changes (t stays 64). With
INBLOCK = 0 or t != 64 they raise SEQUENCE. -/
def Obligations.FeedfwdChains : Prop :=
  decodeCmd 0x00000014 = .ok (.feedfwd false) ∧ decodeCmd 0x00010014 = .ok (.feedfwd true) ∧
  (∀ (s : State) (last : Bool), s.inblock = true → s.t.val = 64 →
    ∃ h : Vector Word 8, exec (.feedfwd last) s = .next { s with
        h := h, hout := h, blkidx := s.blkidx + 1, inblock := false,
        fsm := if last then .finalized else .processing } ∧
      ∀ i : Fin 8, (h[i]).toNat = ((s.h[i]).toNat + (s.wk[i]).toNat) % 2 ^ 32) ∧
  ∀ (s : State) (last : Bool), s.inblock = false ∨ s.t.val ≠ 64 → exec (.feedfwd last) s = .next { s with
    errcode := if s.errcode = .noError then .sequence else s.errcode }

/-- 45_compression.md R195, R196: COMPRESS and COMPRESS.L, when the checks pass: H is the fold of the block M into H,
W, WK, HIN and HOUT are those of that block, T1, T2 and WR are what its rounds compute (every round equation holds from
HIN on), BLKIDX + 1, t = 64, FSM as the flag says, VMASK = 0, PATH = WORD; nothing else changes (M, L and INBLOCK
stay). Out of sequence it raises SEQUENCE, else with
VMASK != 0xFFFF it raises MALFORMED_BLOCK. -/
def Obligations.CompressFoldsBlock : Prop :=
  decodeCmd 0x00000010 = .ok (.compress false) ∧ decodeCmd 0x00010010 = .ok (.compress true) ∧
  (∀ (s : State) (last : Bool), s.fsm ≠ .finalized → s.path ≠ .bit → s.inblock = false → s.vmask = 0xFFFF →
    ∃ t, exec (.compress last) s = .next t ∧ t.h = foldBlock s.h s.m ∧ t.hout = t.h ∧ t.hin = s.h ∧
      t.wk = workingAfter (scheduleOf s.m) s.h ∧ t.w = scheduleOf s.m ∧ t.blkidx = s.blkidx + 1 ∧ t.t.val = 64 ∧
      t.fsm = (if last then .finalized else .processing) ∧ t.vmask = 0 ∧ t.path = .word ∧
      (∀ (r : Fin 64) (j : Fin 10), (Equation.round r j).holds t = true) ∧
      t = { s with
        h := t.h, hin := t.hin, hout := t.hout, wk := t.wk, w := t.w, t1 := t.t1, t2 := t.t2, wr := t.wr,
        blkidx := t.blkidx, t := t.t, fsm := t.fsm, vmask := t.vmask, path := t.path }) ∧
  (∀ (s : State) (last : Bool), s.fsm = .finalized ∨ s.path = .bit ∨ s.inblock = true →
    exec (.compress last) s = .next { s with errcode := if s.errcode = .noError then .sequence else s.errcode }) ∧
  ∀ (s : State) (last : Bool), s.fsm ≠ .finalized → s.path ≠ .bit → s.inblock = false → s.vmask ≠ 0xFFFF →
    exec (.compress last) s = .next { s with
      errcode := if s.errcode = .noError then .malformedBlock else s.errcode }

/-- 45_compression.md R201: EXPAND, RSTART, 64 times ROUND and FEEDFWD reach exactly the state that COMPRESS with the
same flag reaches, whenever COMPRESS's checks pass. -/
def Obligations.SteppedBlockEqualsCompress : Prop :=
  ∀ (s : State) (last : Bool), s.fsm ≠ .finalized → s.path ≠ .bit → s.inblock = false → s.vmask = 0xFFFF →
    ∃ t, exec (.compress last) s = .next t ∧
      runCommands ([.expand, .rstart] ++ List.replicate 64 .round ++ [.feedfwd last]) s = some t

/-- 45_compression.md R198, 70_reset_and_hazards.md R275: on the word path the blocks of a message, compressed in
order from H = IV, leave their fold in H, FINALIZED, with BLKIDX counting them. -/
def Obligations.WordPathGivesDigest : Prop :=
  ∀ (blks : List (Vector Word 16)) (s : State), blks ≠ [] → s.fsm ≠ .finalized → s.path ≠ .bit →
    s.inblock = false → s.h = Rom.IV →
    ∃ t, compressAll blks s = some t ∧ t.h = digestOf blks ∧ t.fsm = .finalized ∧
      t.blkidx = s.blkidx + BitVec.ofNat 32 blks.length

/-- 45_compression.md R203, 95_test_vectors.md S1: the padded block of "abc" compressed from H = IV gives the digest
the source records. -/
def Obligations.AbcDigest : Prop :=
  foldBlock Rom.IV #v[0x61626380, 0, 0, 0, 0, 0, 0, 0, 0, 0, 0, 0, 0, 0, 0, 0x00000018] =
    #v[0xba7816bf, 0x8f01cfea, 0x414140de, 0x5dae2223, 0xb00361a3, 0x96177a9c, 0xb410ff61, 0xf20015ad]

/-! ### Constraint verifier (46_verifier.md) -/

/-- 46_verifier.md R224, R225, R226: CHECK completes in every state. If every equation holds, CHKIDX = 0xFFFFFFFF and
CHKOK = 1 and nothing else changes. If some equation is false, CHKIDX is the smallest index of a false one (16..711),
CHKOK = 0, CONSTRAINT_VIOLATION is recorded if no error was, and nothing else changes. -/
def Obligations.CheckFindsFirstFalse : Prop :=
  decodeCmd 0x00000015 = .ok .check ∧
  ∀ s : State,
    (WitnessValid s → exec .check s = .next { s with chkidx := 0xFFFFFFFF, chkok := true }) ∧
    (¬ WitnessValid s → ∃ e : Equation, e.holds s = false ∧ 16 ≤ e.index ∧ e.index ≤ 711 ∧
      (∀ e' : Equation, e'.holds s = false → e.index ≤ e'.index) ∧
      exec .check s = .next { s with
        chkidx := BitVec.ofNat 32 e.index, chkok := false,
        errcode := if s.errcode = .noError then .constraintViolation else s.errcode })

/-- 46_verifier.md R221 to R223: the equations' indices are those of the rules, each index 16..711 belongs to exactly
one equation, and an equation holds iff its two sides are equal as the rules give them. -/
def Obligations.EquationsAreTheRules : Prop :=
  (∀ n, 16 ≤ n → n ≤ 711 → ∃ e : Equation, e.index = n ∧ ∀ e' : Equation, e'.index = n → e' = e) ∧
  (∀ (s : State) (i : Fin 48), (Equation.schedule i).index = 16 + i.val ∧
    ((Equation.schedule i).holds s = true ↔ (s.w[i.val + 16]).toNat =
      ((ssig1 s.w[i.val + 14]).toNat + (s.w[i.val + 9]).toNat + (ssig0 s.w[i.val + 1]).toNat +
        (s.w[i.val]).toNat) % 2 ^ 32)) ∧
  (∀ (s : State) (t : Fin 64) (v : Vector Word 8), v = (if t.val = 0 then s.hin else s.wr[t.val - 1]) →
    (∀ j : Fin 10, (Equation.round t j).index = 64 + 10 * t.val + j.val) ∧
    ((Equation.round t 0).holds s = true ↔ (s.t1[t]).toNat =
      ((v[7]).toNat + (bsig1 v[4]).toNat + (chFn v[4] v[5] v[6]).toNat + (Rom.K[t]).toNat + (s.w[t]).toNat) %
        2 ^ 32) ∧
    ((Equation.round t 1).holds s = true ↔
      (s.t2[t]).toNat = ((bsig0 v[0]).toNat + (majFn v[0] v[1] v[2]).toNat) % 2 ^ 32) ∧
    ((Equation.round t 2).holds s = true ↔
      (s.wr[t][0]).toNat = ((s.t1[t]).toNat + (s.t2[t]).toNat) % 2 ^ 32) ∧
    ((Equation.round t 3).holds s = true ↔ s.wr[t][1] = v[0]) ∧
    ((Equation.round t 4).holds s = true ↔ s.wr[t][2] = v[1]) ∧
    ((Equation.round t 5).holds s = true ↔ s.wr[t][3] = v[2]) ∧
    ((Equation.round t 6).holds s = true ↔
      (s.wr[t][4]).toNat = ((v[3]).toNat + (s.t1[t]).toNat) % 2 ^ 32) ∧
    ((Equation.round t 7).holds s = true ↔ s.wr[t][5] = v[4]) ∧
    ((Equation.round t 8).holds s = true ↔ s.wr[t][6] = v[5]) ∧
    ((Equation.round t 9).holds s = true ↔ s.wr[t][7] = v[6])) ∧
  ∀ (s : State) (i : Fin 8), (Equation.feedForward i).index = 704 + i.val ∧
    ((Equation.feedForward i).holds s = true ↔
      (s.hout[i]).toNat = ((s.hin[i]).toNat + (s.wr[63][i]).toNat) % 2 ^ 32)

/-- 46_verifier.md R228: the engine's witness is valid: after a successful COMPRESS, after a MSG_PUSH that fills a
block, and after a MSG_FINAL that pads, every equation holds. -/
def Obligations.EngineWitnessIsValid : Prop :=
  (∀ (s t : State) (last : Bool), commandError (.compress last) s = none →
    exec (.compress last) s = .next t → WitnessValid t) ∧
  (∀ (s t : State) (n : Nat), n ≤ 32 → commandError (.msgPush n) s = none → fills n s = true →
    exec (.msgPush n) s = .next t → WitnessValid t) ∧
  ∀ s t : State, commandError .msgFinal s = none → s.padbyp = false → exec .msgFinal s = .next t → WitnessValid t

/-- 46_verifier.md R229: changing any single bit of any one element of a valid witness makes an equation false. -/
def Obligations.WitnessIsSensitive : Prop :=
  ∀ (s : State) (e : WitnessElement) (b : Nat), b < 32 → WitnessValid s →
    ¬ WitnessValid (e.put (e.get s ^^^ (1#32 <<< b)) s)

/-! ### Errors (60_exceptions.md) -/

/-- 60_exceptions.md R242, R244, R245: a decoded command raises exactly the error of the table, in that order. A
raised error is recorded if none was, and nothing else changes. A command that raises none leaves ERRCODE alone,
CLRERR (which clears it) and CHECK (which may record a violation) apart. -/
def Obligations.CommandErrorsAreTheTable : Prop :=
  ∀ (i : Instr) (s : State),
    (∀ e, commandError i s = some e →
      exec i s = .next { s with errcode := if s.errcode = .noError then e else s.errcode }) ∧
    (commandError i s = none → i ≠ .clrerr → i ≠ .check → ∃ t, exec i s = .next t ∧ t.errcode = s.errcode)

/-- 60_exceptions.md R243: the first error stays: once an error is recorded, no step but a reset or the execution of
CLRERR changes ERRCODE. -/
def Obligations.FirstErrorStays : Prop :=
  ∀ s t : State, s.errcode ≠ .noError → step s = .next t → (∀ rest, s.agenda ≠ .reset :: rest) →
    ¬ executes .clrerr s → t.errcode = s.errcode

/-! ### Rules of the whole machine -/

/-- 10_state.md R56: the write matrix: a command leaves every state element its row does not name. -/
def Obligations.WriteMatrixHolds : Prop :=
  ∀ (i : Instr) (s t : State) (e : Element), i.WellFormed → exec i s = .next t → mayWrite i s e = false →
    e.same s t

/-- 45_compression.md R199: in FINALIZED the digest is immutable: no step changes H or leaves FINALIZED but a reset or
the execution of INIT. (INBLOCK = 0 in every reachable FINALIZED state: StepKeepsInvariant.) -/
def Obligations.DigestIsImmutable : Prop :=
  ∀ s t : State, s.fsm = .finalized → s.inblock = false → step s = .next t → (∀ rest, s.agenda ≠ .reset :: rest) →
    ¬ executes .init s → t.h = s.h ∧ t.fsm = .finalized

/-- 45_compression.md R197: the complete list of FSM and BLKIDX changes, over every step of every agent: to
INITIALIZED with BLKIDX = 0 by a reset or an executed INIT; from INITIALIZED or PROCESSING to PROCESSING with
BLKIDX + 1 by FEEDFWD, COMPRESS or a MSG_PUSH; to FINALIZED with BLKIDX + 1 by FEEDFWD.L or COMPRESS.L, with + 1 or
+ 2 by a padding MSG_FINAL of one or two blocks, with BLKIDX unchanged by MSG_FINAL bypassed. Any other step (host
accesses, illegal words, the other commands and those that raise an error) leaves FSM and BLKIDX. The premise excludes
only states that no run reaches (StepKeepsInvariant). The moves are those of the model's agenda (log 4). -/
def Obligations.FsmTransitionsAreComplete : Prop :=
  ∀ s t : State, (s.inblock = true → s.fsm ≠ .finalized) → step s = .next t →
    (t.fsm = s.fsm ∧ t.blkidx = s.blkidx) ∨
    (((∃ rest, s.agenda = .reset :: rest) ∨ executes .init s) ∧ t.fsm = .initialized ∧ t.blkidx = 0) ∨
    ((executes (.feedfwd false) s ∨ executes (.compress false) s ∨ ∃ n, executes (.msgPush n) s) ∧
      s.fsm ≠ .finalized ∧ t.fsm = .processing ∧ t.blkidx = s.blkidx + 1) ∨
    ((executes (.feedfwd true) s ∨ executes (.compress true) s) ∧ s.fsm ≠ .finalized ∧ t.fsm = .finalized ∧
      t.blkidx = s.blkidx + 1) ∨
    (executes .msgFinal s ∧ s.fsm ≠ .finalized ∧ t.fsm = .finalized ∧
      t.blkidx = s.blkidx + (if s.padbyp then 0 else if s.len.toNat % 512 ≤ 447 then 1 else 2))

/-- 10_state.md R48, 70_reset_and_hazards.md R284: the path of a message is fixed: no step but a reset or the
execution of INIT leaves PATH = WORD or PATH = BIT. -/
def Obligations.PathIsFixedUntilInit : Prop :=
  ∀ s t : State, s.path ≠ .none → step s = .next t → (∀ rest, s.agenda ≠ .reset :: rest) →
    ¬ executes .init s → t.path = s.path

/-- 10_state.md R54: no command's success depends on a reset draw: two states that differ only in WK, M and the
witness arrays agree after any command but CHECK on ERRCODE and on everything else but H and those arrays. -/
def Obligations.DrawsNeverDecideSuccess : Prop :=
  ∀ (i : Instr) (s s' t t' : State), i ≠ .check →
    s' = { s with wk := s'.wk, m := s'.m, w := s'.w, t1 := s'.t1, t2 := s'.t2, wr := s'.wr, hin := s'.hin,
                  hout := s'.hout } →
    exec i s = .next t → exec i s' = .next t' →
    t' = { t with h := t'.h, wk := t'.wk, m := t'.m, w := t'.w, t1 := t'.t1, t2 := t'.t2, wr := t'.wr,
                  hin := t'.hin, hout := t'.hout }

/-- 10_state.md R27, R28, R46 to R48; 43_padding.md R162, R164; 46_verifier.md R225: every step of every agent keeps
the invariant of reachable states. -/
def Obligations.StepKeepsInvariant : Prop :=
  ∀ s t : State, s.Inv → step s = .next t → t.Inv

/-- The invariant holds right after reset, whatever the draws (10_state.md R53, R54). -/
def Obligations.ResetHasInvariant : Prop :=
  ∀ n : Nat, (State.resetAt n).Inv

/-! ### Reset (70_reset_and_hazards.md) -/

/-- 10_state.md R53: the value of every register after reset, and 70_reset_and_hazards.md R271: the engine waits with
BUSY = 0. The arrays WK, M, W, T1, T2, WR, HIN and HOUT hold draws (R54), about which nothing is said. The empty
agenda of State.reset, about which nothing is said here either, is the model's own choice (log 4). -/
def Obligations.ResetValues : Prop :=
  ∀ s : State, s = State.reset →
    statusWord s = 0 ∧ ctrlWord s = 0 ∧ s.endian = false ∧ s.padbyp = false ∧ s.fsm = .initialized ∧
    s.inblock = false ∧ s.path = .none ∧ s.chkok = false ∧ s.errcode = .noError ∧ s.blkidx = 0 ∧ s.t.val = 0 ∧
    s.vmask = 0 ∧ s.len = 0 ∧ s.bits = 0 ∧ s.chkidx = 0 ∧ s.x = 0 ∧ s.y = 0 ∧ s.z = 0 ∧ s.r = 0 ∧ s.carry = 0 ∧
    s.pending = none ∧ s.busy = false ∧ (∀ i : Fin 8, s.h[i] = Rom.IV[i]) ∧
    targetValue s .id = 0x53484132 ∧ (∀ t : Fin 64, targetValue s (.k t) = Rom.K[t]) ∧
    ∀ i : Fin 8, targetValue s (.iv i) = Rom.IV[i]

/-- 70_reset_and_hazards.md R270, R272: a reset between two steps, with or without a pending command, discards the
command, gives every register its reset value and H = IV; only the arrays hold (fresh) draws. The last three clauses
are the model's own choices about its own fields: the move is taken off the agenda and the coming moves stay (log 4),
what the host last read stays (log 5), and the reset takes the next draw number (log 2). -/
def Obligations.ResetDiscardsPending : Prop :=
  ∀ (s : State) (rest : List Event), s.agenda = .reset :: rest →
    ∃ t, step s = .next t ∧ t.pending = none ∧ t = { State.reset with
      wk := t.wk, m := t.m, w := t.w, t1 := t.t1, t2 := t.t2, wr := t.wr, hin := t.hin, hout := t.hout,
      agenda := rest, rdata := s.rdata, draws := s.draws + 1 }

/-! ### The register space (20_memory.md) -/

/-- 20_memory.md R62, R63, R64: every register and array element is found at its offset, and a word-aligned offset
is reserved exactly in the reserved ranges. -/
def Obligations.OffsetMapIsExact : Prop :=
  (∀ tgt : Target, tgt ≠ .reserved → decodeOffset tgt.offset.toNat = tgt ∧ tgt.offset.toNat % 4 = 0) ∧
  ∀ a : Nat, a < 4096 → a % 4 = 0 →
    (decodeOffset a = .reserved ↔ (0x044 ≤ a ∧ a < 0x080) ∨ (0xC40 ≤ a ∧ a < 0xD00) ∨ 0xE20 ≤ a) ∧
    (decodeOffset a ≠ .reserved → (decodeOffset a).offset.toNat = a)

/-- 20_memory.md R66, R69: a host read inside the interface completes: while BUSY = 0, or of ID (0x000) or STATUS
(0x008), it returns the target's value; otherwise it returns a free value, fresh for every such read. It changes no
register and no array. The form is the model's choice: the value read stands in rdata (log 5), the free value is the
opaque Config.busyRead (log 3) at the draw counter, which advances (log 2), and the move is taken off the agenda
(log 4). -/
def Obligations.ReadReturnsValue : Prop :=
  ∀ (s : State) (a : BitVec 12) (rest : List Event), s.agenda = .read 4 a :: rest → a.toNat % 4 = 0 →
    (s.busy = false ∨ a = 0x000 ∨ a = 0x008 →
      step s = .next { s with agenda := rest, rdata := some (targetValue s (decodeOffset a.toNat)) }) ∧
    (s.busy = true → a ≠ 0x000 → a ≠ 0x008 →
      step s = .next { s with agenda := rest, rdata := some (Config.busyRead s.draws), draws := s.draws + 1 })

/-- 20_memory.md R66, 10_state.md R55: the value an exact read of every target returns, reserved bits, constants and
reserved offsets included. K and IV read as the tables the round and INIT use, whose values ConstantsAreRootsOfPrimes
gives. -/
def Obligations.ReadValuesOfRegisters : Prop :=
  (∀ s : State,
    (targetValue s .id).toNat = 0x53484132 ∧
    (targetValue s .ctrl).toNat = s.endian.toNat + 2 * s.padbyp.toNat ∧
    (targetValue s .status).toNat = s.pending.isSome.toNat +
      2 * (match s.fsm with | .initialized => 0 | .processing => 1 | .finalized => 2) +
      8 * (decide (s.errcode ≠ .noError)).toNat + 16 * s.inblock.toNat +
      32 * (match s.path with | .none => 0 | .word => 1 | .bit => 2) + 128 * s.chkok.toNat ∧
    targetValue s .cmd = 0 ∧
    (targetValue s .errcode).toNat = (match s.errcode with
      | .noError => 0 | .lengthMismatch => 1 | .malformedBlock => 2 | .constraintViolation => 3
      | .illegalCmd => 4 | .sequence => 5 | .busy => 6 | .lengthOverflow => 7) ∧
    targetValue s .blkidx = s.blkidx ∧ (targetValue s .roundt).toNat = s.t.val ∧
    (targetValue s .vmask).toNat = s.vmask.toNat ∧
    (targetValue s .lenlo).toNat + 2 ^ 32 * (targetValue s .lenhi).toNat = s.len.toNat ∧
    targetValue s .bits = s.bits ∧ targetValue s .chkidx = s.chkidx ∧ targetValue s .x = s.x ∧
    targetValue s .y = s.y ∧ targetValue s .z = s.z ∧ targetValue s .r = s.r ∧
    (targetValue s .carry).toNat = s.carry.toNat ∧ targetValue s .reserved = 0) ∧
  (∀ (s : State) (j : Fin 16) (i : Fin 8) (t : Fin 64),
    targetValue s (.m j) = s.m[j] ∧ targetValue s (.h i) = s.h[i] ∧ targetValue s (.wk i) = s.wk[i] ∧
    targetValue s (.w t) = s.w[t] ∧ targetValue s (.t1 t) = s.t1[t] ∧ targetValue s (.t2 t) = s.t2[t] ∧
    targetValue s (.wr t i) = s.wr[t][i] ∧ targetValue s (.hin i) = s.hin[i] ∧
    targetValue s (.hout i) = s.hout[i] ∧ targetValue s (.k t) = Rom.K[t] ∧ targetValue s (.iv i) = Rom.IV[i])

/-- 10_state.md R44, R45: the hardwired constants as the host reads them, in every state: K[t] is
`floor(cbrt(p) * 2^32) mod 2^32` for the (t+1)-th prime p, IV[i] is `isqrt(p * 2^64) mod 2^32` for the (i+1)-th; a host
write to either is ignored while BUSY = 0. (a is the integer part of the root, so q is the root times 2^32, rounded
down.) -/
def Obligations.ConstantsAreRootsOfPrimes : Prop :=
  (∀ (s : State) (t : Fin 64),
    (∃ a q : Nat, q = a * 2 ^ 32 + (targetValue s (.k t)).toNat ∧ q ^ 3 ≤ Nat.nth Nat.Prime t.val * 2 ^ 96 ∧
      Nat.nth Nat.Prime t.val * 2 ^ 96 < (q + 1) ^ 3) ∧
    ∀ v : Word, s.busy = false → writeTarget (.k t) v s = s) ∧
  ∀ (s : State) (i : Fin 8),
    (∃ a q : Nat, q = a * 2 ^ 32 + (targetValue s (.iv i)).toNat ∧ q ^ 2 ≤ Nat.nth Nat.Prime i.val * 2 ^ 64 ∧
      Nat.nth Nat.Prime i.val * 2 ^ 64 < (q + 1) ^ 2) ∧
    ∀ v : Word, s.busy = false → writeTarget (.iv i) v s = s

/-- 20_memory.md R68: a host write while BUSY = 1, a CMD write included, is dropped: it records BUSY if no error was
recorded, and changes nothing else. (The host's move comes off the model's agenda, log 4.) -/
def Obligations.BusyWriteIsDropped : Prop :=
  ∀ (s : State) (a : BitVec 12) (v : Word) (rest : List Event), s.agenda = .write 4 a v :: rest →
    a.toNat % 4 = 0 → s.busy = true →
    step s = .next { s with agenda := rest, errcode := if s.errcode = .noError then .busy else s.errcode }

/-- 20_memory.md R67, R70: what a host write does while BUSY = 0: CMD latches the command and nothing else, CTRL takes
two bits, BITS, X, Y and Z the word, a word of M is written with its VMASK bit (or refused with SEQUENCE on the bit
path), and a witness element takes the word. (The host's move comes off the model's agenda, log 4.) -/
def Obligations.WriteEffects : Prop :=
  ∀ (s : State) (tgt : Target) (v : Word) (rest : List Event), s.agenda = .write 4 tgt.offset v :: rest →
    s.busy = false →
    (tgt = .cmd → step s = .next { s with agenda := rest, pending := some v }) ∧
    (tgt = .ctrl → step s = .next { s with
      agenda := rest, endian := decide (v.toNat % 2 = 1), padbyp := decide (v.toNat / 2 % 2 = 1) }) ∧
    (tgt = .bits → step s = .next { s with agenda := rest, bits := v }) ∧
    (tgt = .x → step s = .next { s with agenda := rest, x := v }) ∧
    (tgt = .y → step s = .next { s with agenda := rest, y := v }) ∧
    (tgt = .z → step s = .next { s with agenda := rest, z := v }) ∧
    (∀ j, tgt = .m j →
      (s.path = .bit → step s = .next { s with
        agenda := rest, errcode := if s.errcode = .noError then .sequence else s.errcode }) ∧
      (s.path ≠ .bit → ∃ vm, step s = .next { s with agenda := rest, m := s.m.set j.val v, vmask := vm } ∧
        ∀ b < 16, vm.getLsbD b = (decide (b = j.val) || s.vmask.getLsbD b))) ∧
    (∀ t, tgt = .w t → step s = .next { s with agenda := rest, w := s.w.set t.val v }) ∧
    (∀ t, tgt = .t1 t → step s = .next { s with agenda := rest, t1 := s.t1.set t.val v }) ∧
    (∀ t, tgt = .t2 t → step s = .next { s with agenda := rest, t2 := s.t2.set t.val v }) ∧
    (∀ t k, tgt = .wr t k →
      step s = .next { s with agenda := rest, wr := s.wr.set t.val (s.wr[t].set k.val v) }) ∧
    (∀ i, tgt = .hin i → step s = .next { s with agenda := rest, hin := s.hin.set i.val v }) ∧
    (∀ i, tgt = .hout i → step s = .next { s with agenda := rest, hout := s.hout.set i.val v })

/-- 20_memory.md R65, R67: an idle host write to a read-only or reserved offset is ignored and records no error: ID,
STATUS, ERRCODE, BLKIDX, ROUNDT, VMASK, LENLO, LENHI, CHKIDX, R, CARRY, H, WK, K, IV and every reserved offset. (The
host's move comes off the model's agenda, log 4.) -/
def Obligations.ReadOnlyWriteIsIgnored : Prop :=
  ∀ (s : State) (a : BitVec 12) (v : Word) (rest : List Event), s.agenda = .write 4 a v :: rest →
    a.toNat % 4 = 0 → s.busy = false →
    decodeOffset a.toNat ∈ [.id, .status, .errcode, .blkidx, .roundt, .vmask, .lenlo, .lenhi, .chkidx, .r, .carry,
        .reserved] ∨
      (∃ i, decodeOffset a.toNat = .h i) ∨ (∃ i, decodeOffset a.toNat = .wk i) ∨
      (∃ t, decodeOffset a.toNat = .k t) ∨ (∃ i, decodeOffset a.toNat = .iv i) →
    step s = .next { s with agenda := rest }

/-- 20_memory.md R61: a host access that is not a 32-bit access at a multiple of 4 is refused by the model (log 10; the
access is the next move of the model's agenda, log 4). -/
def Obligations.OtherAccessIsRefused : Prop :=
  ∀ (s : State) (bytes : Nat) (a : BitVec 12) (rest : List Event), bytes ≠ 4 ∨ a.toNat % 4 ≠ 0 →
    (s.agenda = .read bytes a :: rest → step s = .refused (.accessOutsideInterface bytes a)) ∧
    ∀ v, s.agenda = .write bytes a v :: rest → step s = .refused (.accessOutsideInterface bytes a)
end

