-- ==== Sys2Proof/Laws/Bits.lean ====
section
/-! SUPPORT. The bits of the shifter, the SHA functions, the codec and the block buffer: each function characterised
once, so that no proof unfolds it. -/

namespace Sys2Proof.Machine

/-! ### Barrel shifter -/

theorem getLsbD_rotr (x : Word) {n : Nat} (hn : n ≤ 31) {i : Nat} (hi : i < 32) :
    (rotr x n).getLsbD i = x.getLsbD ((i + n) % 32) := by
  unfold rotr
  split
  · subst n; simp [Nat.mod_eq_of_lt hi]
  · simp only [BitVec.getLsbD_or, BitVec.getLsbD_ushiftRight, BitVec.getLsbD_shiftLeft]
    by_cases h : n + i < 32
    · rw [Nat.mod_eq_of_lt (by omega : i + n < 32), Nat.add_comm i n]
      simp [show i < 32 - n by omega]
    · rw [show (i + n) % 32 = i - (32 - n) by omega]
      simp [hi, show ¬ i < 32 - n by omega, BitVec.getLsbD_of_ge x (n + i) (by omega)]

/-- The rotation is the library's rotation. -/
theorem rotr_eq_rotateRight (x : Word) {n : Nat} (hn : n ≤ 31) : rotr x n = x.rotateRight n := by
  apply BitVec.eq_of_getLsbD_eq
  intro i hi
  rw [getLsbD_rotr x hn hi, BitVec.getLsbD_rotateRight, Nat.mod_eq_of_lt (show n < 32 by omega)]
  by_cases h : i < 32 - n
  · rw [Nat.mod_eq_of_lt (by omega), Nat.add_comm i n]; simp only [h, decide_true, cond_true]
  · rw [show (i + n) % 32 = i - (32 - n) by omega]; simp only [h, hi, decide_false, decide_true, cond_false, Bool.true_and]

theorem getLsbD_shr (x : Word) (n i : Nat) : (shr x n).getLsbD i = x.getLsbD (i + n) := by
  simp [shr, Nat.add_comm]

theorem toNat_shr (x : Word) (n : Nat) : (shr x n).toNat = x.toNat / 2 ^ n := by
  simp [shr, Nat.shiftRight_eq_div_pow]

/-! ### Codec -/

theorem getLsbD_wordOfLsbFirst (f : Nat → Bool) {i : Nat} (hi : i < 32) :
    (wordOfLsbFirst f).getLsbD i = f i := by
  simp [wordOfLsbFirst, hi]

theorem getLsbD_wordOfMsbFirst (f : Nat → Bool) {i : Nat} (hi : i < 32) :
    (wordOfMsbFirst f).getLsbD i = f (31 - i) := by
  simp [wordOfMsbFirst, hi]

theorem getLsbD_brev (x : Word) {i : Nat} (hi : i < 32) : (brev x).getLsbD i = x.getLsbD (31 - i) := by
  rw [brev, getLsbD_wordOfLsbFirst _ hi]

theorem brev_brev (x : Word) : brev (brev x) = x := by
  apply BitVec.eq_of_getLsbD_eq
  intro i hi
  rw [getLsbD_brev _ hi, getLsbD_brev _ (by omega), show 31 - (31 - i) = i by omega]

/-- PACK's function: the identity, or the bit reversal (42_codec.md R152). -/
theorem packWord_eq (e : Bool) (x : Word) : packWord e x = if e then brev x else x := by
  apply BitVec.eq_of_getLsbD_eq
  intro i hi
  cases e
  · rw [packWord, getLsbD_wordOfMsbFirst _ hi]; simp [laneBit, show 31 - (31 - i) = i by omega]
  · rw [packWord, getLsbD_wordOfMsbFirst _ hi, if_pos rfl, getLsbD_brev _ hi]; rfl

/-- UNPACK's function: the identity, or the bit reversal (42_codec.md R153). -/
theorem unpackWord_eq (e : Bool) (x : Word) : unpackWord e x = if e then brev x else x := by
  apply BitVec.eq_of_getLsbD_eq
  intro i hi
  cases e
  · simp only [unpackWord, Bool.false_eq_true, if_false]
    rw [getLsbD_wordOfMsbFirst _ hi, show 31 - (31 - i) = i by omega]
  · simp only [unpackWord, if_true]
    rw [getLsbD_wordOfLsbFirst _ hi, getLsbD_brev _ hi]

/-! ### Block buffer -/

theorem getLsbD_replaceBit (x : Word) {b : Nat} (hb : b < 32) (v : Bool) {i : Nat} (hi : i < 32) :
    (replaceBit x b v).getLsbD i = if i = b then v else x.getLsbD i := by
  have one : (1#32 <<< b).getLsbD i = decide (i = b) := by
    rw [← BitVec.twoPow_eq, BitVec.getLsbD_twoPow]; simp [hb, eq_comm]
  cases v
  · simp only [replaceBit, Bool.false_eq_true, if_false, BitVec.getLsbD_and, BitVec.getLsbD_not, one, hi]
    by_cases h : i = b <;> simp [h]
  · simp only [replaceBit, if_true, BitVec.getLsbD_or, one]
    by_cases h : i = b <;> simp [h]

/-- Two blocks with the same message bits are the same block (20_memory.md R73). -/
theorem block_ext {a b : Vector Word 16} (h : ∀ p : Fin 512, blockBit a p = blockBit b p) : a = b := by
  ext j hj i hi
  have := h ⟨32 * j + (31 - i), by omega⟩
  simp only [blockBit, show (32 * j + (31 - i)) / 32 = j by omega, show 31 - (32 * j + (31 - i)) % 32 = i by omega]
    at this
  simpa [BitVec.getLsbD_eq_getElem hi] using this

/-- The message bits of M after setbit (43_padding.md R161). -/
theorem blockBit_setbit (p : Fin 512) (v : Bool) (s : State) (q : Fin 512) :
    blockBit (setbit p v s).m q = if q = p then v else blockBit s.m q := by
  have hp : p.val / 32 < 16 := by omega
  simp only [blockBit, setbit, Vector.getElem_set]
  by_cases hj : p.val / 32 = q.val / 32
  · simp only [hj, if_true]
    rw [getLsbD_replaceBit _ (by omega) _ (by omega)]
    by_cases hq : q = p
    · subst hq; simp
    · have : ¬ (31 - q.val % 32 = 31 - p.val % 32) := by
        intro h; apply hq; ext; omega
      simp [hq, this]
  · have hq : q ≠ p := by rintro rfl; exact hj rfl
    simp [hj, hq]

/-- The message bits of a block cut from a bit sequence (42_codec.md R156). -/
theorem blockBit_messageBlock (msg : List Bool) (b : Nat) (p : Fin 512) :
    blockBit (messageBlock msg b) p = msg.getD (512 * b + p.val) false := by
  have h : 512 * b + 32 * (p.val / 32) + (31 - (31 - p.val % 32)) = 512 * b + p.val := by omega
  simp only [blockBit, messageBlock, Vector.getElem_ofFn]
  rw [getLsbD_wordOfMsbFirst _ (by omega), h]

end Sys2Proof.Machine
end

