-- ==== Sys2Proof/Laws/State.lean ====
section
/-! SUPPORT. One lemma per field per named update of State, each true by rfl, so that no proof unfolds a record
update; then the same for `record`. -/

namespace Sys2Proof.Machine

/-! ### setResult -/

@[simp] theorem setResult_endian (v : Word) (s : State) : (setResult v s).endian = s.endian := rfl
@[simp] theorem setResult_padbyp (v : Word) (s : State) : (setResult v s).padbyp = s.padbyp := rfl
@[simp] theorem setResult_fsm (v : Word) (s : State) : (setResult v s).fsm = s.fsm := rfl
@[simp] theorem setResult_inblock (v : Word) (s : State) : (setResult v s).inblock = s.inblock := rfl
@[simp] theorem setResult_path (v : Word) (s : State) : (setResult v s).path = s.path := rfl
@[simp] theorem setResult_chkok (v : Word) (s : State) : (setResult v s).chkok = s.chkok := rfl
@[simp] theorem setResult_pending (v : Word) (s : State) : (setResult v s).pending = s.pending := rfl
@[simp] theorem setResult_errcode (v : Word) (s : State) : (setResult v s).errcode = s.errcode := rfl
@[simp] theorem setResult_blkidx (v : Word) (s : State) : (setResult v s).blkidx = s.blkidx := rfl
@[simp] theorem setResult_t (v : Word) (s : State) : (setResult v s).t = s.t := rfl
@[simp] theorem setResult_vmask (v : Word) (s : State) : (setResult v s).vmask = s.vmask := rfl
@[simp] theorem setResult_len (v : Word) (s : State) : (setResult v s).len = s.len := rfl
@[simp] theorem setResult_bits (v : Word) (s : State) : (setResult v s).bits = s.bits := rfl
@[simp] theorem setResult_chkidx (v : Word) (s : State) : (setResult v s).chkidx = s.chkidx := rfl
@[simp] theorem setResult_x (v : Word) (s : State) : (setResult v s).x = s.x := rfl
@[simp] theorem setResult_y (v : Word) (s : State) : (setResult v s).y = s.y := rfl
@[simp] theorem setResult_z (v : Word) (s : State) : (setResult v s).z = s.z := rfl
@[simp] theorem setResult_r (v : Word) (s : State) : (setResult v s).r = v := rfl
@[simp] theorem setResult_carry (v : Word) (s : State) : (setResult v s).carry = s.carry := rfl
@[simp] theorem setResult_h (v : Word) (s : State) : (setResult v s).h = s.h := rfl
@[simp] theorem setResult_wk (v : Word) (s : State) : (setResult v s).wk = s.wk := rfl
@[simp] theorem setResult_m (v : Word) (s : State) : (setResult v s).m = s.m := rfl
@[simp] theorem setResult_w (v : Word) (s : State) : (setResult v s).w = s.w := rfl
@[simp] theorem setResult_t1 (v : Word) (s : State) : (setResult v s).t1 = s.t1 := rfl
@[simp] theorem setResult_t2 (v : Word) (s : State) : (setResult v s).t2 = s.t2 := rfl
@[simp] theorem setResult_wr (v : Word) (s : State) : (setResult v s).wr = s.wr := rfl
@[simp] theorem setResult_hin (v : Word) (s : State) : (setResult v s).hin = s.hin := rfl
@[simp] theorem setResult_hout (v : Word) (s : State) : (setResult v s).hout = s.hout := rfl
@[simp] theorem setResult_agenda (v : Word) (s : State) : (setResult v s).agenda = s.agenda := rfl
@[simp] theorem setResult_rdata (v : Word) (s : State) : (setResult v s).rdata = s.rdata := rfl
@[simp] theorem setResult_draws (v : Word) (s : State) : (setResult v s).draws = s.draws := rfl

/-! ### setSum -/

@[simp] theorem setSum_endian (n : Nat) (s : State) : (setSum n s).endian = s.endian := rfl
@[simp] theorem setSum_padbyp (n : Nat) (s : State) : (setSum n s).padbyp = s.padbyp := rfl
@[simp] theorem setSum_fsm (n : Nat) (s : State) : (setSum n s).fsm = s.fsm := rfl
@[simp] theorem setSum_inblock (n : Nat) (s : State) : (setSum n s).inblock = s.inblock := rfl
@[simp] theorem setSum_path (n : Nat) (s : State) : (setSum n s).path = s.path := rfl
@[simp] theorem setSum_chkok (n : Nat) (s : State) : (setSum n s).chkok = s.chkok := rfl
@[simp] theorem setSum_pending (n : Nat) (s : State) : (setSum n s).pending = s.pending := rfl
@[simp] theorem setSum_errcode (n : Nat) (s : State) : (setSum n s).errcode = s.errcode := rfl
@[simp] theorem setSum_blkidx (n : Nat) (s : State) : (setSum n s).blkidx = s.blkidx := rfl
@[simp] theorem setSum_t (n : Nat) (s : State) : (setSum n s).t = s.t := rfl
@[simp] theorem setSum_vmask (n : Nat) (s : State) : (setSum n s).vmask = s.vmask := rfl
@[simp] theorem setSum_len (n : Nat) (s : State) : (setSum n s).len = s.len := rfl
@[simp] theorem setSum_bits (n : Nat) (s : State) : (setSum n s).bits = s.bits := rfl
@[simp] theorem setSum_chkidx (n : Nat) (s : State) : (setSum n s).chkidx = s.chkidx := rfl
@[simp] theorem setSum_x (n : Nat) (s : State) : (setSum n s).x = s.x := rfl
@[simp] theorem setSum_y (n : Nat) (s : State) : (setSum n s).y = s.y := rfl
@[simp] theorem setSum_z (n : Nat) (s : State) : (setSum n s).z = s.z := rfl
@[simp] theorem setSum_r (n : Nat) (s : State) : (setSum n s).r = mod32 n := rfl
@[simp] theorem setSum_carry (n : Nat) (s : State) : (setSum n s).carry = carryOut n := rfl
@[simp] theorem setSum_h (n : Nat) (s : State) : (setSum n s).h = s.h := rfl
@[simp] theorem setSum_wk (n : Nat) (s : State) : (setSum n s).wk = s.wk := rfl
@[simp] theorem setSum_m (n : Nat) (s : State) : (setSum n s).m = s.m := rfl
@[simp] theorem setSum_w (n : Nat) (s : State) : (setSum n s).w = s.w := rfl
@[simp] theorem setSum_t1 (n : Nat) (s : State) : (setSum n s).t1 = s.t1 := rfl
@[simp] theorem setSum_t2 (n : Nat) (s : State) : (setSum n s).t2 = s.t2 := rfl
@[simp] theorem setSum_wr (n : Nat) (s : State) : (setSum n s).wr = s.wr := rfl
@[simp] theorem setSum_hin (n : Nat) (s : State) : (setSum n s).hin = s.hin := rfl
@[simp] theorem setSum_hout (n : Nat) (s : State) : (setSum n s).hout = s.hout := rfl
@[simp] theorem setSum_agenda (n : Nat) (s : State) : (setSum n s).agenda = s.agenda := rfl
@[simp] theorem setSum_rdata (n : Nat) (s : State) : (setSum n s).rdata = s.rdata := rfl
@[simp] theorem setSum_draws (n : Nat) (s : State) : (setSum n s).draws = s.draws := rfl

/-! ### expandBlock -/

@[simp] theorem expandBlock_endian (b : Vector Word 16) (s : State) : (expandBlock b s).endian = s.endian := by unfold expandBlock; rfl
@[simp] theorem expandBlock_padbyp (b : Vector Word 16) (s : State) : (expandBlock b s).padbyp = s.padbyp := by unfold expandBlock; rfl
@[simp] theorem expandBlock_fsm (b : Vector Word 16) (s : State) : (expandBlock b s).fsm = s.fsm := by unfold expandBlock; rfl
@[simp] theorem expandBlock_inblock (b : Vector Word 16) (s : State) : (expandBlock b s).inblock = s.inblock := by unfold expandBlock; rfl
@[simp] theorem expandBlock_path (b : Vector Word 16) (s : State) : (expandBlock b s).path = s.path := by unfold expandBlock; rfl
@[simp] theorem expandBlock_chkok (b : Vector Word 16) (s : State) : (expandBlock b s).chkok = s.chkok := by unfold expandBlock; rfl
@[simp] theorem expandBlock_pending (b : Vector Word 16) (s : State) : (expandBlock b s).pending = s.pending := by unfold expandBlock; rfl
@[simp] theorem expandBlock_errcode (b : Vector Word 16) (s : State) : (expandBlock b s).errcode = s.errcode := by unfold expandBlock; rfl
@[simp] theorem expandBlock_blkidx (b : Vector Word 16) (s : State) : (expandBlock b s).blkidx = s.blkidx := by unfold expandBlock; rfl
@[simp] theorem expandBlock_t (b : Vector Word 16) (s : State) : (expandBlock b s).t = s.t := by unfold expandBlock; rfl
@[simp] theorem expandBlock_vmask (b : Vector Word 16) (s : State) : (expandBlock b s).vmask = s.vmask := by unfold expandBlock; rfl
@[simp] theorem expandBlock_len (b : Vector Word 16) (s : State) : (expandBlock b s).len = s.len := by unfold expandBlock; rfl
@[simp] theorem expandBlock_bits (b : Vector Word 16) (s : State) : (expandBlock b s).bits = s.bits := by unfold expandBlock; rfl
@[simp] theorem expandBlock_chkidx (b : Vector Word 16) (s : State) : (expandBlock b s).chkidx = s.chkidx := by unfold expandBlock; rfl
@[simp] theorem expandBlock_x (b : Vector Word 16) (s : State) : (expandBlock b s).x = s.x := by unfold expandBlock; rfl
@[simp] theorem expandBlock_y (b : Vector Word 16) (s : State) : (expandBlock b s).y = s.y := by unfold expandBlock; rfl
@[simp] theorem expandBlock_z (b : Vector Word 16) (s : State) : (expandBlock b s).z = s.z := by unfold expandBlock; rfl
@[simp] theorem expandBlock_r (b : Vector Word 16) (s : State) : (expandBlock b s).r = s.r := by unfold expandBlock; rfl
@[simp] theorem expandBlock_carry (b : Vector Word 16) (s : State) : (expandBlock b s).carry = s.carry := by unfold expandBlock; rfl
@[simp] theorem expandBlock_h (b : Vector Word 16) (s : State) : (expandBlock b s).h = s.h := by unfold expandBlock; rfl
@[simp] theorem expandBlock_wk (b : Vector Word 16) (s : State) : (expandBlock b s).wk = s.wk := by unfold expandBlock; rfl
@[simp] theorem expandBlock_m (b : Vector Word 16) (s : State) : (expandBlock b s).m = s.m := by unfold expandBlock; rfl
@[simp] theorem expandBlock_w (b : Vector Word 16) (s : State) :
    (expandBlock b s).w = extendSchedule (copyBlock b s.w) := by unfold expandBlock; rfl
@[simp] theorem expandBlock_t1 (b : Vector Word 16) (s : State) : (expandBlock b s).t1 = s.t1 := by unfold expandBlock; rfl
@[simp] theorem expandBlock_t2 (b : Vector Word 16) (s : State) : (expandBlock b s).t2 = s.t2 := by unfold expandBlock; rfl
@[simp] theorem expandBlock_wr (b : Vector Word 16) (s : State) : (expandBlock b s).wr = s.wr := by unfold expandBlock; rfl
@[simp] theorem expandBlock_hin (b : Vector Word 16) (s : State) : (expandBlock b s).hin = s.hin := by unfold expandBlock; rfl
@[simp] theorem expandBlock_hout (b : Vector Word 16) (s : State) : (expandBlock b s).hout = s.hout := by unfold expandBlock; rfl
@[simp] theorem expandBlock_agenda (b : Vector Word 16) (s : State) : (expandBlock b s).agenda = s.agenda := by unfold expandBlock; rfl
@[simp] theorem expandBlock_rdata (b : Vector Word 16) (s : State) : (expandBlock b s).rdata = s.rdata := by unfold expandBlock; rfl
@[simp] theorem expandBlock_draws (b : Vector Word 16) (s : State) : (expandBlock b s).draws = s.draws := by unfold expandBlock; rfl

/-! ### loadWorking -/

@[simp] theorem loadWorking_endian (s : State) : (loadWorking s).endian = s.endian := rfl
@[simp] theorem loadWorking_padbyp (s : State) : (loadWorking s).padbyp = s.padbyp := rfl
@[simp] theorem loadWorking_fsm (s : State) : (loadWorking s).fsm = s.fsm := rfl
@[simp] theorem loadWorking_inblock (s : State) : (loadWorking s).inblock = s.inblock := rfl
@[simp] theorem loadWorking_path (s : State) : (loadWorking s).path = s.path := rfl
@[simp] theorem loadWorking_chkok (s : State) : (loadWorking s).chkok = s.chkok := rfl
@[simp] theorem loadWorking_pending (s : State) : (loadWorking s).pending = s.pending := rfl
@[simp] theorem loadWorking_errcode (s : State) : (loadWorking s).errcode = s.errcode := rfl
@[simp] theorem loadWorking_blkidx (s : State) : (loadWorking s).blkidx = s.blkidx := rfl
@[simp] theorem loadWorking_t (s : State) : (loadWorking s).t = s.t := rfl
@[simp] theorem loadWorking_vmask (s : State) : (loadWorking s).vmask = s.vmask := rfl
@[simp] theorem loadWorking_len (s : State) : (loadWorking s).len = s.len := rfl
@[simp] theorem loadWorking_bits (s : State) : (loadWorking s).bits = s.bits := rfl
@[simp] theorem loadWorking_chkidx (s : State) : (loadWorking s).chkidx = s.chkidx := rfl
@[simp] theorem loadWorking_x (s : State) : (loadWorking s).x = s.x := rfl
@[simp] theorem loadWorking_y (s : State) : (loadWorking s).y = s.y := rfl
@[simp] theorem loadWorking_z (s : State) : (loadWorking s).z = s.z := rfl
@[simp] theorem loadWorking_r (s : State) : (loadWorking s).r = s.r := rfl
@[simp] theorem loadWorking_carry (s : State) : (loadWorking s).carry = s.carry := rfl
@[simp] theorem loadWorking_h (s : State) : (loadWorking s).h = s.h := rfl
@[simp] theorem loadWorking_wk (s : State) : (loadWorking s).wk = s.h := rfl
@[simp] theorem loadWorking_m (s : State) : (loadWorking s).m = s.m := rfl
@[simp] theorem loadWorking_w (s : State) : (loadWorking s).w = s.w := rfl
@[simp] theorem loadWorking_t1 (s : State) : (loadWorking s).t1 = s.t1 := rfl
@[simp] theorem loadWorking_t2 (s : State) : (loadWorking s).t2 = s.t2 := rfl
@[simp] theorem loadWorking_wr (s : State) : (loadWorking s).wr = s.wr := rfl
@[simp] theorem loadWorking_hin (s : State) : (loadWorking s).hin = s.h := rfl
@[simp] theorem loadWorking_hout (s : State) : (loadWorking s).hout = s.hout := rfl
@[simp] theorem loadWorking_agenda (s : State) : (loadWorking s).agenda = s.agenda := rfl
@[simp] theorem loadWorking_rdata (s : State) : (loadWorking s).rdata = s.rdata := rfl
@[simp] theorem loadWorking_draws (s : State) : (loadWorking s).draws = s.draws := rfl

/-! ### roundOp -/

@[simp] theorem roundOp_endian (k : Fin 64) (s : State) : (roundOp k s).endian = s.endian := by unfold roundOp; rfl
@[simp] theorem roundOp_padbyp (k : Fin 64) (s : State) : (roundOp k s).padbyp = s.padbyp := by unfold roundOp; rfl
@[simp] theorem roundOp_fsm (k : Fin 64) (s : State) : (roundOp k s).fsm = s.fsm := by unfold roundOp; rfl
@[simp] theorem roundOp_inblock (k : Fin 64) (s : State) : (roundOp k s).inblock = s.inblock := by unfold roundOp; rfl
@[simp] theorem roundOp_path (k : Fin 64) (s : State) : (roundOp k s).path = s.path := by unfold roundOp; rfl
@[simp] theorem roundOp_chkok (k : Fin 64) (s : State) : (roundOp k s).chkok = s.chkok := by unfold roundOp; rfl
@[simp] theorem roundOp_pending (k : Fin 64) (s : State) : (roundOp k s).pending = s.pending := by unfold roundOp; rfl
@[simp] theorem roundOp_errcode (k : Fin 64) (s : State) : (roundOp k s).errcode = s.errcode := by unfold roundOp; rfl
@[simp] theorem roundOp_blkidx (k : Fin 64) (s : State) : (roundOp k s).blkidx = s.blkidx := by unfold roundOp; rfl
@[simp] theorem roundOp_t (k : Fin 64) (s : State) : (roundOp k s).t = s.t := by unfold roundOp; rfl
@[simp] theorem roundOp_vmask (k : Fin 64) (s : State) : (roundOp k s).vmask = s.vmask := by unfold roundOp; rfl
@[simp] theorem roundOp_len (k : Fin 64) (s : State) : (roundOp k s).len = s.len := by unfold roundOp; rfl
@[simp] theorem roundOp_bits (k : Fin 64) (s : State) : (roundOp k s).bits = s.bits := by unfold roundOp; rfl
@[simp] theorem roundOp_chkidx (k : Fin 64) (s : State) : (roundOp k s).chkidx = s.chkidx := by unfold roundOp; rfl
@[simp] theorem roundOp_x (k : Fin 64) (s : State) : (roundOp k s).x = s.x := by unfold roundOp; rfl
@[simp] theorem roundOp_y (k : Fin 64) (s : State) : (roundOp k s).y = s.y := by unfold roundOp; rfl
@[simp] theorem roundOp_z (k : Fin 64) (s : State) : (roundOp k s).z = s.z := by unfold roundOp; rfl
@[simp] theorem roundOp_r (k : Fin 64) (s : State) : (roundOp k s).r = s.r := by unfold roundOp; rfl
@[simp] theorem roundOp_carry (k : Fin 64) (s : State) : (roundOp k s).carry = s.carry := by unfold roundOp; rfl
@[simp] theorem roundOp_h (k : Fin 64) (s : State) : (roundOp k s).h = s.h := by unfold roundOp; rfl
@[simp] theorem roundOp_wk (k : Fin 64) (s : State) :
    (roundOp k s).wk = roundShift s.wk (roundT1 s.wk Rom.K[k] s.w[k]) (roundT2 s.wk) := by unfold roundOp; rfl
@[simp] theorem roundOp_m (k : Fin 64) (s : State) : (roundOp k s).m = s.m := by unfold roundOp; rfl
@[simp] theorem roundOp_w (k : Fin 64) (s : State) : (roundOp k s).w = s.w := by unfold roundOp; rfl
@[simp] theorem roundOp_t1 (k : Fin 64) (s : State) :
    (roundOp k s).t1 = s.t1.set k.val (roundT1 s.wk Rom.K[k] s.w[k]) := by unfold roundOp; rfl
@[simp] theorem roundOp_t2 (k : Fin 64) (s : State) : (roundOp k s).t2 = s.t2.set k.val (roundT2 s.wk) := by unfold roundOp; rfl
@[simp] theorem roundOp_wr (k : Fin 64) (s : State) :
    (roundOp k s).wr = s.wr.set k.val (roundShift s.wk (roundT1 s.wk Rom.K[k] s.w[k]) (roundT2 s.wk)) := by unfold roundOp; rfl
@[simp] theorem roundOp_hin (k : Fin 64) (s : State) : (roundOp k s).hin = s.hin := by unfold roundOp; rfl
@[simp] theorem roundOp_hout (k : Fin 64) (s : State) : (roundOp k s).hout = s.hout := by unfold roundOp; rfl
@[simp] theorem roundOp_agenda (k : Fin 64) (s : State) : (roundOp k s).agenda = s.agenda := by unfold roundOp; rfl
@[simp] theorem roundOp_rdata (k : Fin 64) (s : State) : (roundOp k s).rdata = s.rdata := by unfold roundOp; rfl
@[simp] theorem roundOp_draws (k : Fin 64) (s : State) : (roundOp k s).draws = s.draws := by unfold roundOp; rfl

/-! ### feedForward -/

@[simp] theorem feedForward_endian (l : Bool) (s : State) : (feedForward l s).endian = s.endian := rfl
@[simp] theorem feedForward_padbyp (l : Bool) (s : State) : (feedForward l s).padbyp = s.padbyp := rfl
@[simp] theorem feedForward_fsm (l : Bool) (s : State) :
    (feedForward l s).fsm = if l then .finalized else .processing := rfl
@[simp] theorem feedForward_inblock (l : Bool) (s : State) : (feedForward l s).inblock = s.inblock := rfl
@[simp] theorem feedForward_path (l : Bool) (s : State) : (feedForward l s).path = s.path := rfl
@[simp] theorem feedForward_chkok (l : Bool) (s : State) : (feedForward l s).chkok = s.chkok := rfl
@[simp] theorem feedForward_pending (l : Bool) (s : State) : (feedForward l s).pending = s.pending := rfl
@[simp] theorem feedForward_errcode (l : Bool) (s : State) : (feedForward l s).errcode = s.errcode := rfl
@[simp] theorem feedForward_blkidx (l : Bool) (s : State) : (feedForward l s).blkidx = s.blkidx + 1 := rfl
@[simp] theorem feedForward_t (l : Bool) (s : State) : (feedForward l s).t = s.t := rfl
@[simp] theorem feedForward_vmask (l : Bool) (s : State) : (feedForward l s).vmask = s.vmask := rfl
@[simp] theorem feedForward_len (l : Bool) (s : State) : (feedForward l s).len = s.len := rfl
@[simp] theorem feedForward_bits (l : Bool) (s : State) : (feedForward l s).bits = s.bits := rfl
@[simp] theorem feedForward_chkidx (l : Bool) (s : State) : (feedForward l s).chkidx = s.chkidx := rfl
@[simp] theorem feedForward_x (l : Bool) (s : State) : (feedForward l s).x = s.x := rfl
@[simp] theorem feedForward_y (l : Bool) (s : State) : (feedForward l s).y = s.y := rfl
@[simp] theorem feedForward_z (l : Bool) (s : State) : (feedForward l s).z = s.z := rfl
@[simp] theorem feedForward_r (l : Bool) (s : State) : (feedForward l s).r = s.r := rfl
@[simp] theorem feedForward_carry (l : Bool) (s : State) : (feedForward l s).carry = s.carry := rfl
@[simp] theorem feedForward_h (l : Bool) (s : State) : (feedForward l s).h = Vector.zipWith (· + ·) s.h s.wk := rfl
@[simp] theorem feedForward_wk (l : Bool) (s : State) : (feedForward l s).wk = s.wk := rfl
@[simp] theorem feedForward_m (l : Bool) (s : State) : (feedForward l s).m = s.m := rfl
@[simp] theorem feedForward_w (l : Bool) (s : State) : (feedForward l s).w = s.w := rfl
@[simp] theorem feedForward_t1 (l : Bool) (s : State) : (feedForward l s).t1 = s.t1 := rfl
@[simp] theorem feedForward_t2 (l : Bool) (s : State) : (feedForward l s).t2 = s.t2 := rfl
@[simp] theorem feedForward_wr (l : Bool) (s : State) : (feedForward l s).wr = s.wr := rfl
@[simp] theorem feedForward_hin (l : Bool) (s : State) : (feedForward l s).hin = s.hin := rfl
@[simp] theorem feedForward_hout (l : Bool) (s : State) :
    (feedForward l s).hout = Vector.zipWith (· + ·) s.h s.wk := rfl
@[simp] theorem feedForward_agenda (l : Bool) (s : State) : (feedForward l s).agenda = s.agenda := rfl
@[simp] theorem feedForward_rdata (l : Bool) (s : State) : (feedForward l s).rdata = s.rdata := rfl
@[simp] theorem feedForward_draws (l : Bool) (s : State) : (feedForward l s).draws = s.draws := rfl

/-! ### setbit -/

@[simp] theorem setbit_endian (p : Fin 512) (v : Bool) (s : State) : (setbit p v s).endian = s.endian := rfl
@[simp] theorem setbit_padbyp (p : Fin 512) (v : Bool) (s : State) : (setbit p v s).padbyp = s.padbyp := rfl
@[simp] theorem setbit_fsm (p : Fin 512) (v : Bool) (s : State) : (setbit p v s).fsm = s.fsm := rfl
@[simp] theorem setbit_inblock (p : Fin 512) (v : Bool) (s : State) : (setbit p v s).inblock = s.inblock := rfl
@[simp] theorem setbit_path (p : Fin 512) (v : Bool) (s : State) : (setbit p v s).path = s.path := rfl
@[simp] theorem setbit_chkok (p : Fin 512) (v : Bool) (s : State) : (setbit p v s).chkok = s.chkok := rfl
@[simp] theorem setbit_pending (p : Fin 512) (v : Bool) (s : State) : (setbit p v s).pending = s.pending := rfl
@[simp] theorem setbit_errcode (p : Fin 512) (v : Bool) (s : State) : (setbit p v s).errcode = s.errcode := rfl
@[simp] theorem setbit_blkidx (p : Fin 512) (v : Bool) (s : State) : (setbit p v s).blkidx = s.blkidx := rfl
@[simp] theorem setbit_t (p : Fin 512) (v : Bool) (s : State) : (setbit p v s).t = s.t := rfl
@[simp] theorem setbit_vmask (p : Fin 512) (v : Bool) (s : State) : (setbit p v s).vmask = s.vmask := rfl
@[simp] theorem setbit_len (p : Fin 512) (v : Bool) (s : State) : (setbit p v s).len = s.len := rfl
@[simp] theorem setbit_bits (p : Fin 512) (v : Bool) (s : State) : (setbit p v s).bits = s.bits := rfl
@[simp] theorem setbit_chkidx (p : Fin 512) (v : Bool) (s : State) : (setbit p v s).chkidx = s.chkidx := rfl
@[simp] theorem setbit_x (p : Fin 512) (v : Bool) (s : State) : (setbit p v s).x = s.x := rfl
@[simp] theorem setbit_y (p : Fin 512) (v : Bool) (s : State) : (setbit p v s).y = s.y := rfl
@[simp] theorem setbit_z (p : Fin 512) (v : Bool) (s : State) : (setbit p v s).z = s.z := rfl
@[simp] theorem setbit_r (p : Fin 512) (v : Bool) (s : State) : (setbit p v s).r = s.r := rfl
@[simp] theorem setbit_carry (p : Fin 512) (v : Bool) (s : State) : (setbit p v s).carry = s.carry := rfl
@[simp] theorem setbit_h (p : Fin 512) (v : Bool) (s : State) : (setbit p v s).h = s.h := rfl
@[simp] theorem setbit_wk (p : Fin 512) (v : Bool) (s : State) : (setbit p v s).wk = s.wk := rfl
@[simp] theorem setbit_m (p : Fin 512) (v : Bool) (s : State) :
    (setbit p v s).m = s.m.set (p.val / 32) (replaceBit s.m[p.val / 32] (31 - p.val % 32) v) := rfl
@[simp] theorem setbit_w (p : Fin 512) (v : Bool) (s : State) : (setbit p v s).w = s.w := rfl
@[simp] theorem setbit_t1 (p : Fin 512) (v : Bool) (s : State) : (setbit p v s).t1 = s.t1 := rfl
@[simp] theorem setbit_t2 (p : Fin 512) (v : Bool) (s : State) : (setbit p v s).t2 = s.t2 := rfl
@[simp] theorem setbit_wr (p : Fin 512) (v : Bool) (s : State) : (setbit p v s).wr = s.wr := rfl
@[simp] theorem setbit_hin (p : Fin 512) (v : Bool) (s : State) : (setbit p v s).hin = s.hin := rfl
@[simp] theorem setbit_hout (p : Fin 512) (v : Bool) (s : State) : (setbit p v s).hout = s.hout := rfl
@[simp] theorem setbit_agenda (p : Fin 512) (v : Bool) (s : State) : (setbit p v s).agenda = s.agenda := rfl
@[simp] theorem setbit_rdata (p : Fin 512) (v : Bool) (s : State) : (setbit p v s).rdata = s.rdata := rfl
@[simp] theorem setbit_draws (p : Fin 512) (v : Bool) (s : State) : (setbit p v s).draws = s.draws := rfl

/-! ### enterBitPath -/

@[simp] theorem enterBitPath_endian (s : State) : (enterBitPath s).endian = s.endian := rfl
@[simp] theorem enterBitPath_padbyp (s : State) : (enterBitPath s).padbyp = s.padbyp := rfl
@[simp] theorem enterBitPath_fsm (s : State) : (enterBitPath s).fsm = s.fsm := rfl
@[simp] theorem enterBitPath_inblock (s : State) : (enterBitPath s).inblock = s.inblock := rfl
@[simp] theorem enterBitPath_path (s : State) : (enterBitPath s).path = .bit := rfl
@[simp] theorem enterBitPath_chkok (s : State) : (enterBitPath s).chkok = s.chkok := rfl
@[simp] theorem enterBitPath_pending (s : State) : (enterBitPath s).pending = s.pending := rfl
@[simp] theorem enterBitPath_errcode (s : State) : (enterBitPath s).errcode = s.errcode := rfl
@[simp] theorem enterBitPath_blkidx (s : State) : (enterBitPath s).blkidx = s.blkidx := rfl
@[simp] theorem enterBitPath_t (s : State) : (enterBitPath s).t = s.t := rfl
@[simp] theorem enterBitPath_vmask (s : State) : (enterBitPath s).vmask = if s.path = .none then 0 else s.vmask := rfl
@[simp] theorem enterBitPath_len (s : State) : (enterBitPath s).len = s.len := rfl
@[simp] theorem enterBitPath_bits (s : State) : (enterBitPath s).bits = s.bits := rfl
@[simp] theorem enterBitPath_chkidx (s : State) : (enterBitPath s).chkidx = s.chkidx := rfl
@[simp] theorem enterBitPath_x (s : State) : (enterBitPath s).x = s.x := rfl
@[simp] theorem enterBitPath_y (s : State) : (enterBitPath s).y = s.y := rfl
@[simp] theorem enterBitPath_z (s : State) : (enterBitPath s).z = s.z := rfl
@[simp] theorem enterBitPath_r (s : State) : (enterBitPath s).r = s.r := rfl
@[simp] theorem enterBitPath_carry (s : State) : (enterBitPath s).carry = s.carry := rfl
@[simp] theorem enterBitPath_h (s : State) : (enterBitPath s).h = s.h := rfl
@[simp] theorem enterBitPath_wk (s : State) : (enterBitPath s).wk = s.wk := rfl
@[simp] theorem enterBitPath_m (s : State) : (enterBitPath s).m = s.m := rfl
@[simp] theorem enterBitPath_w (s : State) : (enterBitPath s).w = s.w := rfl
@[simp] theorem enterBitPath_t1 (s : State) : (enterBitPath s).t1 = s.t1 := rfl
@[simp] theorem enterBitPath_t2 (s : State) : (enterBitPath s).t2 = s.t2 := rfl
@[simp] theorem enterBitPath_wr (s : State) : (enterBitPath s).wr = s.wr := rfl
@[simp] theorem enterBitPath_hin (s : State) : (enterBitPath s).hin = s.hin := rfl
@[simp] theorem enterBitPath_hout (s : State) : (enterBitPath s).hout = s.hout := rfl
@[simp] theorem enterBitPath_agenda (s : State) : (enterBitPath s).agenda = s.agenda := rfl
@[simp] theorem enterBitPath_rdata (s : State) : (enterBitPath s).rdata = s.rdata := rfl
@[simp] theorem enterBitPath_draws (s : State) : (enterBitPath s).draws = s.draws := rfl

/-! ### putLength -/

@[simp] theorem putLength_endian (s : State) : (putLength s).endian = s.endian := rfl
@[simp] theorem putLength_padbyp (s : State) : (putLength s).padbyp = s.padbyp := rfl
@[simp] theorem putLength_fsm (s : State) : (putLength s).fsm = s.fsm := rfl
@[simp] theorem putLength_inblock (s : State) : (putLength s).inblock = s.inblock := rfl
@[simp] theorem putLength_path (s : State) : (putLength s).path = s.path := rfl
@[simp] theorem putLength_chkok (s : State) : (putLength s).chkok = s.chkok := rfl
@[simp] theorem putLength_pending (s : State) : (putLength s).pending = s.pending := rfl
@[simp] theorem putLength_errcode (s : State) : (putLength s).errcode = s.errcode := rfl
@[simp] theorem putLength_blkidx (s : State) : (putLength s).blkidx = s.blkidx := rfl
@[simp] theorem putLength_t (s : State) : (putLength s).t = s.t := rfl
@[simp] theorem putLength_vmask (s : State) : (putLength s).vmask = s.vmask := rfl
@[simp] theorem putLength_len (s : State) : (putLength s).len = s.len := rfl
@[simp] theorem putLength_bits (s : State) : (putLength s).bits = s.bits := rfl
@[simp] theorem putLength_chkidx (s : State) : (putLength s).chkidx = s.chkidx := rfl
@[simp] theorem putLength_x (s : State) : (putLength s).x = s.x := rfl
@[simp] theorem putLength_y (s : State) : (putLength s).y = s.y := rfl
@[simp] theorem putLength_z (s : State) : (putLength s).z = s.z := rfl
@[simp] theorem putLength_r (s : State) : (putLength s).r = s.r := rfl
@[simp] theorem putLength_carry (s : State) : (putLength s).carry = s.carry := rfl
@[simp] theorem putLength_h (s : State) : (putLength s).h = s.h := rfl
@[simp] theorem putLength_wk (s : State) : (putLength s).wk = s.wk := rfl
@[simp] theorem putLength_m (s : State) :
    (putLength s).m = (s.m.set 14 (s.len.extractLsb' 32 32)).set 15 (s.len.extractLsb' 0 32) := rfl
@[simp] theorem putLength_w (s : State) : (putLength s).w = s.w := rfl
@[simp] theorem putLength_t1 (s : State) : (putLength s).t1 = s.t1 := rfl
@[simp] theorem putLength_t2 (s : State) : (putLength s).t2 = s.t2 := rfl
@[simp] theorem putLength_wr (s : State) : (putLength s).wr = s.wr := rfl
@[simp] theorem putLength_hin (s : State) : (putLength s).hin = s.hin := rfl
@[simp] theorem putLength_hout (s : State) : (putLength s).hout = s.hout := rfl
@[simp] theorem putLength_agenda (s : State) : (putLength s).agenda = s.agenda := rfl
@[simp] theorem putLength_rdata (s : State) : (putLength s).rdata = s.rdata := rfl
@[simp] theorem putLength_draws (s : State) : (putLength s).draws = s.draws := rfl

/-! ### clearWords -/

@[simp] theorem clearWords_endian (s : State) : (clearWords s).endian = s.endian := by unfold clearWords; rfl
@[simp] theorem clearWords_padbyp (s : State) : (clearWords s).padbyp = s.padbyp := by unfold clearWords; rfl
@[simp] theorem clearWords_fsm (s : State) : (clearWords s).fsm = s.fsm := by unfold clearWords; rfl
@[simp] theorem clearWords_inblock (s : State) : (clearWords s).inblock = s.inblock := by unfold clearWords; rfl
@[simp] theorem clearWords_path (s : State) : (clearWords s).path = s.path := by unfold clearWords; rfl
@[simp] theorem clearWords_chkok (s : State) : (clearWords s).chkok = s.chkok := by unfold clearWords; rfl
@[simp] theorem clearWords_pending (s : State) : (clearWords s).pending = s.pending := by unfold clearWords; rfl
@[simp] theorem clearWords_errcode (s : State) : (clearWords s).errcode = s.errcode := by unfold clearWords; rfl
@[simp] theorem clearWords_blkidx (s : State) : (clearWords s).blkidx = s.blkidx := by unfold clearWords; rfl
@[simp] theorem clearWords_t (s : State) : (clearWords s).t = s.t := by unfold clearWords; rfl
@[simp] theorem clearWords_vmask (s : State) : (clearWords s).vmask = s.vmask := by unfold clearWords; rfl
@[simp] theorem clearWords_len (s : State) : (clearWords s).len = s.len := by unfold clearWords; rfl
@[simp] theorem clearWords_bits (s : State) : (clearWords s).bits = s.bits := by unfold clearWords; rfl
@[simp] theorem clearWords_chkidx (s : State) : (clearWords s).chkidx = s.chkidx := by unfold clearWords; rfl
@[simp] theorem clearWords_x (s : State) : (clearWords s).x = s.x := by unfold clearWords; rfl
@[simp] theorem clearWords_y (s : State) : (clearWords s).y = s.y := by unfold clearWords; rfl
@[simp] theorem clearWords_z (s : State) : (clearWords s).z = s.z := by unfold clearWords; rfl
@[simp] theorem clearWords_r (s : State) : (clearWords s).r = s.r := by unfold clearWords; rfl
@[simp] theorem clearWords_carry (s : State) : (clearWords s).carry = s.carry := by unfold clearWords; rfl
@[simp] theorem clearWords_h (s : State) : (clearWords s).h = s.h := by unfold clearWords; rfl
@[simp] theorem clearWords_wk (s : State) : (clearWords s).wk = s.wk := by unfold clearWords; rfl
@[simp] theorem clearWords_m (s : State) :
    (clearWords s).m = (List.finRange 14).foldl (fun m j => m.set j.val 0) s.m := by unfold clearWords; rfl
@[simp] theorem clearWords_w (s : State) : (clearWords s).w = s.w := by unfold clearWords; rfl
@[simp] theorem clearWords_t1 (s : State) : (clearWords s).t1 = s.t1 := by unfold clearWords; rfl
@[simp] theorem clearWords_t2 (s : State) : (clearWords s).t2 = s.t2 := by unfold clearWords; rfl
@[simp] theorem clearWords_wr (s : State) : (clearWords s).wr = s.wr := by unfold clearWords; rfl
@[simp] theorem clearWords_hin (s : State) : (clearWords s).hin = s.hin := by unfold clearWords; rfl
@[simp] theorem clearWords_hout (s : State) : (clearWords s).hout = s.hout := by unfold clearWords; rfl
@[simp] theorem clearWords_agenda (s : State) : (clearWords s).agenda = s.agenda := by unfold clearWords; rfl
@[simp] theorem clearWords_rdata (s : State) : (clearWords s).rdata = s.rdata := by unfold clearWords; rfl
@[simp] theorem clearWords_draws (s : State) : (clearWords s).draws = s.draws := by unfold clearWords; rfl

/-! ### clearPending -/

@[simp] theorem clearPending_endian (s : State) : (clearPending s).endian = s.endian := rfl
@[simp] theorem clearPending_padbyp (s : State) : (clearPending s).padbyp = s.padbyp := rfl
@[simp] theorem clearPending_fsm (s : State) : (clearPending s).fsm = s.fsm := rfl
@[simp] theorem clearPending_inblock (s : State) : (clearPending s).inblock = s.inblock := rfl
@[simp] theorem clearPending_path (s : State) : (clearPending s).path = s.path := rfl
@[simp] theorem clearPending_chkok (s : State) : (clearPending s).chkok = s.chkok := rfl
@[simp] theorem clearPending_pending (s : State) : (clearPending s).pending = none := rfl
@[simp] theorem clearPending_errcode (s : State) : (clearPending s).errcode = s.errcode := rfl
@[simp] theorem clearPending_blkidx (s : State) : (clearPending s).blkidx = s.blkidx := rfl
@[simp] theorem clearPending_t (s : State) : (clearPending s).t = s.t := rfl
@[simp] theorem clearPending_vmask (s : State) : (clearPending s).vmask = s.vmask := rfl
@[simp] theorem clearPending_len (s : State) : (clearPending s).len = s.len := rfl
@[simp] theorem clearPending_bits (s : State) : (clearPending s).bits = s.bits := rfl
@[simp] theorem clearPending_chkidx (s : State) : (clearPending s).chkidx = s.chkidx := rfl
@[simp] theorem clearPending_x (s : State) : (clearPending s).x = s.x := rfl
@[simp] theorem clearPending_y (s : State) : (clearPending s).y = s.y := rfl
@[simp] theorem clearPending_z (s : State) : (clearPending s).z = s.z := rfl
@[simp] theorem clearPending_r (s : State) : (clearPending s).r = s.r := rfl
@[simp] theorem clearPending_carry (s : State) : (clearPending s).carry = s.carry := rfl
@[simp] theorem clearPending_h (s : State) : (clearPending s).h = s.h := rfl
@[simp] theorem clearPending_wk (s : State) : (clearPending s).wk = s.wk := rfl
@[simp] theorem clearPending_m (s : State) : (clearPending s).m = s.m := rfl
@[simp] theorem clearPending_w (s : State) : (clearPending s).w = s.w := rfl
@[simp] theorem clearPending_t1 (s : State) : (clearPending s).t1 = s.t1 := rfl
@[simp] theorem clearPending_t2 (s : State) : (clearPending s).t2 = s.t2 := rfl
@[simp] theorem clearPending_wr (s : State) : (clearPending s).wr = s.wr := rfl
@[simp] theorem clearPending_hin (s : State) : (clearPending s).hin = s.hin := rfl
@[simp] theorem clearPending_hout (s : State) : (clearPending s).hout = s.hout := rfl
@[simp] theorem clearPending_agenda (s : State) : (clearPending s).agenda = s.agenda := rfl
@[simp] theorem clearPending_rdata (s : State) : (clearPending s).rdata = s.rdata := rfl
@[simp] theorem clearPending_draws (s : State) : (clearPending s).draws = s.draws := rfl

/-! ### issue -/

@[simp] theorem issue_endian (c : Word) (s : State) : (issue c s).endian = s.endian := rfl
@[simp] theorem issue_padbyp (c : Word) (s : State) : (issue c s).padbyp = s.padbyp := rfl
@[simp] theorem issue_fsm (c : Word) (s : State) : (issue c s).fsm = s.fsm := rfl
@[simp] theorem issue_inblock (c : Word) (s : State) : (issue c s).inblock = s.inblock := rfl
@[simp] theorem issue_path (c : Word) (s : State) : (issue c s).path = s.path := rfl
@[simp] theorem issue_chkok (c : Word) (s : State) : (issue c s).chkok = s.chkok := rfl
@[simp] theorem issue_pending (c : Word) (s : State) : (issue c s).pending = some c := rfl
@[simp] theorem issue_errcode (c : Word) (s : State) : (issue c s).errcode = s.errcode := rfl
@[simp] theorem issue_blkidx (c : Word) (s : State) : (issue c s).blkidx = s.blkidx := rfl
@[simp] theorem issue_t (c : Word) (s : State) : (issue c s).t = s.t := rfl
@[simp] theorem issue_vmask (c : Word) (s : State) : (issue c s).vmask = s.vmask := rfl
@[simp] theorem issue_len (c : Word) (s : State) : (issue c s).len = s.len := rfl
@[simp] theorem issue_bits (c : Word) (s : State) : (issue c s).bits = s.bits := rfl
@[simp] theorem issue_chkidx (c : Word) (s : State) : (issue c s).chkidx = s.chkidx := rfl
@[simp] theorem issue_x (c : Word) (s : State) : (issue c s).x = s.x := rfl
@[simp] theorem issue_y (c : Word) (s : State) : (issue c s).y = s.y := rfl
@[simp] theorem issue_z (c : Word) (s : State) : (issue c s).z = s.z := rfl
@[simp] theorem issue_r (c : Word) (s : State) : (issue c s).r = s.r := rfl
@[simp] theorem issue_carry (c : Word) (s : State) : (issue c s).carry = s.carry := rfl
@[simp] theorem issue_h (c : Word) (s : State) : (issue c s).h = s.h := rfl
@[simp] theorem issue_wk (c : Word) (s : State) : (issue c s).wk = s.wk := rfl
@[simp] theorem issue_m (c : Word) (s : State) : (issue c s).m = s.m := rfl
@[simp] theorem issue_w (c : Word) (s : State) : (issue c s).w = s.w := rfl
@[simp] theorem issue_t1 (c : Word) (s : State) : (issue c s).t1 = s.t1 := rfl
@[simp] theorem issue_t2 (c : Word) (s : State) : (issue c s).t2 = s.t2 := rfl
@[simp] theorem issue_wr (c : Word) (s : State) : (issue c s).wr = s.wr := rfl
@[simp] theorem issue_hin (c : Word) (s : State) : (issue c s).hin = s.hin := rfl
@[simp] theorem issue_hout (c : Word) (s : State) : (issue c s).hout = s.hout := rfl
@[simp] theorem issue_agenda (c : Word) (s : State) : (issue c s).agenda = s.agenda := rfl
@[simp] theorem issue_rdata (c : Word) (s : State) : (issue c s).rdata = s.rdata := rfl
@[simp] theorem issue_draws (c : Word) (s : State) : (issue c s).draws = s.draws := rfl

/-! ### record -/

@[simp] theorem record_endian (e : ErrCode) (s : State) : (record e s).endian = s.endian := by unfold record; split <;> rfl
@[simp] theorem record_padbyp (e : ErrCode) (s : State) : (record e s).padbyp = s.padbyp := by unfold record; split <;> rfl
@[simp] theorem record_fsm (e : ErrCode) (s : State) : (record e s).fsm = s.fsm := by unfold record; split <;> rfl
@[simp] theorem record_inblock (e : ErrCode) (s : State) : (record e s).inblock = s.inblock := by unfold record; split <;> rfl
@[simp] theorem record_path (e : ErrCode) (s : State) : (record e s).path = s.path := by unfold record; split <;> rfl
@[simp] theorem record_chkok (e : ErrCode) (s : State) : (record e s).chkok = s.chkok := by unfold record; split <;> rfl
@[simp] theorem record_pending (e : ErrCode) (s : State) : (record e s).pending = s.pending := by unfold record; split <;> rfl
@[simp] theorem record_errcode (e : ErrCode) (s : State) :
    (record e s).errcode = if s.errcode = .noError then e else s.errcode := by
  unfold record; split <;> simp_all
@[simp] theorem record_blkidx (e : ErrCode) (s : State) : (record e s).blkidx = s.blkidx := by unfold record; split <;> rfl
@[simp] theorem record_t (e : ErrCode) (s : State) : (record e s).t = s.t := by unfold record; split <;> rfl
@[simp] theorem record_vmask (e : ErrCode) (s : State) : (record e s).vmask = s.vmask := by unfold record; split <;> rfl
@[simp] theorem record_len (e : ErrCode) (s : State) : (record e s).len = s.len := by unfold record; split <;> rfl
@[simp] theorem record_bits (e : ErrCode) (s : State) : (record e s).bits = s.bits := by unfold record; split <;> rfl
@[simp] theorem record_chkidx (e : ErrCode) (s : State) : (record e s).chkidx = s.chkidx := by unfold record; split <;> rfl
@[simp] theorem record_x (e : ErrCode) (s : State) : (record e s).x = s.x := by unfold record; split <;> rfl
@[simp] theorem record_y (e : ErrCode) (s : State) : (record e s).y = s.y := by unfold record; split <;> rfl
@[simp] theorem record_z (e : ErrCode) (s : State) : (record e s).z = s.z := by unfold record; split <;> rfl
@[simp] theorem record_r (e : ErrCode) (s : State) : (record e s).r = s.r := by unfold record; split <;> rfl
@[simp] theorem record_carry (e : ErrCode) (s : State) : (record e s).carry = s.carry := by unfold record; split <;> rfl
@[simp] theorem record_h (e : ErrCode) (s : State) : (record e s).h = s.h := by unfold record; split <;> rfl
@[simp] theorem record_wk (e : ErrCode) (s : State) : (record e s).wk = s.wk := by unfold record; split <;> rfl
@[simp] theorem record_m (e : ErrCode) (s : State) : (record e s).m = s.m := by unfold record; split <;> rfl
@[simp] theorem record_w (e : ErrCode) (s : State) : (record e s).w = s.w := by unfold record; split <;> rfl
@[simp] theorem record_t1 (e : ErrCode) (s : State) : (record e s).t1 = s.t1 := by unfold record; split <;> rfl
@[simp] theorem record_t2 (e : ErrCode) (s : State) : (record e s).t2 = s.t2 := by unfold record; split <;> rfl
@[simp] theorem record_wr (e : ErrCode) (s : State) : (record e s).wr = s.wr := by unfold record; split <;> rfl
@[simp] theorem record_hin (e : ErrCode) (s : State) : (record e s).hin = s.hin := by unfold record; split <;> rfl
@[simp] theorem record_hout (e : ErrCode) (s : State) : (record e s).hout = s.hout := by unfold record; split <;> rfl
@[simp] theorem record_agenda (e : ErrCode) (s : State) : (record e s).agenda = s.agenda := by unfold record; split <;> rfl
@[simp] theorem record_rdata (e : ErrCode) (s : State) : (record e s).rdata = s.rdata := by unfold record; split <;> rfl
@[simp] theorem record_draws (e : ErrCode) (s : State) : (record e s).draws = s.draws := by unfold record; split <;> rfl

/-- All that `record` does: ERRCODE takes the code if it held none (60_exceptions.md R243). -/
theorem record_eq (e : ErrCode) (s : State) :
    record e s = { s with errcode := if s.errcode = .noError then e else s.errcode } := by
  unfold record; split <;> simp_all

/-- All that `raise` does (60_exceptions.md R244). -/
theorem raise_eq (e : ErrCode) (s : State) :
    raise e s = .next { s with errcode := if s.errcode = .noError then e else s.errcode } := by
  rw [raise, record_eq]

end Sys2Proof.Machine
end

