-- ==== Sys2Proof/Laws/Ops.lean ====
section
/-! SUPPORT. The shared operations of the scheduler and the compression engine: what each does, said once. The
schedule obeys its recurrence and depends on the block alone; the rounds write their witness rows; CompressBlock folds
the block into H, leaves a valid witness and touches nothing else. -/

namespace Sys2Proof.Machine

/-! ### Folds over an index range -/

/-- A property that holds at the start and that each index carries one further holds at the end of the fold. -/
theorem foldl_finRange_induct {β : Type} {n : Nat} {f : β → Fin n → β} (P : Nat → β → Prop) {b : β} (h0 : P 0 b)
    (hs : ∀ (k : Fin n) (c : β), P k.val c → P (k.val + 1) (f c k)) : P n ((List.finRange n).foldl f b) := by
  induction n with
  | zero => simpa using h0
  | succ n ih =>
    rw [List.finRange_succ_last, List.foldl_append, List.foldl_map]
    exact hs (Fin.last n) _ (ih fun k c hc => hs k.castSucc c hc)

/-- The same for a fold over an interval of numbers. -/
theorem foldl_range'_induct {β : Type} {f : β → Nat → β} (P : Nat → β → Prop) {b : β} (i n : Nat) (h0 : P 0 b)
    (hs : ∀ (k : Nat) (c : β), k < n → P k c → P (k + 1) (f c (i + k))) :
    P n ((List.range' i n).foldl f b) := by
  induction n with
  | zero => simpa using h0
  | succ n ih =>
    rw [List.range'_1_concat, List.foldl_append]
    exact hs n _ (Nat.lt_succ_self n) (ih fun k c hk hc => hs k c (by omega) hc)

/-! ### Message scheduler -/

/-- The first sixteen words are the block's, the others stay (44_scheduler.md R180). -/
theorem getElem_copyBlock (blk : Vector Word 16) (w : Vector Word 64) (n : Nat) (hn : n < 64) :
    (copyBlock blk w)[n] = if h : n < 16 then blk[n] else w[n] := by
  refine foldl_finRange_induct
    (P := fun k (u : Vector Word 64) => ∀ (n : Nat) (hn : n < 64), u[n] = if h : n < k ∧ n < 16 then blk[n] else w[n])
    (fun n hn => by simp) ?_ n hn |>.trans (by simp)
  intro k u ih n hn
  rw [Vector.getElem_set]
  by_cases h : k.val = n
  · subst h; simp
  · rw [if_neg h, ih n hn]
    have : (n < k.val ∧ n < 16) ↔ (n < k.val + 1 ∧ n < 16) := by omega
    simp only [this]

/-- `w` extends its first sixteen words by the recurrence of 44_scheduler.md R180. -/
def Extends (w : Vector Word 64) : Prop := ∀ i : Fin 48, w[i.val + 16] = schedWord w i

/-- A schedule word depends only on words before it. -/
theorem schedWord_congr {w w' : Vector Word 64} (i : Fin 48)
    (h : ∀ (n : Nat) (hn : n < 64), n < i.val + 16 → w[n] = w'[n]) : schedWord w i = schedWord w' i := by
  simp only [schedWord, h (i.val + 14) (by omega) (by omega), h (i.val + 9) (by omega) (by omega),
    h (i.val + 1) (by omega) (by omega), h i.val (by omega) (by omega)]

/-- The extension keeps the first sixteen words and obeys the recurrence (44_scheduler.md R180). -/
theorem extendSchedule_spec (w : Vector Word 64) :
    (∀ (n : Nat) (hn : n < 16), (extendSchedule w)[n] = w[n]) ∧ Extends (extendSchedule w) := by
  have := foldl_finRange_induct (n := 48) (f := fun (w : Vector Word 64) i => w.set (i.val + 16) (schedWord w i))
    (P := fun k (u : Vector Word 64) => (∀ (n : Nat) (hn : n < 16), u[n] = w[n]) ∧
      ∀ i : Fin 48, i.val < k → u[i.val + 16] = schedWord u i)
    (b := w) ⟨fun _ _ => rfl, fun i h => by omega⟩ (by
      rintro k u ⟨h0, h1⟩
      refine ⟨fun n hn => ?_, fun i hi => ?_⟩
      · rw [Vector.getElem_set_ne _ _ (by omega)]; exact h0 n hn
      · have low : schedWord (u.set (k.val + 16) (schedWord u k)) i = schedWord u i :=
          schedWord_congr i fun n hn hlt => Vector.getElem_set_ne _ _ (by omega)
        rw [low]
        by_cases h : i = k
        · subst h; simp
        · rw [Vector.getElem_set_ne _ _ (by intro e; apply h; ext; omega)]
          exact h1 i (by have : i.val ≠ k.val := fun e => h (Fin.ext e); omega))
  exact ⟨this.1, fun i => this.2 i i.isLt⟩

/-- Two schedules with the same first sixteen words are equal. -/
theorem Extends.unique {w w' : Vector Word 64} (h : Extends w) (h' : Extends w')
    (low : ∀ (n : Nat) (hn : n < 16), w[n] = w'[n]) : w = w' := by
  apply Vector.ext
  intro n hn
  induction n using Nat.strongRecOn with
  | _ n ih =>
    by_cases hlt : n < 16
    · exact low n hlt
    · have e : (⟨n - 16, by omega⟩ : Fin 48).val + 16 = n := by simp; omega
      have hw := h ⟨n - 16, by omega⟩
      have hw' := h' ⟨n - 16, by omega⟩
      simp only [e] at hw hw'
      rw [hw, hw']
      exact schedWord_congr _ fun m hm hlt => ih m (by simp at hlt; omega) hm

/-- The schedule depends on the block alone, whatever the memory held before (44_scheduler.md R180). -/
theorem extendSchedule_copyBlock (blk : Vector Word 16) (w : Vector Word 64) :
    extendSchedule (copyBlock blk w) = scheduleOf blk := by
  refine (extendSchedule_spec _).2.unique (extendSchedule_spec _).2 fun n hn => ?_
  rw [(extendSchedule_spec _).1 n hn, scheduleOf, (extendSchedule_spec _).1 n hn,
    getElem_copyBlock _ _ n (by omega), getElem_copyBlock _ _ n (by omega)]
  simp [hn]

/-- W[0..15] of a schedule are the block. -/
theorem getElem_scheduleOf_low (blk : Vector Word 16) (j : Nat) (hj : j < 16) : (scheduleOf blk)[j] = blk[j] := by
  rw [scheduleOf, (extendSchedule_spec _).1 j hj, getElem_copyBlock _ _ j (by omega)]
  simp [hj]

/-- W[16..63] of a schedule obey the recurrence. -/
theorem scheduleOf_extends (blk : Vector Word 16) : Extends (scheduleOf blk) := (extendSchedule_spec _).2

/-- All that `Expand` does to the state. -/
theorem expandBlock_eq (blk : Vector Word 16) (s : State) : expandBlock blk s = { s with w := scheduleOf blk } := by
  unfold expandBlock; rw [extendSchedule_copyBlock]

/-! ### Rounds -/

/-- The rounds write WK, T1, T2 and WR alone. -/
theorem foldl_roundOp_frame (l : List (Fin 64)) (s : State) :
    ∃ wk t1 t2 wr, l.foldl (fun s t => roundOp t s) s = { s with wk := wk, t1 := t1, t2 := t2, wr := wr } := by
  induction l generalizing s with
  | nil => exact ⟨_, _, _, _, rfl⟩
  | cons t l ih =>
    obtain ⟨wk, t1, t2, wr, h⟩ := ih (roundOp t s)
    exact ⟨wk, t1, t2, wr, h⟩

/-- The working registers after a list of rounds depend on W and WK alone. -/
theorem foldl_roundOp_wk (l : List (Fin 64)) (s : State) :
    (l.foldl (fun s t => roundOp t s) s).wk =
      l.foldl (fun v t => roundShift v (roundT1 v Rom.K[t] s.w[t]) (roundT2 v)) s.wk := by
  induction l generalizing s with
  | nil => rfl
  | cons t l ih => simpa using ih (roundOp t s)

/-- The registers `(a, …, h)` before round `t`: `v` for t = 0, else row t-1 of WR. -/
def beforeRound (v : Vector Word 8) (wr : Vector (Vector Word 8) 64) (t : Fin 64) : Vector Word 8 :=
  if t.val = 0 then v else wr[t.val - 1]

/-- Row `t` of the witness is what round `t` computes from the registers before it (45_compression.md R191). -/
def RowValid (v : Vector Word 8) (s : State) (t : Fin 64) : Prop :=
  s.t1[t] = roundT1 (beforeRound v s.wr t) Rom.K[t] s.w[t] ∧ s.t2[t] = roundT2 (beforeRound v s.wr t) ∧
    s.wr[t] = roundShift (beforeRound v s.wr t) s.t1[t] s.t2[t]

/-- After the 64 rounds every row is valid, and WK is the last one. -/
theorem allRounds_rows (s : State) :
    (∀ t : Fin 64, RowValid s.wk (allRounds s) t) ∧ (allRounds s).wr[63] = (allRounds s).wk := by
  have := foldl_finRange_induct (n := 64) (f := fun s t => roundOp t s)
    (P := fun k (u : State) => u.w = s.w ∧ (∀ t : Fin 64, t.val < k → RowValid s.wk u t) ∧
      (k = 0 → u.wk = s.wk) ∧ ∀ h : k - 1 < 64, k ≠ 0 → u.wr[k - 1] = u.wk)
    (b := s) ⟨rfl, fun t h => by omega, fun _ => rfl, fun _ h => absurd rfl h⟩ (by
      rintro k u ⟨hw, hrow, hz, hlast⟩
      have hb : ∀ t : Fin 64, t.val ≤ k.val → beforeRound s.wk (roundOp k u).wr t = beforeRound s.wk u.wr t := by
        intro t ht
        unfold beforeRound
        split
        · rfl
        · rw [roundOp_wr, Vector.getElem_set_ne _ _ (by omega)]
      have hk : beforeRound s.wk u.wr k = u.wk := by
        unfold beforeRound
        split
        · exact (hz ‹_›).symm
        · exact hlast (by omega) ‹_›
      refine ⟨hw, fun t ht => ?_, fun h => by omega, fun _ _ => by simp⟩
      unfold RowValid
      rw [hb t (by omega)]
      by_cases h : t = k
      · subst h
        rw [hk]
        simp [hw]
      · have hne : k.val ≠ t.val := fun e => h (Fin.ext e.symm)
        have hr := hrow t (by omega)
        unfold RowValid at hr
        simpa [Fin.getElem_fin, Vector.getElem_set_ne, hne] using hr)
  exact ⟨fun t => this.2.1 t t.isLt, this.2.2.2 (by omega) (by omega)⟩

/-! ### CompressBlock -/

/-- All that CompressBlock does to the state (45_compression.md R195): H is the fold, the witness arrays and WK are
those of the block, BLKIDX, FSM and t change, and nothing else does. -/
theorem compressBlock_eq (blk : Vector Word 16) (last : Bool) (s : State) :
    ∃ t1 t2 wr, compressBlock blk last s = { s with
      h := foldBlock s.h blk, hin := s.h, hout := foldBlock s.h blk, wk := workingAfter (scheduleOf blk) s.h,
      w := scheduleOf blk, t1 := t1, t2 := t2, wr := wr, blkidx := s.blkidx + 1,
      fsm := if last then .finalized else .processing, t := 64 } := by
  unfold compressBlock
  rw [expandBlock_eq]
  have hwk := foldl_roundOp_wk (List.finRange 64) (loadWorking { s with w := scheduleOf blk })
  obtain ⟨wk, t1, t2, wr, h⟩ := foldl_roundOp_frame (List.finRange 64) (loadWorking { s with w := scheduleOf blk })
  rw [h] at hwk
  replace hwk : wk = workingAfter (scheduleOf blk) s.h := hwk
  subst hwk
  unfold allRounds
  rw [h]
  exact ⟨t1, t2, wr, rfl⟩

@[simp] theorem compressBlock_endian (blk : Vector Word 16) (last : Bool) (s : State) :
    (compressBlock blk last s).endian = s.endian := by obtain ⟨_, _, _, h⟩ := compressBlock_eq blk last s; rw [h]
@[simp] theorem compressBlock_padbyp (blk : Vector Word 16) (last : Bool) (s : State) :
    (compressBlock blk last s).padbyp = s.padbyp := by obtain ⟨_, _, _, h⟩ := compressBlock_eq blk last s; rw [h]
@[simp] theorem compressBlock_fsm (blk : Vector Word 16) (last : Bool) (s : State) :
    (compressBlock blk last s).fsm = if last then .finalized else .processing := by obtain ⟨_, _, _, h⟩ := compressBlock_eq blk last s; rw [h]
@[simp] theorem compressBlock_inblock (blk : Vector Word 16) (last : Bool) (s : State) :
    (compressBlock blk last s).inblock = s.inblock := by obtain ⟨_, _, _, h⟩ := compressBlock_eq blk last s; rw [h]
@[simp] theorem compressBlock_path (blk : Vector Word 16) (last : Bool) (s : State) :
    (compressBlock blk last s).path = s.path := by obtain ⟨_, _, _, h⟩ := compressBlock_eq blk last s; rw [h]
@[simp] theorem compressBlock_chkok (blk : Vector Word 16) (last : Bool) (s : State) :
    (compressBlock blk last s).chkok = s.chkok := by obtain ⟨_, _, _, h⟩ := compressBlock_eq blk last s; rw [h]
@[simp] theorem compressBlock_pending (blk : Vector Word 16) (last : Bool) (s : State) :
    (compressBlock blk last s).pending = s.pending := by obtain ⟨_, _, _, h⟩ := compressBlock_eq blk last s; rw [h]
@[simp] theorem compressBlock_errcode (blk : Vector Word 16) (last : Bool) (s : State) :
    (compressBlock blk last s).errcode = s.errcode := by obtain ⟨_, _, _, h⟩ := compressBlock_eq blk last s; rw [h]
@[simp] theorem compressBlock_blkidx (blk : Vector Word 16) (last : Bool) (s : State) :
    (compressBlock blk last s).blkidx = s.blkidx + 1 := by obtain ⟨_, _, _, h⟩ := compressBlock_eq blk last s; rw [h]
@[simp] theorem compressBlock_t (blk : Vector Word 16) (last : Bool) (s : State) :
    (compressBlock blk last s).t = 64 := by obtain ⟨_, _, _, h⟩ := compressBlock_eq blk last s; rw [h]
@[simp] theorem compressBlock_vmask (blk : Vector Word 16) (last : Bool) (s : State) :
    (compressBlock blk last s).vmask = s.vmask := by obtain ⟨_, _, _, h⟩ := compressBlock_eq blk last s; rw [h]
@[simp] theorem compressBlock_len (blk : Vector Word 16) (last : Bool) (s : State) :
    (compressBlock blk last s).len = s.len := by obtain ⟨_, _, _, h⟩ := compressBlock_eq blk last s; rw [h]
@[simp] theorem compressBlock_bits (blk : Vector Word 16) (last : Bool) (s : State) :
    (compressBlock blk last s).bits = s.bits := by obtain ⟨_, _, _, h⟩ := compressBlock_eq blk last s; rw [h]
@[simp] theorem compressBlock_chkidx (blk : Vector Word 16) (last : Bool) (s : State) :
    (compressBlock blk last s).chkidx = s.chkidx := by obtain ⟨_, _, _, h⟩ := compressBlock_eq blk last s; rw [h]
@[simp] theorem compressBlock_x (blk : Vector Word 16) (last : Bool) (s : State) :
    (compressBlock blk last s).x = s.x := by obtain ⟨_, _, _, h⟩ := compressBlock_eq blk last s; rw [h]
@[simp] theorem compressBlock_y (blk : Vector Word 16) (last : Bool) (s : State) :
    (compressBlock blk last s).y = s.y := by obtain ⟨_, _, _, h⟩ := compressBlock_eq blk last s; rw [h]
@[simp] theorem compressBlock_z (blk : Vector Word 16) (last : Bool) (s : State) :
    (compressBlock blk last s).z = s.z := by obtain ⟨_, _, _, h⟩ := compressBlock_eq blk last s; rw [h]
@[simp] theorem compressBlock_r (blk : Vector Word 16) (last : Bool) (s : State) :
    (compressBlock blk last s).r = s.r := by obtain ⟨_, _, _, h⟩ := compressBlock_eq blk last s; rw [h]
@[simp] theorem compressBlock_carry (blk : Vector Word 16) (last : Bool) (s : State) :
    (compressBlock blk last s).carry = s.carry := by obtain ⟨_, _, _, h⟩ := compressBlock_eq blk last s; rw [h]
@[simp] theorem compressBlock_h (blk : Vector Word 16) (last : Bool) (s : State) :
    (compressBlock blk last s).h = foldBlock s.h blk := by obtain ⟨_, _, _, h⟩ := compressBlock_eq blk last s; rw [h]
@[simp] theorem compressBlock_wk (blk : Vector Word 16) (last : Bool) (s : State) :
    (compressBlock blk last s).wk = workingAfter (scheduleOf blk) s.h := by obtain ⟨_, _, _, h⟩ := compressBlock_eq blk last s; rw [h]
@[simp] theorem compressBlock_m (blk : Vector Word 16) (last : Bool) (s : State) :
    (compressBlock blk last s).m = s.m := by obtain ⟨_, _, _, h⟩ := compressBlock_eq blk last s; rw [h]
@[simp] theorem compressBlock_w (blk : Vector Word 16) (last : Bool) (s : State) :
    (compressBlock blk last s).w = scheduleOf blk := by obtain ⟨_, _, _, h⟩ := compressBlock_eq blk last s; rw [h]
@[simp] theorem compressBlock_hin (blk : Vector Word 16) (last : Bool) (s : State) :
    (compressBlock blk last s).hin = s.h := by obtain ⟨_, _, _, h⟩ := compressBlock_eq blk last s; rw [h]
@[simp] theorem compressBlock_hout (blk : Vector Word 16) (last : Bool) (s : State) :
    (compressBlock blk last s).hout = foldBlock s.h blk := by obtain ⟨_, _, _, h⟩ := compressBlock_eq blk last s; rw [h]
@[simp] theorem compressBlock_agenda (blk : Vector Word 16) (last : Bool) (s : State) :
    (compressBlock blk last s).agenda = s.agenda := by obtain ⟨_, _, _, h⟩ := compressBlock_eq blk last s; rw [h]
@[simp] theorem compressBlock_rdata (blk : Vector Word 16) (last : Bool) (s : State) :
    (compressBlock blk last s).rdata = s.rdata := by obtain ⟨_, _, _, h⟩ := compressBlock_eq blk last s; rw [h]
@[simp] theorem compressBlock_draws (blk : Vector Word 16) (last : Bool) (s : State) :
    (compressBlock blk last s).draws = s.draws := by obtain ⟨_, _, _, h⟩ := compressBlock_eq blk last s; rw [h]

/-- A witness is valid when its schedule extends its first sixteen words, its rows are valid from HIN on, and HOUT adds
HIN to the last row. -/
theorem witnessValid_of (s : State) (hw : Extends s.w) (hrow : ∀ t : Fin 64, RowValid s.hin s t)
    (hout : ∀ i : Fin 8, s.hout[i] = s.hin[i] + s.wr[63][i]) : WitnessValid s := by
  rintro (i | ⟨t, j⟩ | i)
  · simpa only [Equation.holds, Equation.sides, beq_iff_eq] using hw i
  · obtain ⟨r1, r2, r3⟩ := hrow t
    have hin : roundInput s t = beforeRound s.hin s.wr t := rfl
    simp only [Equation.holds, Equation.sides, roundEquation, hin, beq_iff_eq]
    fin_cases j
    · exact r1
    · exact r2
    all_goals (simp only [r3, roundShift]; rfl)
  · simpa only [Equation.holds, Equation.sides, beq_iff_eq] using hout i

/-- The feed-forward after valid rows that started from H leaves a valid witness. -/
theorem feedForward_witness (last : Bool) (s : State) (hw : Extends s.w) (hin : s.hin = s.h)
    (hrow : ∀ t : Fin 64, RowValid s.hin s t) (hlast : s.wr[63] = s.wk) : WitnessValid (feedForward last s) :=
  witnessValid_of _ hw hrow fun i => by simp [hin, hlast]

/-- The 64 rounds leave W, H and HIN. -/
theorem allRounds_kept (s : State) :
    (allRounds s).w = s.w ∧ (allRounds s).h = s.h ∧ (allRounds s).hin = s.hin := by
  obtain ⟨wk, t1, t2, wr, h⟩ := foldl_roundOp_frame (List.finRange 64) s
  unfold allRounds
  rw [h]
  exact ⟨rfl, rfl, rfl⟩

/-- The rounds from a loaded H leave rows that are valid from HIN on. -/
theorem allRounds_loadWorking_rows (s : State) (t : Fin 64) :
    RowValid (allRounds (loadWorking s)).hin (allRounds (loadWorking s)) t := by
  have hrow := (allRounds_rows (loadWorking s)).1
  rw [loadWorking_wk] at hrow
  rw [(allRounds_kept (loadWorking s)).2.2]
  exact hrow t

/-- Loading makes HIN the chaining value, and the rounds keep both. -/
theorem allRounds_loadWorking_hin (s : State) :
    (allRounds (loadWorking s)).hin = (allRounds (loadWorking s)).h := by
  obtain ⟨-, hh, hin⟩ := allRounds_kept (loadWorking s)
  rw [hin, hh]
  rfl

/-- The witness CompressBlock leaves satisfies every equation (46_verifier.md R228). -/
theorem compressBlock_witness (blk : Vector Word 16) (last : Bool) (s : State) :
    WitnessValid (compressBlock blk last s) := by
  obtain ⟨r, hr⟩ : ∃ r, allRounds (loadWorking (expandBlock blk s)) = r := ⟨_, rfl⟩
  have hx : Extends r.w := by
    rw [← hr, (allRounds_kept _).1, loadWorking_w, expandBlock_w, extendSchedule_copyBlock]
    exact scheduleOf_extends blk
  have hin : r.hin = r.h := by rw [← hr]; exact allRounds_loadWorking_hin _
  have hrow : ∀ t : Fin 64, RowValid r.hin r t := by rw [← hr]; exact allRounds_loadWorking_rows _
  have hlast : r.wr[63] = r.wk := by rw [← hr]; exact (allRounds_rows _).2
  have he : compressBlock blk last s = feedForward last { r with t := 64 } := by
    rw [← hr]; unfold compressBlock; with_reducible rfl
  rw [he]
  exact feedForward_witness last { r with t := 64 } hx hin hrow hlast

end Sys2Proof.Machine
end

