-- ==== Sys2Proof/Laws/BitPath.lean ====
section
/-! SUPPORT. The bit path: what setbit, the padding writes and a run of MSG_PUSH's loop do to the block buffer and to
the rest of the state, said once. -/

namespace Sys2Proof.Machine

/-! ### Padding writes (43_padding.md R166) -/

/-- All that setbit does. -/
theorem setbit_eq (p : Fin 512) (v : Bool) (s : State) : setbit p v s = { s with m := (setbit p v s).m } := rfl

/-- Clearing a run of message bits: those bits are 0, the others stay, and nothing but M changes. -/
theorem clearBits_spec (lo n : Nat) (hn : lo + n ≤ 512) (s : State) :
    (∀ q : Fin 512, blockBit (clearBits lo n s).m q =
      if lo ≤ q.val ∧ q.val < lo + n then false else blockBit s.m q) ∧
    clearBits lo n s = { s with m := (clearBits lo n s).m } := by
  unfold clearBits
  rw [List.range_eq_range']
  refine foldl_range'_induct (P := fun k (u : State) =>
      (∀ q : Fin 512, blockBit u.m q = if lo ≤ q.val ∧ q.val < lo + k then false else blockBit s.m q) ∧
      u = { s with m := u.m }) 0 n ⟨fun q => ?_, rfl⟩ ?_
  · rw [if_neg (by omega)]
  · rintro k u hk ⟨hb, hf⟩
    refine ⟨fun q => ?_, by rw [hf]; rfl⟩
    have hp : (Fin.ofNat 512 (lo + (0 + k))).val = lo + k := by simp; omega
    rw [blockBit_setbit, hb q]
    by_cases h : q = Fin.ofNat 512 (lo + (0 + k))
    · rw [if_pos h, if_pos (by have := congrArg Fin.val h; omega)]
    · have hne : q.val ≠ lo + k := fun e => h (Fin.ext (by omega))
      rw [if_neg h]
      by_cases h' : lo ≤ q.val ∧ q.val < lo + k
      · rw [if_pos h', if_pos (by omega)]
      · rw [if_neg h', if_neg (by omega)]

/-- The length words, and the rest of the block (43_padding.md R166, 20_memory.md R74). -/
theorem putLength_words (s : State) :
    (putLength s).m[14] = s.len.extractLsb' 32 32 ∧ (putLength s).m[15] = s.len.extractLsb' 0 32 ∧
    ∀ (j : Nat) (hj : j < 14), (putLength s).m[j] = s.m[j] := by
  refine ⟨by simp [putLength], by simp [putLength], fun j hj => ?_⟩
  simp only [putLength]
  rw [Vector.getElem_set_ne _ _ (by omega), Vector.getElem_set_ne _ _ (by omega)]

/-- The fourteen words before the length field are 0 (43_padding.md R166). -/
theorem clearWords_words (s : State) (j : Nat) (hj : j < 14) : (clearWords s).m[j] = 0 := by
  have := foldl_finRange_induct (n := 14) (f := fun (m : Vector Word 16) j => m.set j.val 0)
    (P := fun k (u : Vector Word 16) => ∀ (j : Nat) (hj : j < 16), j < k → u[j] = 0) (b := s.m)
    (fun j hj h => by omega) (by
      intro k u ih j hj hlt
      rw [Vector.getElem_set]
      split
      · rfl
      · exact ih j hj (by omega))
  exact this j (by omega) hj

/-- A message bit below the length field is a bit of one of the first fourteen words. -/
theorem blockBit_congr {a b : Vector Word 16} (p : Fin 512)
    (h : ∀ hj : p.val / 32 < 16, a[p.val / 32] = b[p.val / 32]) : blockBit a p = blockBit b p := by
  simp only [blockBit, h (by omega)]

/-- putLength leaves the message bits below the length field. -/
theorem blockBit_putLength (s : State) (p : Fin 512) (hp : p.val < 448) :
    blockBit (putLength s).m p = blockBit s.m p :=
  blockBit_congr p fun _ => (putLength_words s).2.2 _ (by omega)

/-! ### MSG_PUSH's loop (43_padding.md R163, R164) -/

/-- The fill pointer after one more bit: 512 divides 2^64, so the wrap of L does not disturb it. -/
theorem len_succ_mod (l : BitVec 64) : (l + 1).toNat % 512 = (l.toNat + 1) % 512 := by
  have : (l + 1).toNat = (l.toNat + 1) % 2 ^ 64 := by simp [BitVec.toNat_add]
  omega

/-- A bit that does not fill the block: it lands at the fill pointer, L grows by 1, and nothing else changes. -/
theorem pushBit_within (i : Nat) (s : State) (h : s.len.toNat % 512 ≠ 511) :
    pushBit i s = { setbit (fillPointer s) (laneBit s.endian s.bits i) s with len := s.len + 1 } := by
  unfold pushBit
  have : ¬ (s.len + 1).toNat % 512 = 0 := by rw [len_succ_mod]; omega
  simp only [setbit_len, this, if_false]

/-- A bit that fills the block: it lands at message bit 511, L grows by 1, and the block is compressed as a non-last
one (43_padding.md R164). -/
theorem pushBit_filling (i : Nat) (s : State) (h : s.len.toNat % 512 = 511) :
    pushBit i s = compressBlock (setbit (fillPointer s) (laneBit s.endian s.bits i) s).m false
      { setbit (fillPointer s) (laneBit s.endian s.bits i) s with len := s.len + 1 } := by
  unfold pushBit
  have : (s.len + 1).toNat % 512 = 0 := by rw [len_succ_mod]; omega
  simp only [setbit_len, this, if_true]

/-- Bits `i .. i+n-1` of BITS pushed in order. -/
def pushRange (i n : Nat) (s : State) : State := (List.range' i n).foldl (fun s i => pushBit i s) s

theorem pushBits_eq_pushRange (n : Nat) (s : State) : pushBits n s = pushRange 0 n s := by
  rw [pushBits, pushRange, List.range_eq_range']

/-- A run of bits is a run of the first ones, then one of the rest. -/
theorem pushRange_add (i a b : Nat) (s : State) : pushRange i (a + b) s = pushRange (i + a) b (pushRange i a s) := by
  simp only [pushRange, ← List.foldl_append, List.range'_append_1]

theorem pushRange_one (i : Nat) (s : State) : pushRange i 1 s = pushBit i s := rfl

/-- A run of bits that does not fill the block: the bits land from the fill pointer on, the other bits of M stay, L
grows by their number, and nothing else changes. -/
theorem pushRange_within (i n : Nat) (s : State) (h : s.len.toNat % 512 + n < 512) :
    (∀ q : Fin 512, blockBit (pushRange i n s).m q =
      if s.len.toNat % 512 ≤ q.val ∧ q.val < s.len.toNat % 512 + n then
        laneBit s.endian s.bits (i + (q.val - s.len.toNat % 512))
      else blockBit s.m q) ∧
    pushRange i n s = { s with m := (pushRange i n s).m, len := s.len + BitVec.ofNat 64 n } := by
  have main := foldl_range'_induct (f := fun s i => pushBit i s) (b := s) (P := fun k (u : State) =>
      (∀ q : Fin 512, blockBit u.m q =
        if s.len.toNat % 512 ≤ q.val ∧ q.val < s.len.toNat % 512 + k then
          laneBit s.endian s.bits (i + (q.val - s.len.toNat % 512))
        else blockBit s.m q) ∧
      u = { s with m := u.m, len := s.len + BitVec.ofNat 64 k } ∧
      u.len.toNat % 512 = s.len.toNat % 512 + k) i n
    ⟨fun q => by rw [if_neg (by omega)], by simp, rfl⟩ (by
      rintro k u hk ⟨hb, hf, hl⟩
      have he : u.endian = s.endian := by rw [hf]
      have hbits : u.bits = s.bits := by rw [hf]
      have hlen : u.len + 1 = s.len + BitVec.ofNat 64 (k + 1) := by
        rw [hf, BitVec.ofNat_add, BitVec.add_assoc]; rfl
      rw [pushBit_within _ _ (by omega)]
      refine ⟨fun q => ?_, ?_, ?_⟩
      · show blockBit (setbit _ _ u).m q = _
        rw [blockBit_setbit, hb q, he, hbits]
        by_cases hq : q = fillPointer u
        · have hv : q.val = s.len.toNat % 512 + k := by rw [hq]; exact hl
          rw [if_pos hq, if_pos (by omega), show q.val - s.len.toNat % 512 = k by omega]
        · have hne : q.val ≠ s.len.toNat % 512 + k := fun e => hq (Fin.ext (e.trans hl.symm))
          rw [if_neg hq]
          by_cases h' : s.len.toNat % 512 ≤ q.val ∧ q.val < s.len.toNat % 512 + k
          · rw [if_pos h', if_pos (by omega)]
          · rw [if_neg h', if_neg (by omega)]
      · rw [hlen]
        conv_lhs => rw [hf]
        rw [hf]
        rfl
      · show (u.len + 1).toNat % 512 = _
        rw [len_succ_mod]
        omega)
  exact ⟨main.1, main.2.1⟩

/-- The rounds neither read nor write M and L. -/
theorem foldl_roundOp_commutes (l : List (Fin 64)) (m : Vector Word 16) (len : BitVec 64) (s : State) :
    l.foldl (fun s t => roundOp t s) { s with m := m, len := len } =
      { l.foldl (fun s t => roundOp t s) s with m := m, len := len } := by
  induction l generalizing s with
  | nil => rfl
  | cons t l ih => exact ih (roundOp t s)

/-- CompressBlock neither reads nor writes M and L. -/
theorem compressBlock_commutes (blk : Vector Word 16) (last : Bool) (m : Vector Word 16) (len : BitVec 64) (s : State) :
    compressBlock blk last { s with m := m, len := len } = { compressBlock blk last s with m := m, len := len } := by
  have h := foldl_roundOp_commutes (List.finRange 64) m len (loadWorking (expandBlock blk s))
  have he : loadWorking (expandBlock blk { s with m := m, len := len }) =
      { loadWorking (expandBlock blk s) with m := m, len := len } := by
    rw [expandBlock_eq, expandBlock_eq]
    generalize scheduleOf blk = w
    rfl
  unfold compressBlock
  rw [he]
  unfold allRounds
  rw [h]
  generalize List.foldl _ _ _ = r
  rfl

/-- A run of MSG_PUSH's loop that fills the block (43_padding.md R163, R164): the filled block, the bits up to message
bit 511 being the first new ones, is compressed as a non-last block; the remaining bits start the next block over it;
L grows by the number of bits. -/
theorem pushBits_filling (n : Nat) (s : State) (hn : n ≤ 512) (h : 512 ≤ s.len.toNat % 512 + n) :
    ∃ filled m : Vector Word 16,
      (∀ p : Fin 512, blockBit filled p =
        if p.val < s.len.toNat % 512 then blockBit s.m p
        else laneBit s.endian s.bits (p.val - s.len.toNat % 512)) ∧
      (∀ p : Fin 512, blockBit m p =
        if p.val < s.len.toNat % 512 + n - 512 then laneBit s.endian s.bits (512 - s.len.toNat % 512 + p.val)
        else blockBit filled p) ∧
      pushBits n s = { compressBlock filled false s with m := m, len := s.len + BitVec.ofNat 64 n } := by
  obtain ⟨a, ha⟩ : ∃ a, s.len.toNat % 512 + a = 511 := ⟨511 - s.len.toNat % 512, by omega⟩
  obtain ⟨b, rfl⟩ : ∃ b, n = a + 1 + b := ⟨n - (a + 1), by omega⟩
  -- the bits before the last one of the block
  obtain ⟨hb1, hf1⟩ := pushRange_within 0 a s (by omega)
  obtain ⟨u, hu⟩ : ∃ u, pushRange 0 a s = u := ⟨_, rfl⟩
  rw [hu] at hb1 hf1
  have hl1 : u.len.toNat % 512 = 511 := by
    rw [hf1]
    simp only [BitVec.toNat_add, BitVec.toNat_ofNat]
    omega
  have he1 : u.endian = s.endian := by rw [hf1]
  have hbits1 : u.bits = s.bits := by rw [hf1]
  -- the filling bit
  obtain ⟨filled, hfl⟩ : ∃ v, (setbit (fillPointer u) (laneBit u.endian u.bits a) u).m = v := ⟨_, rfl⟩
  have hfill : pushBit a u = compressBlock filled false
      { s with m := filled, len := s.len + BitVec.ofNat 64 (a + 1) } := by
    rw [pushBit_filling a u hl1, hfl, setbit_eq, hfl, BitVec.ofNat_add, ← BitVec.add_assoc]
    congr 1
    rw [hf1]
    rfl
  have hfilled : ∀ p : Fin 512, blockBit filled p =
      if p.val < s.len.toNat % 512 then blockBit s.m p
      else laneBit s.endian s.bits (p.val - s.len.toNat % 512) := by
    intro p
    rw [← hfl, blockBit_setbit, hb1 p, he1, hbits1]
    have hfp : (fillPointer u).val = 511 := hl1
    by_cases hp : p = fillPointer u
    · have : p.val = 511 := by rw [hp]; exact hfp
      rw [if_pos hp, if_neg (by omega), show p.val - s.len.toNat % 512 = a by omega]
    · have : p.val ≠ 511 := fun e => hp (Fin.ext (e.trans hfp.symm))
      rw [if_neg hp]
      by_cases hlt : p.val < s.len.toNat % 512
      · rw [if_pos hlt, if_neg (by omega)]
      · rw [if_neg hlt, if_pos (by omega), Nat.zero_add]
  -- the bits of the next block
  obtain ⟨v, hv⟩ : ∃ v, compressBlock filled false
      { s with m := filled, len := s.len + BitVec.ofNat 64 (a + 1) } = v := ⟨_, rfl⟩
  have hvl : v.len = s.len + BitVec.ofNat 64 (a + 1) := by rw [← hv, compressBlock_len]
  have hvm : v.m = filled := by rw [← hv, compressBlock_m]
  have hve : v.endian = s.endian := by rw [← hv, compressBlock_endian]
  have hvb : v.bits = s.bits := by rw [← hv, compressBlock_bits]
  have hl2 : v.len.toNat % 512 = 0 := by
    rw [hvl]
    simp only [BitVec.toNat_add, BitVec.toNat_ofNat]
    omega
  obtain ⟨hb2, hf2⟩ := pushRange_within (a + 1) b v (by omega)
  refine ⟨filled, (pushRange (a + 1) b v).m, hfilled, fun p => ?_, ?_⟩
  · rw [hb2 p, hl2, hve, hvb, hvm]
    by_cases hp : p.val < b
    · rw [if_pos (by omega), if_pos (by omega), show 512 - s.len.toNat % 512 + p.val = a + 1 + (p.val - 0) by omega]
    · rw [if_neg (by omega), if_neg (by omega)]
  · rw [pushBits_eq_pushRange, pushRange_add 0 (a + 1) b, pushRange_add 0 a 1, hu, Nat.zero_add, Nat.zero_add,
      pushRange_one, hfill, hv]
    conv_lhs => rw [hf2]
    rw [hvl, ← hv, compressBlock_commutes, BitVec.add_assoc, ← BitVec.ofNat_add]

end Sys2Proof.Machine
end

