-- ==== Sys2Proof/Laws/Exec.lean ====
section
/-! SUPPORT. What every command keeps, and that it answers a next state, said once for all of them. -/

namespace Sys2Proof.Machine

/-- The elements no command writes: CTRL, BITS, X, Y, Z, PENDING and the model's own fields (10_state.md R56). -/
structure Kept (s t : State) : Prop where
  endian : t.endian = s.endian
  padbyp : t.padbyp = s.padbyp
  bits : t.bits = s.bits
  x : t.x = s.x
  y : t.y = s.y
  z : t.z = s.z
  pending : t.pending = s.pending
  agenda : t.agenda = s.agenda
  rdata : t.rdata = s.rdata
  draws : t.draws = s.draws

theorem Kept.refl (s : State) : Kept s s := ⟨rfl, rfl, rfl, rfl, rfl, rfl, rfl, rfl, rfl, rfl⟩

theorem Kept.trans {s t u : State} (h : Kept s t) (h' : Kept t u) : Kept s u :=
  ⟨h'.endian.trans h.endian, h'.padbyp.trans h.padbyp, h'.bits.trans h.bits, h'.x.trans h.x, h'.y.trans h.y,
    h'.z.trans h.z, h'.pending.trans h.pending, h'.agenda.trans h.agenda, h'.rdata.trans h.rdata,
    h'.draws.trans h.draws⟩

theorem record_kept (e : ErrCode) (s : State) : Kept s (record e s) := by
  constructor <;> simp

theorem compressBlock_kept (blk : Vector Word 16) (last : Bool) (s : State) : Kept s (compressBlock blk last s) := by
  constructor <;> simp

theorem setbit_kept (p : Fin 512) (v : Bool) (s : State) : Kept s (setbit p v s) := by
  constructor <;> rfl

theorem enterBitPath_kept (s : State) : Kept s (enterBitPath s) := by
  constructor <;> rfl

theorem putLength_kept (s : State) : Kept s (putLength s) := by
  constructor <;> rfl

theorem clearWords_kept (s : State) : Kept s (clearWords s) := by
  constructor <;> simp

theorem pushBit_kept (i : Nat) (s : State) : Kept s (pushBit i s) := by
  have h : Kept s { setbit (fillPointer s) (laneBit s.endian s.bits i) s with len := s.len + 1 } := by
    constructor <;> rfl
  by_cases hp : s.len.toNat % 512 = 511
  · rw [pushBit_filling i s hp]; exact h.trans (compressBlock_kept _ _ _)
  · rw [pushBit_within i s hp]; exact h

theorem pushBits_kept (n : Nat) (s : State) : Kept s (pushBits n s) := by
  rw [pushBits_eq_pushRange]
  exact foldl_range'_induct (P := fun _ u => Kept s u) 0 n (Kept.refl s) fun _ _ _ h => h.trans (pushBit_kept _ _)

theorem clearBits_kept (lo n : Nat) (s : State) : Kept s (clearBits lo n s) := by
  unfold clearBits
  rw [List.range_eq_range']
  exact foldl_range'_induct (P := fun _ u => Kept s u) 0 n (Kept.refl s) fun _ _ _ h => h.trans (setbit_kept _ _ _)

theorem padInBlock_kept (s : State) : Kept s (padInBlock s) := by
  unfold padInBlock
  exact ((((setbit_kept _ _ _).trans (clearBits_kept _ _ _)).trans (putLength_kept _)).trans
    (compressBlock_kept _ _ _))

theorem padTwoBlocks_kept (s : State) : Kept s (padTwoBlocks s) := by
  unfold padTwoBlocks
  exact (((((setbit_kept _ _ _).trans (clearBits_kept _ _ _)).trans (compressBlock_kept _ _ _)).trans
    (clearWords_kept _)).trans (putLength_kept _)).trans (compressBlock_kept _ _ _)

/-- A command that ends with an error answers a next state and keeps what no command writes. -/
theorem raise_next_kept (e : ErrCode) (s : State) : ∃ t, raise e s = .next t ∧ Kept s t :=
  ⟨_, rfl, record_kept e s⟩

/-- Every command answers a next state and keeps CTRL, BITS, X, Y, Z, PENDING and the model's own fields
(10_state.md R56, 70_reset_and_hazards.md R288). -/
theorem exec_next_kept (i : Instr) (s : State) : ∃ t, exec i s = .next t ∧ Kept s t := by
  have same : ∀ v, Kept s (setResult v s) := fun _ => by constructor <;> rfl
  have sum : ∀ n, Kept s (setSum n s) := fun _ => by constructor <;> rfl
  have word : ∀ u : State, Kept u { u with vmask := 0, path := .word } := fun _ => by constructor <;> rfl
  cases i with
  | nop => exact ⟨_, rfl, Kept.refl s⟩
  | init => exact ⟨_, rfl, by constructor <;> rfl⟩
  | clrerr => exact ⟨_, rfl, by constructor <;> rfl⟩
  | compress last =>
    simp only [exec, execCompress]
    split
    · exact raise_next_kept _ _
    split
    · exact raise_next_kept _ _
    · exact ⟨_, rfl, (compressBlock_kept _ _ _).trans (word _)⟩
  | expand =>
    simp only [exec, execExpand]
    split
    · exact raise_next_kept _ _
    split
    · exact raise_next_kept _ _
    · exact ⟨_, rfl, by constructor <;> simp⟩
  | rstart =>
    simp only [exec, execRstart]
    split
    · exact raise_next_kept _ _
    · exact ⟨_, rfl, by constructor <;> rfl⟩
  | round =>
    simp only [exec, execRound]
    split
    · exact ⟨_, rfl, by constructor <;> rfl⟩
    · exact raise_next_kept _ _
  | feedfwd last =>
    simp only [exec, execFeedfwd]
    split
    · exact ⟨_, rfl, by constructor <;> rfl⟩
    · exact raise_next_kept _ _
  | check =>
    refine ⟨_, rfl, ?_⟩
    unfold checkWitness
    split
    · constructor <;> rfl
    · constructor <;> simp
  | msgPush n =>
    simp only [exec, execMsgPush]
    split
    · exact raise_next_kept _ _
    split
    · exact raise_next_kept _ _
    · exact ⟨_, rfl, (enterBitPath_kept s).trans (pushBits_kept _ _)⟩
  | msgFinal =>
    simp only [exec, execMsgFinal]
    split
    · exact raise_next_kept _ _
    split
    · split
      · exact raise_next_kept _ _
      · exact ⟨_, rfl, by constructor <;> rfl⟩
    split
    · exact ⟨_, rfl, (enterBitPath_kept s).trans (padInBlock_kept _)⟩
    · exact ⟨_, rfl, (enterBitPath_kept s).trans (padTwoBlocks_kept _)⟩
  | add => exact ⟨_, rfl, sum _⟩
  | add3 => exact ⟨_, rfl, sum _⟩
  | xor => exact ⟨_, rfl, same _⟩
  | and => exact ⟨_, rfl, same _⟩
  | not => exact ⟨_, rfl, same _⟩
  | ch => exact ⟨_, rfl, same _⟩
  | maj => exact ⟨_, rfl, same _⟩
  | rotr sh => exact ⟨_, rfl, same _⟩
  | shr sh => exact ⟨_, rfl, same _⟩
  | bsig0 => exact ⟨_, rfl, same _⟩
  | bsig1 => exact ⟨_, rfl, same _⟩
  | ssig0 => exact ⟨_, rfl, same _⟩
  | ssig1 => exact ⟨_, rfl, same _⟩
  | pack => exact ⟨_, rfl, same _⟩
  | unpack => exact ⟨_, rfl, same _⟩

end Sys2Proof.Machine
end

