-- ==== Sys2Proof/Laws/PerInstr.lean ====
section
/-! SUPPORT. The family EncodeMatches: one statement about a command as syntax, and one lemma per command. -/

namespace Sys2Proof.Laws

/-- The command's row stands in the opcode map, and the word the assembler writes for the command selects that row
(30_encoding.md R96, R97). -/
def EncodeMatches.Statement (i : Instr) : Prop := i.row ∈ opcodeRows ∧ i.row.selects (encode i) = true

/-- IMM5 does not reach the masked bits of a class S or C word. -/
theorem mask_imm5 (o : BitVec 8) (imm : BitVec 5) :
    (o.zeroExtend 32 ||| (imm.zeroExtend 32 <<< 8) ||| ((BitVec.ofBool false).zeroExtend 32 <<< 16)) &&& 0xFFFFE0FF#32 =
      o.zeroExtend 32 := by
  have himm : imm.zeroExtend 32 <<< 8 &&& 0xFFFFE0FF#32 = 0 := by revert imm; decide
  have ho : o.zeroExtend 32 &&& 0xFFFFE0FF#32 = o.zeroExtend 32 := by revert o; decide
  have hz : (BitVec.ofBool false).zeroExtend 32 <<< 16 = 0#32 := by decide
  rw [BitVec.and_comm, BitVec.and_or_distrib_left, BitVec.and_or_distrib_left, BitVec.and_comm, ho, BitVec.and_comm,
    himm, hz]
  simp

end Sys2Proof.Laws

theorem Sys2Proof.Laws.EncodeMatches.nop : Sys2Proof.Laws.EncodeMatches.Statement .nop := by
  unfold Sys2Proof.Laws.EncodeMatches.Statement; decide

theorem Sys2Proof.Laws.EncodeMatches.init : Sys2Proof.Laws.EncodeMatches.Statement .init := by
  unfold Sys2Proof.Laws.EncodeMatches.Statement; decide

theorem Sys2Proof.Laws.EncodeMatches.clrerr : Sys2Proof.Laws.EncodeMatches.Statement .clrerr := by
  unfold Sys2Proof.Laws.EncodeMatches.Statement; decide

theorem Sys2Proof.Laws.EncodeMatches.compress (last : Bool) : Sys2Proof.Laws.EncodeMatches.Statement (.compress last) := by
  unfold Sys2Proof.Laws.EncodeMatches.Statement; cases last <;> decide

theorem Sys2Proof.Laws.EncodeMatches.expand : Sys2Proof.Laws.EncodeMatches.Statement .expand := by
  unfold Sys2Proof.Laws.EncodeMatches.Statement; decide

theorem Sys2Proof.Laws.EncodeMatches.rstart : Sys2Proof.Laws.EncodeMatches.Statement .rstart := by
  unfold Sys2Proof.Laws.EncodeMatches.Statement; decide

theorem Sys2Proof.Laws.EncodeMatches.round : Sys2Proof.Laws.EncodeMatches.Statement .round := by
  unfold Sys2Proof.Laws.EncodeMatches.Statement; decide

theorem Sys2Proof.Laws.EncodeMatches.feedfwd (last : Bool) : Sys2Proof.Laws.EncodeMatches.Statement (.feedfwd last) := by
  unfold Sys2Proof.Laws.EncodeMatches.Statement; cases last <;> decide

theorem Sys2Proof.Laws.EncodeMatches.check : Sys2Proof.Laws.EncodeMatches.Statement .check := by
  unfold Sys2Proof.Laws.EncodeMatches.Statement; decide

theorem Sys2Proof.Laws.EncodeMatches.msgPush (n : Nat) : Sys2Proof.Laws.EncodeMatches.Statement (.msgPush n) :=
  ⟨(by decide : (Sys2Proof.Instr.msgPush 1).row ∈ Sys2Proof.opcodeRows),
    beq_iff_eq.2 (Sys2Proof.Laws.mask_imm5 _ _)⟩

theorem Sys2Proof.Laws.EncodeMatches.msgFinal : Sys2Proof.Laws.EncodeMatches.Statement .msgFinal := by
  unfold Sys2Proof.Laws.EncodeMatches.Statement; decide

theorem Sys2Proof.Laws.EncodeMatches.add : Sys2Proof.Laws.EncodeMatches.Statement .add := by
  unfold Sys2Proof.Laws.EncodeMatches.Statement; decide

theorem Sys2Proof.Laws.EncodeMatches.add3 : Sys2Proof.Laws.EncodeMatches.Statement .add3 := by
  unfold Sys2Proof.Laws.EncodeMatches.Statement; decide

theorem Sys2Proof.Laws.EncodeMatches.xor : Sys2Proof.Laws.EncodeMatches.Statement .xor := by
  unfold Sys2Proof.Laws.EncodeMatches.Statement; decide

theorem Sys2Proof.Laws.EncodeMatches.and : Sys2Proof.Laws.EncodeMatches.Statement .and := by
  unfold Sys2Proof.Laws.EncodeMatches.Statement; decide

theorem Sys2Proof.Laws.EncodeMatches.not : Sys2Proof.Laws.EncodeMatches.Statement .not := by
  unfold Sys2Proof.Laws.EncodeMatches.Statement; decide

theorem Sys2Proof.Laws.EncodeMatches.ch : Sys2Proof.Laws.EncodeMatches.Statement .ch := by
  unfold Sys2Proof.Laws.EncodeMatches.Statement; decide

theorem Sys2Proof.Laws.EncodeMatches.maj : Sys2Proof.Laws.EncodeMatches.Statement .maj := by
  unfold Sys2Proof.Laws.EncodeMatches.Statement; decide

theorem Sys2Proof.Laws.EncodeMatches.rotr (sh : Nat) : Sys2Proof.Laws.EncodeMatches.Statement (.rotr sh) :=
  ⟨(by decide : (Sys2Proof.Instr.rotr 0).row ∈ Sys2Proof.opcodeRows),
    beq_iff_eq.2 (Sys2Proof.Laws.mask_imm5 _ _)⟩

theorem Sys2Proof.Laws.EncodeMatches.shr (sh : Nat) : Sys2Proof.Laws.EncodeMatches.Statement (.shr sh) :=
  ⟨(by decide : (Sys2Proof.Instr.shr 0).row ∈ Sys2Proof.opcodeRows),
    beq_iff_eq.2 (Sys2Proof.Laws.mask_imm5 _ _)⟩

theorem Sys2Proof.Laws.EncodeMatches.bsig0 : Sys2Proof.Laws.EncodeMatches.Statement .bsig0 := by
  unfold Sys2Proof.Laws.EncodeMatches.Statement; decide

theorem Sys2Proof.Laws.EncodeMatches.bsig1 : Sys2Proof.Laws.EncodeMatches.Statement .bsig1 := by
  unfold Sys2Proof.Laws.EncodeMatches.Statement; decide

theorem Sys2Proof.Laws.EncodeMatches.ssig0 : Sys2Proof.Laws.EncodeMatches.Statement .ssig0 := by
  unfold Sys2Proof.Laws.EncodeMatches.Statement; decide

theorem Sys2Proof.Laws.EncodeMatches.ssig1 : Sys2Proof.Laws.EncodeMatches.Statement .ssig1 := by
  unfold Sys2Proof.Laws.EncodeMatches.Statement; decide

theorem Sys2Proof.Laws.EncodeMatches.pack : Sys2Proof.Laws.EncodeMatches.Statement .pack := by
  unfold Sys2Proof.Laws.EncodeMatches.Statement; decide

theorem Sys2Proof.Laws.EncodeMatches.unpack : Sys2Proof.Laws.EncodeMatches.Statement .unpack := by
  unfold Sys2Proof.Laws.EncodeMatches.Statement; decide
end

