-- ==== Sys2Proof/Laws/Step.lean ====
section
/-! SUPPORT. The step: what each kind of move can do, said once, so that no proof unfolds `step`, the host accesses or
the engine step. -/

namespace Sys2Proof.Machine

/-! ### The engine step (20_memory.md R71) -/

/-- The engine step in its three cases: nothing pending, a command, an illegal word. -/
theorem engineStep_cases (s : State) :
    (s.pending = none ∧ engineStep s = .next s) ∨
    (∃ c i, s.pending = some c ∧ decodeCmd c = .ok i ∧ engineStep s = exec i (clearPending s)) ∨
    ∃ c why, s.pending = some c ∧ decodeCmd c = .error why ∧
      engineStep s = .next (record .illegalCmd (clearPending s)) := by
  unfold engineStep
  cases hp : s.pending with
  | none => exact .inl ⟨rfl, rfl⟩
  | some c =>
    cases hd : decodeCmd c with
    | ok i => exact .inr (.inl ⟨c, i, rfl, hd, by simp [hd]⟩)
    | error why => exact .inr (.inr ⟨c, why, rfl, hd, by simp [hd, raise]⟩)

/-- The engine step never stops. -/
theorem engineStep_next (s : State) : ∃ t, engineStep s = .next t := by
  rcases engineStep_cases s with ⟨-, h⟩ | ⟨_, i, -, -, h⟩ | ⟨_, _, -, -, h⟩
  · exact ⟨_, h⟩
  · obtain ⟨t, ht, -⟩ := exec_next_kept i (clearPending s)
    exact ⟨t, h.trans ht⟩
  · exact ⟨_, h⟩

/-! ### Host accesses (20_memory.md R61, R66 to R69) -/

theorem accessAllowed_iff (bytes : Nat) (a : BitVec 12) :
    accessAllowed bytes a = true ↔ bytes = 4 ∧ a.toNat % 4 = 0 := by
  simp [accessAllowed]

theorem hostRead_allowed {bytes : Nat} {a : BitVec 12} (h : bytes = 4 ∧ a.toNat % 4 = 0) (s : State) :
    hostRead bytes a s = .next (readTarget (decodeOffset a.toNat) s) := by
  rw [hostRead, if_pos ((accessAllowed_iff _ _).2 h)]

theorem hostRead_refused {bytes : Nat} {a : BitVec 12} (h : ¬ (bytes = 4 ∧ a.toNat % 4 = 0)) (s : State) :
    hostRead bytes a s = .refused (.accessOutsideInterface bytes a) := by
  rw [hostRead, if_neg (mt (accessAllowed_iff _ _).1 h)]

theorem hostWrite_allowed {bytes : Nat} {a : BitVec 12} (h : bytes = 4 ∧ a.toNat % 4 = 0) (v : Word) (s : State) :
    hostWrite bytes a v s = .next (writeTarget (decodeOffset a.toNat) v s) := by
  rw [hostWrite, if_pos ((accessAllowed_iff _ _).2 h)]

theorem hostWrite_refused {bytes : Nat} {a : BitVec 12} (h : ¬ (bytes = 4 ∧ a.toNat % 4 = 0)) (v : Word)
    (s : State) : hostWrite bytes a v s = .refused (.accessOutsideInterface bytes a) := by
  rw [hostWrite, if_neg (mt (accessAllowed_iff _ _).1 h)]

/-- A read changes only what the host holds and the draw counter (20_memory.md R66, R69). -/
theorem readTarget_frame (tgt : Target) (s : State) :
    ∃ v d, readTarget tgt s = { s with rdata := some v, draws := d } := by
  unfold readTarget
  split
  · exact ⟨_, _, rfl⟩
  · exact ⟨_, s.draws, rfl⟩

/-- An exact read (20_memory.md R66). -/
theorem readTarget_exact (tgt : Target) (s : State) (h : s.busy = false ∨ tgt.exactWhileBusy = true) :
    readTarget tgt s = { s with rdata := some (targetValue s tgt) } := by
  unfold readTarget
  rcases h with h | h <;> simp [h]

/-- A read whose value is free (20_memory.md R69). -/
theorem readTarget_busy (tgt : Target) (s : State) (hb : s.busy = true) (ht : tgt.exactWhileBusy = false) :
    readTarget tgt s = { s with rdata := some (Config.busyRead s.draws), draws := s.draws + 1 } := by
  unfold readTarget
  simp [hb, ht]

/-- A write while BUSY = 1 (20_memory.md R68). -/
theorem writeTarget_busy (tgt : Target) (v : Word) (s : State) (hb : s.busy = true) :
    writeTarget tgt v s = { s with errcode := if s.errcode = .noError then .busy else s.errcode } := by
  rw [writeTarget, if_pos hb, record_eq]

/-- A write while BUSY = 0 (20_memory.md R67). -/
theorem writeTarget_idle (tgt : Target) (v : Word) (s : State) (hb : s.busy = false) :
    writeTarget tgt v s = writeIdle tgt v s := by
  simp [writeTarget, hb]

/-- What no host write changes: the elements the engine alone writes (10_state.md R56). -/
theorem writeTarget_engineState (tgt : Target) (v : Word) (s : State) :
    (writeTarget tgt v s).h = s.h ∧ (writeTarget tgt v s).fsm = s.fsm ∧ (writeTarget tgt v s).path = s.path ∧
    (writeTarget tgt v s).inblock = s.inblock ∧ (writeTarget tgt v s).t = s.t ∧
    (writeTarget tgt v s).len = s.len ∧ (writeTarget tgt v s).blkidx = s.blkidx ∧
    (writeTarget tgt v s).chkidx = s.chkidx ∧ (writeTarget tgt v s).chkok = s.chkok ∧
    (writeTarget tgt v s).r = s.r ∧ (writeTarget tgt v s).carry = s.carry ∧ (writeTarget tgt v s).wk = s.wk ∧
    (writeTarget tgt v s).agenda = s.agenda ∧ (writeTarget tgt v s).rdata = s.rdata ∧
    (writeTarget tgt v s).draws = s.draws := by
  unfold writeTarget
  split
  · simp
  · cases tgt with
    | m j =>
      simp only [writeIdle, writeBlockWord]
      split <;> simp
    | _ => simp [writeIdle]

/-- On the bit path, or while BUSY = 1, no host write reaches VMASK (20_memory.md R67, R68). -/
theorem writeTarget_vmask (tgt : Target) (v : Word) (s : State) (h : s.path = .bit) :
    (writeTarget tgt v s).vmask = s.vmask := by
  unfold writeTarget
  split
  · simp
  · cases tgt with
    | m j => simp [writeIdle, writeBlockWord, h]
    | _ => simp [writeIdle]

/-! ### The step (00_scope.md R19) -/

/-- The state with its agenda's first move taken off. -/
def popped (s : State) : State := { s with agenda := s.agenda.tail }

/-- Every step is one of: the engine's step, a host read, a host write, a refused host access, a reset. -/
theorem step_cases (s : State) :
    ((s.agenda = [] ∨ ∃ rest, s.agenda = .engine :: rest) ∧ step s = engineStep (popped s)) ∨
    (∃ a rest, s.agenda = .read 4 a :: rest ∧ a.toNat % 4 = 0 ∧
      step s = .next (readTarget (decodeOffset a.toNat) (popped s))) ∨
    (∃ a v rest, s.agenda = .write 4 a v :: rest ∧ a.toNat % 4 = 0 ∧
      step s = .next (writeTarget (decodeOffset a.toNat) v (popped s))) ∨
    (∃ bytes a, ¬ (bytes = 4 ∧ a.toNat % 4 = 0) ∧ step s = .refused (.accessOutsideInterface bytes a)) ∨
    ∃ rest, s.agenda = .reset :: rest ∧ step s = .next (assertReset (popped s)) := by
  unfold step popped
  split
  next h =>
    refine .inl ⟨.inl h, ?_⟩
    have : s = { s with agenda := s.agenda.tail } := by cases s; simp_all
    rw [← this]
  next rest h => exact .inl ⟨.inr ⟨rest, h⟩, by simp [h]⟩
  next bytes a rest h =>
    by_cases ha : bytes = 4 ∧ a.toNat % 4 = 0
    · obtain ⟨rfl, ha⟩ := ha
      exact .inr (.inl ⟨a, rest, h, ha, by rw [hostRead_allowed ⟨rfl, ha⟩]; simp [h]⟩)
    · exact .inr (.inr (.inr (.inl ⟨bytes, a, ha, hostRead_refused ha _⟩)))
  next bytes a v rest h =>
    by_cases ha : bytes = 4 ∧ a.toNat % 4 = 0
    · obtain ⟨rfl, ha⟩ := ha
      exact .inr (.inr (.inl ⟨a, v, rest, h, ha, by rw [hostWrite_allowed ⟨rfl, ha⟩]; simp [h]⟩))
    · exact .inr (.inr (.inr (.inl ⟨bytes, a, ha, hostWrite_refused ha v _⟩)))
  next rest h => exact .inr (.inr (.inr (.inr ⟨rest, h, by simp [h]⟩)))

end Sys2Proof.Machine
end

