-- ==== Sys2Proof/Machine/HostProgram.lean ====
section
/-! DEFINITION. Host program syntax and pseudo-instructions as lists of moves (30_encoding.md R103, R104). The host's
control flow is the host's own (10_state.md R51); a POLL is one read after the engine's step, which is enough in the
model (R104). -/

namespace Sys2Proof.Machine.HostProgram

/-- `RD name` (30_encoding.md R103). -/
def rd (tgt : Target) : Event := .read 4 tgt.offset

/-- `WR name, value` (30_encoding.md R103). -/
def wr (tgt : Target) (v : Word) : Event := .write 4 tgt.offset v

/-- `POLL`, with the engine's step before its read (30_encoding.md R104). -/
def poll : List Event := [.engine, rd .status]

/-- `ISSUE cmd` (30_encoding.md R104). -/
def issueCmd (i : Instr) : List Event := wr .cmd (encode i) :: poll

/-- `LOADBLK w0, …, w15` (30_encoding.md R104). -/
def loadBlk (blk : Vector Word 16) : List Event := (List.finRange 16).map fun j => wr (.m j) blk[j]

/-- `PUSH v, n` (30_encoding.md R104). -/
def push (v : Word) (n : Nat) : List Event := wr .bits v :: issueCmd (.msgPush n)

/-- `RDDIGEST` (30_encoding.md R104). -/
def rdDigest : List Event := (List.finRange 8).map fun i => rd (.h i)

/-- `ALU op, x, y, z` (30_encoding.md R104). -/
def alu (op : Instr) (x y z : Word) : List Event := [wr .x x, wr .y y, wr .z z] ++ issueCmd op ++ [rd .r]

/-- `HASHBLK.L w0..w15` (30_encoding.md R104). -/
def hashBlkL (blk : Vector Word 16) : List Event := loadBlk blk ++ issueCmd (.compress true)

/-- The loop of the word path: each padded block is loaded and compressed, the last with COMPRESS.L
(70_reset_and_hazards.md R275). -/
def compressBlocks : List (Vector Word 16) → List Event
  | [] => []
  | [blk] => hashBlkL blk
  | blk :: rest => loadBlk blk ++ issueCmd (.compress false) ++ compressBlocks rest

/-- The loop of the bit path: each group of up to 32 message bits is pushed in order (70_reset_and_hazards.md R275). -/
def pushGroups (groups : List (Word × Nat)) : List Event := groups.flatMap fun g => push g.1 g.2

/-- The sequence that hashes a message on the word path: INIT, the blocks, RDDIGEST (70_reset_and_hazards.md R275). -/
def hashBlocks (blks : List (Vector Word 16)) : List Event := issueCmd .init ++ compressBlocks blks ++ rdDigest

/-- The sequence that hashes a message on the bit path: INIT, the pushes, MSG_FINAL, RDDIGEST
(70_reset_and_hazards.md R275). -/
def hashPushes (groups : List (Word × Nat)) : List Event :=
  issueCmd .init ++ pushGroups groups ++ issueCmd .msgFinal ++ rdDigest

end Sys2Proof.Machine.HostProgram
end

