-- ==== Sys2Proof/Tests/Slice0.lean ====
section
/-! SUPPORT. Tests: what WellFormed refuses, the words of the encodings, small runs against spec/95_test_vectors.md,
and for each statement with hypotheses a witness that meets them. -/

namespace Sys2Proof.Tests

open Sys2Proof.Machine

/-! ### Well-formedness (30_encoding.md R93, R94, R102) -/

theorem test_wf_msgPush_zero_refused : (Instr.msgPush 0).wellFormed = false := by decide
theorem test_wf_msgPush_33_refused : (Instr.msgPush 33).wellFormed = false := by decide
theorem test_wf_rotr_32_refused : (Instr.rotr 32).wellFormed = false := by decide
theorem test_wf_shr_32_refused : (Instr.shr 32).wellFormed = false := by decide
theorem test_wf_bounds_accepted :
    (Instr.msgPush 1).wellFormed ∧ (Instr.msgPush 32).wellFormed ∧ (Instr.rotr 31).wellFormed ∧
      (Instr.shr 0).wellFormed := by decide
theorem test_assemble_refuses_range :
    assemble (.rotr 32) = none ∧ assemble (.msgPush 33) = none ∧ assemble (.msgPush 24) = some 0x00001720 := by decide

/-! ### Decoding: words written out from the fields RES1, L, RES0, IMM5, OPC (30_encoding.md R91, R96) -/

theorem test_decode_nop : decodeCmd 0b000000000000000_0_000_00000_00000000 = .ok .nop := by decide
theorem test_decode_init : decodeCmd 0b000000000000000_0_000_00000_00000001 = .ok .init := by decide
theorem test_decode_clrerr : decodeCmd 0b000000000000000_0_000_00000_00000010 = .ok .clrerr := by decide
theorem test_decode_compress :
    decodeCmd 0b000000000000000_0_000_00000_00010000 = .ok (.compress false) ∧
    decodeCmd 0b000000000000000_1_000_00000_00010000 = .ok (.compress true) := by decide
theorem test_decode_expand : decodeCmd 0b000000000000000_0_000_00000_00010001 = .ok .expand := by decide
theorem test_decode_rstart : decodeCmd 0b000000000000000_0_000_00000_00010010 = .ok .rstart := by decide
theorem test_decode_round : decodeCmd 0b000000000000000_0_000_00000_00010011 = .ok .round := by decide
theorem test_decode_feedfwd :
    decodeCmd 0b000000000000000_0_000_00000_00010100 = .ok (.feedfwd false) ∧
    decodeCmd 0b000000000000000_1_000_00000_00010100 = .ok (.feedfwd true) := by decide
theorem test_decode_check : decodeCmd 0b000000000000000_0_000_00000_00010101 = .ok .check := by decide
theorem test_decode_msgPush :
    decodeCmd 0b000000000000000_0_000_00000_00100000 = .ok (.msgPush 1) ∧
    decodeCmd 0b000000000000000_0_000_10111_00100000 = .ok (.msgPush 24) ∧
    decodeCmd 0b000000000000000_0_000_11111_00100000 = .ok (.msgPush 32) := by decide
theorem test_decode_msgFinal : decodeCmd 0b000000000000000_0_000_00000_00100001 = .ok .msgFinal := by decide
theorem test_decode_add : decodeCmd 0b000000000000000_0_000_00000_01000000 = .ok .add := by decide
theorem test_decode_add3 : decodeCmd 0b000000000000000_0_000_00000_01000001 = .ok .add3 := by decide
theorem test_decode_xor : decodeCmd 0b000000000000000_0_000_00000_01000010 = .ok .xor := by decide
theorem test_decode_and : decodeCmd 0b000000000000000_0_000_00000_01000011 = .ok .and := by decide
theorem test_decode_not : decodeCmd 0b000000000000000_0_000_00000_01000100 = .ok .not := by decide
theorem test_decode_ch : decodeCmd 0b000000000000000_0_000_00000_01000101 = .ok .ch := by decide
theorem test_decode_maj : decodeCmd 0b000000000000000_0_000_00000_01000110 = .ok .maj := by decide
theorem test_decode_rotr :
    decodeCmd 0b000000000000000_0_000_00111_01001000 = .ok (.rotr 7) ∧
    decodeCmd 0b000000000000000_0_000_11111_01001000 = .ok (.rotr 31) := by decide
theorem test_decode_shr :
    decodeCmd 0b000000000000000_0_000_01010_01001001 = .ok (.shr 10) ∧
    decodeCmd 0b000000000000000_0_000_00000_01001001 = .ok (.shr 0) := by decide
theorem test_decode_bsig0 : decodeCmd 0b000000000000000_0_000_00000_01001100 = .ok .bsig0 := by decide
theorem test_decode_bsig1 : decodeCmd 0b000000000000000_0_000_00000_01001101 = .ok .bsig1 := by decide
theorem test_decode_ssig0 : decodeCmd 0b000000000000000_0_000_00000_01001110 = .ok .ssig0 := by decide
theorem test_decode_ssig1 : decodeCmd 0b000000000000000_0_000_00000_01001111 = .ok .ssig1 := by decide
theorem test_decode_pack : decodeCmd 0b000000000000000_0_000_00000_01010000 = .ok .pack := by decide
theorem test_decode_unpack : decodeCmd 0b000000000000000_0_000_00000_01010001 = .ok .unpack := by decide

/-- D-ILL-1 to D-ILL-9 of spec/95_test_vectors.md. -/
theorem test_decode_illegal :
    decodeCmd 0x00000003 = .error .opcode ∧ decodeCmd 0x000000FF = .error .opcode ∧
    decodeCmd 0x00000047 = .error .opcode ∧ decodeCmd 0x00000111 = .error .immediate ∧
    decodeCmd 0x00000110 = .error .immediate ∧ decodeCmd 0x00010048 = .error .lastFlag ∧
    decodeCmd 0x00010020 = .error .lastFlag ∧ decodeCmd 0x00002000 = .error .reserved ∧
    decodeCmd 0x80000000 = .error .reserved := by decide

/-! ### The step from reset -/

/-- A step answers a next state. -/
def isNext : Answer → Bool
  | .next _ => true
  | .fault _ => false
  | .refused _ => false

/-- Every row's word runs as the first command after reset (20_memory.md R71). -/
theorem test_step_runs_every_row :
    ([0x00, 0x01, 0x02, 0x10, 0x11, 0x12, 0x13, 0x14, 0x15, 0x20, 0x21] ++
      [0x40, 0x41, 0x42, 0x43, 0x44, 0x45, 0x46, 0x48, 0x49, 0x4C, 0x4D, 0x4E, 0x4F, 0x50, 0x51] : List Nat).all
      (fun w => (decodeTableWord 32 w).isSome && isNext (step (State.reset.withFetchWord 32 w))) = true := by decide

/-! ### Constants (10_state.md R44, R45) -/

/-- The first 64 primes, by trial division. -/
def primes : List Nat := (List.range 312).filter fun n => decide (2 ≤ n) && (List.range' 2 (n - 2)).all fun d => n % d != 0

/-- K[t] is `floor(cbrt(p) * 2^32) mod 2^32` for the (t+1)-th prime p: with some integer part a, the number
q = a * 2^32 + K[t] has q^3 <= p * 2^96 < (q + 1)^3. -/
theorem test_K_are_cube_roots_of_primes :
    primes.length = 64 ∧ (List.finRange 64).all (fun t => (List.range 7).any fun a =>
      let q := a * 2 ^ 32 + Rom.K[t].toNat
      decide (q ^ 3 ≤ primes.getD t 0 * 2 ^ 96) && decide (primes.getD t 0 * 2 ^ 96 < (q + 1) ^ 3)) = true := by
  decide +kernel

/-- IV[i] is `isqrt(p * 2^64) mod 2^32` for the (i+1)-th prime p. -/
theorem test_IV_are_square_roots_of_primes :
    (List.finRange 8).all (fun i => (List.range 5).any fun a =>
      let q := a * 2 ^ 32 + Rom.IV[i].toNat
      decide (q ^ 2 ≤ primes.getD i 0 * 2 ^ 64) && decide (primes.getD i 0 * 2 ^ 64 < (q + 1) ^ 2)) = true := by
  decide +kernel

/-! ### Helper states -/

/-- The state after reset with zeros for the draws, so that a test can be evaluated. -/
def zero : State :=
  { State.reset with
    wk := Vector.replicate 8 0, m := Vector.replicate 16 0, w := Vector.replicate 64 0, t1 := Vector.replicate 64 0,
    t2 := Vector.replicate 64 0, wr := Vector.replicate 64 (Vector.replicate 8 0), hin := Vector.replicate 8 0,
    hout := Vector.replicate 8 0 }

/-- Operands for the datapath tests. -/
def operands (x y z : Word) : State := { zero with x := x, y := y, z := z }

/-- R and CARRY after an answer. -/
def resultOf : Answer → Option (Word × BitVec 2)
  | .next t => some (t.r, t.carry)
  | .fault _ => none
  | .refused _ => none

/-- A field after an answer. -/
def after {α : Type} (f : State → α) : Answer → Option α
  | .next t => some (f t)
  | .fault _ => none
  | .refused _ => none

/-- The padded block of "abc" (95_test_vectors.md S1). -/
def abc : Vector Word 16 := #v[0x61626380, 0, 0, 0, 0, 0, 0, 0, 0, 0, 0, 0, 0, 0, 0, 0x00000018]

/-- The digest of "abc" (95_test_vectors.md S1). -/
def abcDigest : Vector Word 8 :=
  #v[0xba7816bf, 0x8f01cfea, 0x414140de, 0x5dae2223, 0xb00361a3, 0x96177a9c, 0xb410ff61, 0xf20015ad]

/-- A block loaded by the host. -/
def loaded (blk : Vector Word 16) : State := loadBlock blk zero

/-! ### Control commands (95_test_vectors.md, control) -/

/-- 40_control.md R111. -/
theorem test_nop_keeps_all : exec .nop (operands 1 2 3) = .next (operands 1 2 3) := rfl
/-- D-CTL-2 and D-CTL-3: INIT restores H and keeps ERRCODE. -/
theorem test_init_keeps_error :
    after (fun t => (t.h, t.fsm, t.errcode)) (exec .init
      { zero with h := abcDigest, fsm := .finalized, errcode := .illegalCmd }) =
      some (Rom.IV, .initialized, .illegalCmd) := by decide
/-- D-CTL-4. -/
theorem test_clrerr_clears : after (fun t => (t.errcode, t.err)) (exec .clrerr { zero with errcode := .illegalCmd }) =
    some (.noError, false) := by decide
/-- D-ILL-1: STATUS = 0x08 and ERRCODE = 4 after an illegal word from reset. -/
theorem test_illegal_records : after (fun t => (statusWord t, t.errcode.code)) (step (zero.withFetchWord 32 0x03)) =
    some (0x00000008, 4) := by decide
/-- D-ERR-2: decoding comes before the checks. -/
theorem test_illegal_before_sequence :
    after (fun t => t.errcode) (step (zero.withFetchWord 32 0x00010013)) = some .illegalCmd := by decide

/-! ### Datapath (95_test_vectors.md, D-ALU and D-SH) -/

theorem test_add_carries : resultOf (exec .add (operands 0x6a09e667 0xbb67ae85 0)) = some (0x257194ec, 1) := by decide
theorem test_add_wraps : resultOf (exec .add (operands 0xffffffff 1 0)) = some (0, 1) := by decide
theorem test_add3_value :
    resultOf (exec .add3 (operands 0x6a09e667 0xbb67ae85 0x3c6ef372)) = some (0x61e0885e, 1) := by decide
theorem test_add3_largest :
    resultOf (exec .add3 (operands 0xffffffff 0xffffffff 0xffffffff)) = some (0xfffffffd, 2) := by decide
/-- D-ALU-6, with the CARRY of an earlier ADD3 kept. -/
theorem test_xor_keeps_carry :
    resultOf (exec .xor { operands 0x6a09e667 0xbb67ae85 0 with carry := 2 }) = some (0xd16e48e2, 2) := by decide
theorem test_and_value : resultOf (exec .and (operands 0x6a09e667 0xbb67ae85 0)) = some (0x2a01a605, 0) := by decide
theorem test_not_value : resultOf (exec .not (operands 0x6a09e667 0 0)) = some (0x95f61998, 0) := by decide
theorem test_ch_value :
    resultOf (exec .ch (operands 0x510e527f 0x9b05688c 0x1f83d9ab)) = some (0x1f85c98c, 0) := by decide
theorem test_maj_value :
    resultOf (exec .maj (operands 0x6a09e667 0xbb67ae85 0x3c6ef372)) = some (0x3a6fe667, 0) := by decide
theorem test_rotr_7 : resultOf (exec (.rotr 7) (operands 0x80000001 0 0)) = some (0x03000000, 0) := by decide
theorem test_rotr_31 : resultOf (exec (.rotr 31) (operands 0x80000001 0 0)) = some (0x00000003, 0) := by decide
theorem test_shr_10 : resultOf (exec (.shr 10) (operands 0x80000001 0 0)) = some (0x00200000, 0) := by decide
theorem test_shr_0 : resultOf (exec (.shr 0) (operands 0x12345678 0 0)) = some (0x12345678, 0) := by decide
theorem test_bsig0_value : resultOf (exec .bsig0 (operands 0x6a09e667 0 0)) = some (0xce20b47e, 0) := by decide
theorem test_bsig1_value : resultOf (exec .bsig1 (operands 0x510e527f 0 0)) = some (0x3587272b, 0) := by decide
theorem test_ssig0_value : resultOf (exec .ssig0 (operands 0x12345678 0 0)) = some (0xe7fce6ee, 0) := by decide
theorem test_ssig1_value : resultOf (exec .ssig1 (operands 0x6a09e667 0 0)) = some (0xcfe5da3c, 0) := by decide

/-! ### Codec (95_test_vectors.md, D-COD) -/

theorem test_pack_identity : resultOf (exec .pack (operands 0x61626300 0 0)) = some (0x61626300, 0) := by decide +kernel
theorem test_pack_lsb_first :
    resultOf (exec .pack { operands 0x00c64686 0 0 with endian := true }) = some (0x61626300, 0) := by decide +kernel
theorem test_unpack_lsb_first :
    resultOf (exec .unpack { operands 0x12345678 0 0 with endian := true }) = some (0x1e6a2c48, 0) := by decide +kernel
theorem test_unpack_identity : resultOf (exec .unpack (operands 0x12345678 0 0)) = some (0x12345678, 0) := by decide +kernel

/-! ### Bit path (95_test_vectors.md, D-PAD) -/

/-- D-PAD-9. -/
theorem test_push_24 :
    after (fun t => (t.len, t.m[0], statusWord t)) (exec (.msgPush 24) { zero with bits := 0x61626300 }) =
      some (24, 0x61626300, 0x00000040) := by decide +kernel
/-- D-PAD-15. -/
theorem test_push_overflow :
    after (fun t => (t.errcode.code, t.len)) (exec (.msgPush 1) { zero with path := .bit, len := 2 ^ 64 - 1 }) =
      some (7, 2 ^ 64 - 1) := by decide +kernel
/-- D-PAD-10, from the state of D-PAD-9. -/
theorem test_final_abc :
    after (fun t => (t.m, t.h, t.blkidx, statusWord t, t.len))
      (exec .msgFinal { zero with path := .bit, len := 24, m := abc.set 0 0x61626300 }) =
      some (abc, abcDigest, 1, 0x00000044, 24) := by decide +kernel
/-- D-PAD-13: LENGTH_MISMATCH. -/
theorem test_final_bypassed_mismatch :
    after (fun t => (t.errcode.code, statusWord t)) (exec .msgFinal { zero with path := .bit, len := 24, padbyp := true }) =
      some (1, 0x00000048) := by decide

/-! ### Scheduler and compression (95_test_vectors.md, D-SCH and D-CMP) -/

/-- D-SCH-1. -/
theorem test_expand_abc :
    after (fun t => (t.w[16], t.w[17], t.w[18], t.w[63], t.vmask, statusWord t)) (exec .expand (loaded abc)) =
      some (0x61626380, 0x000f0000, 0x7da86405, 0x12b1edeb, 0, 0x00000020) := by decide +kernel
/-- D-SCH-3. -/
theorem test_expand_malformed :
    after (fun t => (t.errcode.code, t.vmask, t.path)) (exec .expand { zero with vmask := 0x7fff }) =
      some (2, 0x7fff, .none) := by decide
/-- D-CMP-1. -/
theorem test_rstart_loads :
    after (fun t => (t.wk, t.hin, t.t, statusWord t)) (exec .rstart zero) =
      some (Rom.IV, Rom.IV, 0, 0x00000030) := by decide
/-- D-CMP-12. -/
theorem test_rstart_twice :
    after (fun t => (t.errcode.code, statusWord t)) (exec .rstart { zero with inblock := true, path := .word }) =
      some (5, 0x00000038) := by decide
/-- D-CMP-2. -/
theorem test_round_abc :
    after (fun t => (t.t1[0], t.t2[0], t.wk, t.t))
      (exec .round { zero with wk := Rom.IV, inblock := true, path := .word, w := zero.w.set 0 0x61626380 }) =
      some (0x54da50e8, 0x08909ae5,
        #v[0x5d6aebcd, 0x6a09e667, 0xbb67ae85, 0x3c6ef372, 0xfa2a4622, 0x510e527f, 0x9b05688c, 0x1f83d9ab], 1) := by
  decide +kernel
/-- D-CMP-4. -/
theorem test_round_65th :
    after (fun t => (t.errcode.code, t.t)) (exec .round { zero with t := 64, inblock := true, path := .word }) =
      some (5, 64) := by decide
/-- D-CMP-5, from the WK of D-CMP-3. -/
theorem test_feedfwd_abc :
    after (fun t => (t.h, t.hout, t.blkidx, statusWord t)) (exec (.feedfwd true) { zero with
      t := 64, inblock := true, path := .word,
      wk := #v[0x506e3058, 0xd39a2165, 0x04d24d6c, 0xb85e2ce9, 0x5ef50f24, 0xfb121210, 0x948d25b6, 0x961f4894] }) =
      some (abcDigest, abcDigest, 1, 0x00000024) := by decide +kernel
/-- D-CMP-11. -/
theorem test_feedfwd_early :
    after (fun t => (t.errcode.code, t.t)) (exec (.feedfwd false) { zero with t := 10, inblock := true, path := .word }) =
      some (5, 10) := by decide
/-- D-CMP-6. -/
theorem test_compress_abc :
    after (fun t => (t.h, t.blkidx, statusWord t, t.vmask, t.t)) (exec (.compress true) (loaded abc)) =
      some (abcDigest, 1, 0x00000024, 0, 64) := by decide +kernel
/-- D-CMP-14's partner: COMPRESS on the bit path is out of sequence. -/
theorem test_compress_on_bit_path :
    after (fun t => t.errcode.code) (exec (.compress false) { loaded abc with path := .bit }) = some 5 := by decide

/-! ### Verifier -/

/-- In an all-zero witness every schedule equation holds and equation 64 is the first false one, since T1[0] = 0 and
K[0] is not (46_verifier.md R221, R222, R224). -/
theorem test_check_zero_witness :
    after (fun t => (t.chkidx, t.chkok, t.errcode.code)) (exec .check zero) = some (64, false, 3) := by decide +kernel
/-- D-CHK-20's form: HOUT[7] is the left side of the last equation, index 711 (46_verifier.md R223). -/
theorem test_equation_last :
    (Equation.feedForward 7).index = 711 ∧ (Equation.round 63 9).index = 703 ∧ (Equation.round 5 0).index = 114 := by
  decide

/-! ### Register space (95_test_vectors.md, D-ERR) -/

/-- D-ERR-4: STATUS is exact while busy. -/
theorem test_read_status_busy :
    after (fun t => t.rdata) (step { zero with pending := some 0, agenda := [.read 4 0x008] }) =
      some (some 0x00000001) := by decide
/-- D-ERR-5 and D-ERR-8. -/
theorem test_read_reserved_and_id :
    after (fun t => t.rdata) (step { zero with agenda := [.read 4 0xC40] }) = some (some 0) ∧
    after (fun t => t.rdata) (step { zero with agenda := [.read 4 0x000] }) = some (some 0x53484132) := by decide
/-- D-PAD-16: a write of M on the bit path records SEQUENCE. -/
theorem test_write_m_on_bit_path :
    after (fun t => (t.errcode.code, t.m[0], t.vmask))
      (step { zero with path := .bit, agenda := [.write 4 0x080 5] }) = some (5, 0, 0) := by decide
/-- 20_memory.md R67: a write of M[15] marks it. -/
theorem test_write_m_marks :
    after (fun t => (t.m[15], t.vmask)) (step { zero with vmask := 0x7fff, agenda := [.write 4 0x0BC 9] }) =
      some (9, 0xffff) := by decide
/-- 30_encoding.md R103, R104: `ISSUE ADD` writes CMD, lets the engine step, and reads STATUS. -/
theorem test_issue_moves :
    HostProgram.issueCmd .add = [.write 4 0x00C 0x00000040, .engine, .read 4 0x008] := by decide
/-- 70_reset_and_hazards.md R275: the word path's sequence begins with INIT, ends with the eight reads of H, and
compresses the last block with COMPRESS.L. -/
theorem test_hashBlocks_sequence :
    HostProgram.hashBlocks [abc, abc] =
      [.write 4 0x00C 0x00000001, .engine, .read 4 0x008] ++
      HostProgram.loadBlk abc ++ [.write 4 0x00C 0x00000010, .engine, .read 4 0x008] ++
      HostProgram.loadBlk abc ++ [.write 4 0x00C 0x00010010, .engine, .read 4 0x008] ++
      [.read 4 0x0C0, .read 4 0x0C4, .read 4 0x0C8, .read 4 0x0CC] ++
      [.read 4 0x0D0, .read 4 0x0D4, .read 4 0x0D8, .read 4 0x0DC] := by decide +kernel
/-- 70_reset_and_hazards.md R275: the bit path's sequence for "abc". -/
theorem test_hashPushes_sequence :
    HostProgram.hashPushes [(0x61626300, 24)] =
      [.write 4 0x00C 0x00000001, .engine, .read 4 0x008, .write 4 0x028 0x61626300] ++
      [.write 4 0x00C 0x00001720, .engine, .read 4 0x008, .write 4 0x00C 0x00000021, .engine, .read 4 0x008] ++
      [.read 4 0x0C0, .read 4 0x0C4, .read 4 0x0C8, .read 4 0x0CC] ++
      [.read 4 0x0D0, .read 4 0x0D4, .read 4 0x0D8, .read 4 0x0DC] := by decide +kernel
/-- 42_codec.md R158, 20_memory.md R75: the digest as the host reads it. -/
theorem test_digest_bytes :
    digestByte { zero with h := abcDigest } 0 = 0xba ∧ digestByte { zero with h := abcDigest } 31 = 0xad ∧
    digestBit { zero with h := abcDigest } 0 = true ∧ digestBit { zero with h := abcDigest } 1 = false := by decide

/-! ### Witnesses: states and operands that meet the hypotheses of the statements, at the bounds of their ranges -/

theorem test_witness_DecodeOfEncode :
    (Instr.rotr 31).WellFormed ∧ (Instr.msgPush 1).WellFormed ∧ (Instr.msgPush 32).WellFormed ∧
      (Instr.compress true).WellFormed := by decide

theorem test_witness_EncodeOfDecode :
    ∃ (c : Word) (i j : Instr), decodeCmd c = .ok i ∧ j.WellFormed ∧ encode j = c :=
  ⟨0x00001F20, .msgPush 32, .msgPush 32, by decide⟩

/-- The unassigned ranges of OPC at their ends, and their legal neighbours. -/
theorem test_witness_IllegalWordsExactly :
    ([0x03, 0x0F, 0x16, 0x1F, 0x22, 0x3F, 0x47, 0x4A, 0x4B, 0x52, 0xFF] : List Word).all
      (fun c => decodeCmd c == .error .opcode) = true ∧
    ([0x02, 0x10, 0x15, 0x20, 0x21, 0x40, 0x46, 0x48, 0x49, 0x4C, 0x51] : List Word).all
      (fun c => decodeCmd c != .error .opcode) = true ∧
    ∃ (s : State) (c : Word) (why : Illegal), s.pending = some c ∧ decodeCmd c = .error why :=
  ⟨by decide, by decide, { zero with pending := some 3 }, 3, .opcode, by decide⟩

theorem test_witness_MaskAndMatchSelectRow :
    ∃ (c : Word) (r : Row), r ∈ opcodeRows ∧ r.selects c = true := ⟨0x00000748, (Instr.rotr 7).row, by decide⟩

theorem test_witness_StepExecutesPendingCommand :
    (∃ (s : State) (c : Word) (i : Instr), s.pending = some c ∧ decodeCmd c = .ok i ∧ s.agenda = []) ∧
    (∃ (s : State) (c : Word) (i : Instr) (rest : List Event),
      s.pending = some c ∧ decodeCmd c = .ok i ∧ s.agenda = .engine :: rest) ∧
    (∃ s : State, s.pending = none ∧ s.agenda = []) ∧
    ∃ (s : State) (rest : List Event), s.pending = none ∧ s.agenda = .engine :: rest :=
  ⟨⟨{ zero with pending := some 0x40 }, 0x40, .add, by decide⟩,
    ⟨{ zero with pending := some 0x40, agenda := [.engine] }, 0x40, .add, [], by decide⟩,
    ⟨zero, by decide⟩, { zero with agenda := [.engine] }, [], by decide⟩

theorem test_witness_EveryCommandCompletes : ∃ (s : State) (c : Word), s.pending = some c :=
  ⟨{ zero with pending := some 0xFFFFFFFF }, 0xFFFFFFFF, rfl⟩

theorem test_witness_NopChangesNothing : ∃ s : State, s.pending = some 0x00000000 :=
  ⟨{ zero with pending := some 0 }, rfl⟩

theorem test_witness_shift_amounts : (0 : Nat) ≤ 31 ∧ (31 : Nat) ≤ 31 := by decide

theorem test_witness_DatapathTouchesOnlyResult :
    ∃ (i : Instr) (a : BitVec 12), i ∈ [Instr.add, .xor] ∧ i ≠ .add ∧ i ≠ .add3 ∧
      decodeOffset a.toNat ≠ .r ∧ decodeOffset a.toNat ≠ .carry := ⟨.xor, 0x038, by decide⟩

theorem test_witness_DatapathDependsOnOperandsOnly :
    ∃ s s' : State, s ≠ s' ∧ s.x = s'.x ∧ s.y = s'.y ∧ s.z = s'.z :=
  ⟨operands 1 2 3, { operands 1 2 3 with endian := true, carry := 2, fsm := .finalized },
    fun h => absurd (congrArg State.endian h) (by decide), rfl, rfl, rfl⟩

theorem test_witness_CodecConvertsLaneOrder :
    (∃ s : State, s.endian = false) ∧ ∃ s : State, s.endian = true := ⟨⟨zero, rfl⟩, { zero with endian := true }, rfl⟩

/-- P + n = 511 is the last push without a fill; L = 2^64 - 33 the last length for 32 bits (D-PAD-14). -/
theorem test_witness_PushWithoutFill :
    (∃ (s : State) (n : Nat), 1 ≤ n ∧ n ≤ 32 ∧ s.fsm ≠ .finalized ∧ s.path ≠ .word ∧
      s.len.toNat + n ≤ 2 ^ 64 - 1 ∧ s.len.toNat % 512 + n = 511) ∧
    ∃ (s : State) (n : Nat), 1 ≤ n ∧ n ≤ 32 ∧ s.fsm ≠ .finalized ∧ s.path ≠ .word ∧
      s.len.toNat + n = 2 ^ 64 - 1 ∧ s.len.toNat % 512 + n < 512 :=
  ⟨⟨{ zero with path := .bit, len := 510 }, 1, by decide⟩,
    { zero with path := .bit, len := 2 ^ 64 - 33 }, 32, by decide +kernel⟩

/-- P + n = 512 fills exactly; P = 511 with n = 32 leaves 31 bits for the next block. -/
theorem test_witness_PushWithFill :
    (∃ (s : State) (n : Nat), 1 ≤ n ∧ n ≤ 32 ∧ s.fsm ≠ .finalized ∧ s.path ≠ .word ∧
      s.len.toNat + n ≤ 2 ^ 64 - 1 ∧ s.len.toNat % 512 + n = 512) ∧
    ∃ (s : State) (n : Nat), 1 ≤ n ∧ n ≤ 32 ∧ s.fsm ≠ .finalized ∧ s.path ≠ .word ∧
      s.len.toNat + n ≤ 2 ^ 64 - 1 ∧ s.len.toNat % 512 + n = 543 :=
  ⟨⟨{ zero with path := .bit, len := 480 }, 32, by decide⟩, { zero with path := .bit, len := 511 }, 32, by decide⟩

/-- Right after reset the bit path holds the empty message. -/
theorem test_holds_empty_message : HoldsMessage zero [] where
  path := by decide
  fsm := by decide
  len := by decide
  chain := by decide
  tail := fun p h => absurd h (by simp)

/-- After one 1 bit the bit path holds that bit. -/
theorem test_holds_one_bit :
    HoldsMessage { zero with path := .bit, len := 1, m := zero.m.set 0 0x80000000 } [true] where
  path := by decide
  fsm := by decide
  len := by decide
  chain := by decide
  tail := fun p h => by
    have hp : p = 0 := Fin.ext (by simpa using h)
    subst hp
    decide

theorem test_witness_PushAppendsToMessage :
    ∃ (s : State) (msg : List Bool) (n : Nat), HoldsMessage s msg ∧ 1 ≤ n ∧ n ≤ 32 ∧ msg.length + n ≤ 2 ^ 64 - 1 :=
  ⟨_, [true], 32, test_holds_one_bit, by decide⟩

theorem test_witness_FinalGivesMessageDigest : ∃ (s : State) (msg : List Bool), HoldsMessage s msg ∧ s.padbyp = false :=
  ⟨_, [true], test_holds_one_bit, rfl⟩

/-- P = 447, the last length that needs no extra block. -/
theorem test_witness_FinalPadsInOneBlock :
    ∃ s : State, s.fsm ≠ .finalized ∧ s.path ≠ .word ∧ s.padbyp = false ∧ s.len.toNat % 512 = 447 :=
  ⟨{ zero with path := .bit, len := 447 }, by decide⟩

/-- P = 448, the first length that needs an extra block, and P = 511. -/
theorem test_witness_FinalPadsInTwoBlocks :
    (∃ s : State, s.fsm ≠ .finalized ∧ s.path ≠ .word ∧ s.padbyp = false ∧ s.len.toNat % 512 = 448) ∧
    ∃ s : State, s.fsm ≠ .finalized ∧ s.path ≠ .word ∧ s.padbyp = false ∧ s.len.toNat % 512 = 511 :=
  ⟨⟨{ zero with path := .bit, len := 448 }, by decide⟩, { zero with path := .bit, len := 511 }, by decide⟩

theorem test_witness_FinalBypassed :
    (∃ s : State, s.fsm ≠ .finalized ∧ s.path ≠ .word ∧ s.padbyp = true ∧ s.len.toNat % 512 = 0) ∧
    ∃ s : State, s.fsm ≠ .finalized ∧ s.path ≠ .word ∧ s.padbyp = true ∧ s.len.toNat % 512 ≠ 0 :=
  ⟨⟨{ zero with padbyp := true, path := .bit, len := 512 }, by decide⟩,
    { zero with padbyp := true, path := .bit, len := 513 }, by decide⟩

/-- The block commands in sequence with a whole block, out of sequence in each of the three ways, and with one word of
the block missing: EXPAND, COMPRESS and, without the mask, RSTART. -/
theorem test_witness_block_commands :
    (∃ s : State, s.fsm ≠ .finalized ∧ s.path ≠ .bit ∧ s.inblock = false ∧ s.vmask = 0xFFFF) ∧
    (∃ s : State, s.fsm = .finalized) ∧ (∃ s : State, s.path = .bit) ∧ (∃ s : State, s.inblock = true) ∧
    ∃ s : State, s.fsm ≠ .finalized ∧ s.path ≠ .bit ∧ s.inblock = false ∧ s.vmask ≠ 0xFFFF :=
  ⟨⟨{ loaded abc with fsm := .processing, path := .word }, by decide⟩, ⟨{ zero with fsm := .finalized }, rfl⟩,
    ⟨{ zero with path := .bit }, rfl⟩, ⟨{ zero with inblock := true }, rfl⟩, { zero with vmask := 0x7FFF }, by decide⟩

/-- ROUND runs at t = 0 and t = 63, FEEDFWD at t = 64; each is out of sequence elsewhere. -/
theorem test_witness_stepping :
    (∃ s : State, s.t.val = 0 ∧ s.inblock = true) ∧ (∃ s : State, s.t.val = 63 ∧ s.t.val < 64 ∧ s.inblock = true) ∧
    (∃ s : State, s.inblock = true ∧ s.t.val = 64) ∧ (∃ s : State, s.inblock = false) ∧
    ∃ s : State, s.inblock = true ∧ s.t.val ≠ 64 :=
  ⟨⟨{ zero with inblock := true }, by decide⟩, ⟨{ zero with inblock := true, t := 63 }, by decide⟩,
    ⟨{ zero with inblock := true, t := 64 }, by decide⟩, ⟨zero, rfl⟩, { zero with inblock := true, t := 63 }, by decide⟩

theorem test_witness_WordPathGivesDigest :
    ∃ (blks : List (Vector Word 16)) (s : State), blks ≠ [] ∧ s.fsm ≠ .finalized ∧ s.path ≠ .bit ∧
      s.inblock = false ∧ s.h = Rom.IV := ⟨[abc, abc], zero, by decide⟩

/-- A valid witness is what the engine leaves; the all-zero witness is not valid. -/
theorem test_witness_CheckFindsFirstFalse : (∃ s : State, WitnessValid s) ∧ ∃ s : State, ¬ WitnessValid s :=
  ⟨⟨compressBlock abc true zero, compressBlock_witness _ _ _⟩,
    zero, fun h => absurd (h (.round 0 0)) (by decide +kernel)⟩

/-- The indices' ends, and the input of the first and of a later round. -/
theorem test_witness_EquationsAreTheRules :
    (Equation.schedule 0).index = 16 ∧ (Equation.feedForward 7).index = 711 ∧
    roundInput { zero with hin := abcDigest } 0 = abcDigest ∧
    roundInput { zero with wr := zero.wr.set 62 abcDigest } 63 = abcDigest := by decide +kernel

theorem test_witness_EngineWitnessIsValid :
    (∃ (s t : State) (last : Bool), commandError (.compress last) s = none ∧ exec (.compress last) s = .next t) ∧
    (∃ (s t : State) (n : Nat), n ≤ 32 ∧ commandError (.msgPush n) s = none ∧ fills n s = true ∧
      exec (.msgPush n) s = .next t) ∧
    ∃ s t : State, commandError .msgFinal s = none ∧ s.padbyp = false ∧ exec .msgFinal s = .next t :=
  ⟨⟨loaded abc, _, true, by decide, (exec_next_kept (.compress true) (loaded abc)).choose_spec.1⟩,
    ⟨{ zero with path := .bit, len := 480 }, _, 32, by decide, by decide, by decide,
      (exec_next_kept (.msgPush 32) _).choose_spec.1⟩,
    { zero with path := .bit, len := 447 }, _, by decide, rfl, (exec_next_kept .msgFinal _).choose_spec.1⟩

theorem test_witness_WitnessIsSensitive : ∃ (s : State) (b : Nat), b = 31 ∧ b < 32 ∧ WitnessValid s :=
  ⟨compressBlock abc true zero, 31, rfl, by decide, compressBlock_witness _ _ _⟩

/-- Each error of the table is raised somewhere, and COMPRESS on a whole block raises none. -/
theorem test_witness_CommandErrorsAreTheTable :
    commandError .expand { zero with path := .bit } = some .sequence ∧
    commandError (.compress true) { zero with vmask := 0x7FFF } = some .malformedBlock ∧
    commandError (.msgPush 1) { zero with path := .bit, len := 2 ^ 64 - 1 } = some .lengthOverflow ∧
    commandError .msgFinal { zero with padbyp := true, len := 511 } = some .lengthMismatch ∧
    commandError (.compress true) (loaded abc) = none ∧ (Instr.compress true) ≠ .clrerr ∧
      (Instr.compress true) ≠ .check := by decide +kernel

/-- ROUND pending from reset with an error already recorded. -/
theorem test_witness_FirstErrorStays :
    ∃ s t : State, s.errcode ≠ .noError ∧ step s = .next t ∧ (∀ rest, s.agenda ≠ .reset :: rest) ∧
      ¬ executes .clrerr s :=
  ⟨{ zero with errcode := .illegalCmd, pending := some 0x13 }, _, by decide, rfl, fun _ h => List.noConfusion rfl (heq_of_eq h),
    fun ⟨_, c, hc, hd⟩ => by
      obtain rfl : (0x13 : Word) = c := Option.some.inj hc
      exact absurd hd (by decide)⟩

theorem test_witness_WriteMatrixHolds :
    ∃ (i : Instr) (s t : State) (e : Element), i.WellFormed ∧ exec i s = .next t ∧ mayWrite i s e = false :=
  ⟨.msgPush 1, zero, _, .h, by decide, (exec_next_kept (.msgPush 1) zero).choose_spec.1, by decide⟩

/-- A finished message with MSG_PUSH pending. -/
theorem test_witness_DigestIsImmutable :
    ∃ s t : State, s.fsm = .finalized ∧ s.inblock = false ∧ step s = .next t ∧
      (∀ rest, s.agenda ≠ .reset :: rest) ∧ ¬ executes .init s :=
  ⟨{ zero with fsm := .finalized, path := .bit, pending := some 0x20 }, _, rfl, rfl, rfl,
    fun _ h => List.noConfusion rfl (heq_of_eq h),
    fun ⟨_, c, hc, hd⟩ => by
      obtain rfl : (0x20 : Word) = c := Option.some.inj hc
      exact absurd hd (by decide)⟩

/-- A step of a state with an empty agenda is the engine's and answers a next state. -/
theorem step_of_empty_agenda (s : State) (h : s.agenda = []) : ∃ t, step s = .next t := by
  obtain ⟨t, ht⟩ := engineStep_next s
  exact ⟨t, by unfold step; simp only [h]; exact ht⟩

/-- A command word pending, and nothing else to come. -/
def pendingWord (c : Word) (s : State) : State := { s with pending := some c, agenda := [] }

/-- The state meets the premises of FsmTransitionsAreComplete and its next step executes `i`. -/
def Transition (i : Instr) (s : State) : Prop :=
  (s.inblock = true → s.fsm ≠ .finalized) ∧ executes i s ∧ ∃ t, step s = .next t

theorem transition_of_pendingWord (c : Word) (i : Instr) (s : State) (hd : decodeCmd c = .ok i)
    (hi : s.inblock = true → s.fsm ≠ .finalized) : Transition i (pendingWord c s) :=
  ⟨hi, ⟨.inl rfl, c, rfl, hd⟩, step_of_empty_agenda _ rfl⟩

/-- Each row of the list of transitions has a state: a reset, INIT, the last = 0 and last = 1 feed-forwards, a fill by
MSG_PUSH, MSG_FINAL bypassed, at P = 447 and at P = 448. -/
theorem test_witness_FsmTransitionsAreComplete :
    (∃ (s t : State) (rest : List Event), s.agenda = .reset :: rest ∧
      (s.inblock = true → s.fsm ≠ .finalized) ∧ step s = .next t) ∧
    (∃ s, s.fsm = .finalized ∧ Transition .init s) ∧
    (∃ s, s.inblock = true ∧ s.t.val = 64 ∧ Transition (.feedfwd false) s) ∧
    (∃ s, s.vmask = 0xFFFF ∧ Transition (.compress false) s) ∧
    (∃ s, s.len.toNat % 512 = 511 ∧ Transition (.msgPush 1) s) ∧
    (∃ s, s.inblock = true ∧ s.t.val = 64 ∧ Transition (.feedfwd true) s) ∧
    (∃ s, s.vmask = 0xFFFF ∧ Transition (.compress true) s) ∧
    (∃ s, s.padbyp = true ∧ s.len.toNat % 512 = 0 ∧ Transition .msgFinal s) ∧
    (∃ s, s.padbyp = false ∧ s.len.toNat % 512 = 447 ∧ Transition .msgFinal s) ∧
    ∃ s, s.padbyp = false ∧ s.len.toNat % 512 = 448 ∧ Transition .msgFinal s :=
  ⟨⟨{ zero with agenda := [.reset] }, _, [], by decide, by decide, rfl⟩,
    ⟨_, rfl, transition_of_pendingWord 0x01 .init { zero with fsm := .finalized } (by decide) (by decide)⟩,
    ⟨_, rfl, rfl, transition_of_pendingWord 0x14 (.feedfwd false) { zero with inblock := true, t := 64 } (by decide)
      (by decide)⟩,
    ⟨_, rfl, transition_of_pendingWord 0x10 (.compress false) { zero with vmask := 0xFFFF } (by decide) (by decide)⟩,
    ⟨_, rfl, transition_of_pendingWord 0x20 (.msgPush 1) { zero with path := .bit, len := 511 } (by decide)
      (by decide)⟩,
    ⟨_, rfl, rfl, transition_of_pendingWord 0x10014 (.feedfwd true) { zero with inblock := true, t := 64 } (by decide)
      (by decide)⟩,
    ⟨_, rfl, transition_of_pendingWord 0x10010 (.compress true) { zero with vmask := 0xFFFF } (by decide) (by decide)⟩,
    ⟨_, rfl, rfl, transition_of_pendingWord 0x21 .msgFinal { zero with padbyp := true } (by decide) (by decide)⟩,
    ⟨_, rfl, rfl, transition_of_pendingWord 0x21 .msgFinal { zero with len := 447 } (by decide) (by decide)⟩,
    _, rfl, rfl, transition_of_pendingWord 0x21 .msgFinal { zero with len := 448 } (by decide) (by decide)⟩

/-- COMPRESS pending on the word path. -/
theorem test_witness_PathIsFixedUntilInit :
    ∃ s t : State, s.path ≠ .none ∧ step s = .next t ∧ (∀ rest, s.agenda ≠ .reset :: rest) ∧ ¬ executes .init s :=
  ⟨{ zero with path := .word, pending := some 0x10 }, _, by decide, rfl, fun _ h => List.noConfusion rfl (heq_of_eq h),
    fun ⟨_, c, hc, hd⟩ => by
      obtain rfl : (0x10 : Word) = c := Option.some.inj hc
      exact absurd hd (by decide)⟩

/-- COMPRESS on two states whose block buffers differ. -/
theorem test_witness_DrawsNeverDecideSuccess :
    ∃ s s' : State, s ≠ s' ∧ (Instr.compress true) ≠ .check ∧
      s' = { s with wk := s'.wk, m := s'.m, w := s'.w, t1 := s'.t1, t2 := s'.t2, wr := s'.wr, hin := s'.hin,
                    hout := s'.hout } ∧
      (∃ t, exec (.compress true) s = .next t) ∧ ∃ t', exec (.compress true) s' = .next t' :=
  ⟨loaded abc, { loaded abc with m := Vector.replicate 16 0 },
    fun h => absurd (congrArg State.m h) (by decide), by decide, rfl,
    ⟨_, (exec_next_kept (.compress true) _).choose_spec.1⟩, _, (exec_next_kept (.compress true) _).choose_spec.1⟩

/-- The invariant holds of the reset state with zeros for the draws. -/
theorem test_inv_zero : zero.Inv where
  stepping := by decide
  untouched := by decide
  initial := by decide
  counted := by decide
  noMask := by decide
  filled := by decide
  resting := by decide
  verdict := by decide

/-- The invariant holds of a state in the middle of a stepped block, with ROUND pending. -/
theorem test_witness_StepKeepsInvariant :
    ∃ s t : State, s.inblock = true ∧ s.t.val = 63 ∧ s.Inv ∧ step s = .next t :=
  ⟨{ zero with inblock := true, path := .word, t := 63, pending := some 0x13 }, _, rfl, rfl,
    { stepping := by decide, untouched := by decide, initial := by decide, counted := by decide,
      noMask := by decide, filled := by decide, resting := by decide, verdict := by decide }, rfl⟩

theorem test_witness_ResetDiscardsPending :
    ∃ (s : State) (rest : List Event), s.agenda = .reset :: rest ∧ s.pending ≠ none :=
  ⟨{ zero with pending := some 0x21, agenda := [.reset, .engine] }, [.engine], by decide⟩

/-- The map at the first and last offset of each range. -/
theorem test_witness_OffsetMapIsExact :
    decodeOffset 0x040 = .carry ∧ decodeOffset 0x044 = .reserved ∧ decodeOffset 0x07C = .reserved ∧
    decodeOffset 0x080 = .m 0 ∧ decodeOffset 0x0BC = .m 15 ∧ decodeOffset 0x0DC = .h 7 ∧
    decodeOffset 0x0E0 = .wk 0 ∧ decodeOffset 0x1FC = .w 63 ∧ decodeOffset 0x200 = .t1 0 ∧
    decodeOffset 0x3FC = .t2 63 ∧ decodeOffset 0x400 = .wr 0 0 ∧ decodeOffset 0xBFC = .wr 63 7 ∧
    decodeOffset 0xC00 = .hin 0 ∧ decodeOffset 0xC3C = .hout 7 ∧ decodeOffset 0xC40 = .reserved ∧
    decodeOffset 0xCFC = .reserved ∧ decodeOffset 0xD00 = .k 0 ∧ decodeOffset 0xE1C = .iv 7 ∧
    decodeOffset 0xE20 = .reserved ∧ decodeOffset 0xFFC = .reserved := by decide

theorem test_witness_ReadReturnsValue :
    (∃ (s : State) (a : BitVec 12) (rest : List Event), s.agenda = .read 4 a :: rest ∧ a.toNat % 4 = 0 ∧
      s.busy = false) ∧
    (∃ (s : State) (a : BitVec 12) (rest : List Event), s.agenda = .read 4 a :: rest ∧ a.toNat % 4 = 0 ∧
      s.busy = true ∧ a = 0x000) ∧
    (∃ (s : State) (a : BitVec 12) (rest : List Event), s.agenda = .read 4 a :: rest ∧ a.toNat % 4 = 0 ∧
      s.busy = true ∧ a = 0x008) ∧
    ∃ (s : State) (a : BitVec 12) (rest : List Event), s.agenda = .read 4 a :: rest ∧ a.toNat % 4 = 0 ∧
      s.busy = true ∧ a ≠ 0x000 ∧ a ≠ 0x008 :=
  ⟨⟨{ zero with agenda := [.read 4 0xFFC] }, 0xFFC, [], by decide⟩,
    ⟨{ zero with pending := some 0, agenda := [.read 4 0x000] }, 0x000, [], by decide⟩,
    ⟨{ zero with pending := some 0, agenda := [.read 4 0x008] }, 0x008, [], by decide⟩,
    { zero with pending := some 0, agenda := [.read 4 0x00C] }, 0x00C, [], by decide⟩

theorem test_witness_ConstantsAreRootsOfPrimes : ∃ s : State, s.busy = false := ⟨zero, by decide⟩

theorem test_witness_BusyWriteIsDropped :
    ∃ (s : State) (a : BitVec 12) (v : Word) (rest : List Event), s.agenda = .write 4 a v :: rest ∧
      a.toNat % 4 = 0 ∧ s.busy = true :=
  ⟨{ zero with pending := some 0, agenda := [.write 4 0x00C 1] }, 0x00C, 1, [], by decide⟩

/-- A write of the last word of M on the word path and on the bit path, and of the last witness element. -/
theorem test_witness_WriteEffects :
    (∃ (s : State) (rest : List Event), s.agenda = .write 4 (Target.m 15).offset 7 :: rest ∧ s.busy = false ∧
      s.path ≠ .bit) ∧
    (∃ (s : State) (rest : List Event), s.agenda = .write 4 (Target.m 15).offset 7 :: rest ∧ s.busy = false ∧
      s.path = .bit) ∧
    ∃ (s : State) (rest : List Event), s.agenda = .write 4 (Target.wr 63 7).offset 7 :: rest ∧ s.busy = false :=
  ⟨⟨{ zero with agenda := [.write 4 0x0BC 7] }, [], by decide⟩,
    ⟨{ zero with path := .bit, agenda := [.write 4 0x0BC 7] }, [], by decide⟩,
    { zero with agenda := [.write 4 0xBFC 7] }, [], by decide⟩

theorem test_witness_ReadOnlyWriteIsIgnored :
    (∃ (s : State) (a : BitVec 12) (v : Word) (rest : List Event), s.agenda = .write 4 a v :: rest ∧
      a.toNat % 4 = 0 ∧ s.busy = false ∧ decodeOffset a.toNat ∈ [Target.status, .reserved]) ∧
    ∃ (s : State) (a : BitVec 12) (v : Word) (rest : List Event), s.agenda = .write 4 a v :: rest ∧
      a.toNat % 4 = 0 ∧ s.busy = false ∧ ∃ t, decodeOffset a.toNat = .k t :=
  ⟨⟨{ zero with agenda := [.write 4 0xFFC 1] }, 0xFFC, 1, [], by decide⟩,
    { zero with agenda := [.write 4 0xD00 0] }, 0xD00, 0, [], by decide +kernel⟩

theorem test_witness_OtherAccessIsRefused :
    (∃ (s : State) (rest : List Event), s.agenda = .read 2 0x000 :: rest) ∧
    ∃ (s : State) (a : BitVec 12) (v : Word) (rest : List Event), s.agenda = .write 4 a v :: rest ∧ a.toNat % 4 ≠ 0 :=
  ⟨⟨{ zero with agenda := [.read 2 0x000] }, [], rfl⟩, { zero with agenda := [.write 4 0x001 0] }, 0x001, 0, [], by decide⟩

end Sys2Proof.Tests
end

section
/-! PROOFS. What a command does, said once: it raises the error of the table (60_exceptions.md R242) and changes
nothing else, or it completes with the state `effect` gives. -/

namespace Sys2Proof.Machine

/-- The state a command leaves when it raises no error; `exec_eq` ties it to the model's meaning of the command. -/
def effect (i : Instr) (s : State) : State :=
  match i with
  | .nop => s
  | .init => { s with
      h := Rom.IV, blkidx := 0, t := 0, inblock := false, len := 0, vmask := 0, path := .none, fsm := .initialized }
  | .clrerr => { s with errcode := .noError }
  | .compress last => { compressBlock s.m last s with vmask := 0, path := .word }
  | .expand => { expandBlock s.m s with vmask := 0, path := .word }
  | .rstart => { loadWorking s with t := 0, inblock := true, path := .word }
  | .round =>
    if h : s.t.val < 64 then { roundOp ⟨s.t.val, h⟩ s with t := ⟨s.t.val + 1, Nat.succ_lt_succ h⟩ } else s
  | .feedfwd last => { feedForward last s with inblock := false }
  | .check => checkWitness s
  | .msgPush n => pushBits n (enterBitPath s)
  | .msgFinal =>
    if s.padbyp then { enterBitPath s with fsm := .finalized }
    else if (fillPointer s).val ≤ 447 then padInBlock (enterBitPath s) else padTwoBlocks (enterBitPath s)
  | .add => setSum (s.x.toNat + s.y.toNat) s
  | .add3 => setSum (s.x.toNat + s.y.toNat + s.z.toNat) s
  | .xor => setResult (s.x ^^^ s.y) s
  | .and => setResult (s.x &&& s.y) s
  | .not => setResult (~~~s.x) s
  | .ch => setResult (chFn s.x s.y s.z) s
  | .maj => setResult (majFn s.x s.y s.z) s
  | .rotr sh => setResult (rotr s.x sh) s
  | .shr sh => setResult (shr s.x sh) s
  | .bsig0 => setResult (bsig0 s.x) s
  | .bsig1 => setResult (bsig1 s.x) s
  | .ssig0 => setResult (ssig0 s.x) s
  | .ssig1 => setResult (ssig1 s.x) s
  | .pack => setResult (packWord s.endian s.x) s
  | .unpack => setResult (unpackWord s.endian s.x) s

/-! ### The checks of the commands are the error table's conditions -/

theorem blockOutOfSequence_iff (s : State) :
    blockOutOfSequence s = true ↔ s.fsm = .finalized ∨ s.path = .bit ∨ s.inblock = true := by
  simp [blockOutOfSequence, or_assoc]

theorem messageOutOfSequence_iff (s : State) :
    messageOutOfSequence s = true ↔ s.fsm = .finalized ∨ s.path = .word := by
  simp [messageOutOfSequence]

theorem blockMalformed_iff (s : State) : blockMalformed s = true ↔ s.vmask ≠ 0xFFFF := by
  simp [blockMalformed]

theorem lengthOverflows_iff (n : Nat) (s : State) :
    lengthOverflows n s = true ↔ s.len.toNat + n > 2 ^ 64 - 1 := by
  simp [lengthOverflows]

/-! ### The meaning of a command -/

/-- Every command raises the error of the table and changes nothing else, or completes with its effect. -/
theorem exec_eq (i : Instr) (s : State) :
    exec i s = .next ((commandError i s).elim (effect i s) fun e => record e s) := by
  cases i with
  | compress last =>
    simp only [exec, execCompress, commandError, blockOutOfSequence_iff, blockMalformed_iff]
    split_ifs <;> rfl
  | expand =>
    simp only [exec, execExpand, commandError, blockOutOfSequence_iff, blockMalformed_iff]
    split_ifs <;> rfl
  | rstart =>
    simp only [exec, execRstart, commandError, blockOutOfSequence_iff]
    split_ifs <;> rfl
  | round =>
    have ht := s.t.isLt
    by_cases h : s.inblock = true ∧ s.t.val < 64
    · have hno : ¬ (s.inblock = false ∨ s.t.val = 64) := by rintro (hi | ht') <;> simp_all
      simp only [exec, execRound, commandError, dif_pos h, if_neg hno, Option.elim_none, effect, dif_pos h.2]
    · have hyes : s.inblock = false ∨ s.t.val = 64 := by
        cases hi : s.inblock with
        | false => exact .inl rfl
        | true =>
          have hge : ¬ s.t.val < 64 := fun hlt => h ⟨hi, hlt⟩
          exact .inr (by omega)
      simp only [exec, execRound, commandError, dif_neg h, if_pos hyes, Option.elim_some, raise]
  | feedfwd last =>
    by_cases h : s.inblock = true ∧ s.t.val = 64
    · have hno : ¬ (s.inblock = false ∨ s.t.val ≠ 64) := by simp [h.1, h.2]
      simp only [exec, execFeedfwd, commandError, if_pos h, if_neg hno, Option.elim_none, effect]
    · have hyes : s.inblock = false ∨ s.t.val ≠ 64 := by
        rwa [not_and_or, Bool.not_eq_true] at h
      simp only [exec, execFeedfwd, commandError, if_neg h, if_pos hyes, Option.elim_some, raise]
  | msgPush n =>
    simp only [exec, execMsgPush, commandError, messageOutOfSequence_iff, lengthOverflows_iff]
    split_ifs <;> rfl
  | msgFinal =>
    simp only [exec, execMsgFinal, commandError, effect, messageOutOfSequence_iff]
    by_cases hseq : s.fsm = .finalized ∨ s.path = .word
    · simp only [if_pos hseq]
      rfl
    cases s.padbyp with
    | false =>
      simp only [if_neg hseq, Bool.false_eq_true, false_and, if_false, Option.elim_none]
      exact (apply_ite Host.Outcome.next _ _ _).symm
    | true =>
      by_cases hp : (fillPointer s).val = 0
      · have hp' : s.len.toNat % 512 = 0 := hp
        simp [hseq, hp, hp']
      · have hp' : s.len.toNat % 512 ≠ 0 := hp
        simp [hseq, hp, hp', raise]
  | _ => rfl

/-- What a command's answer can be. -/
theorem exec_next_cases {i : Instr} {s t : State} (h : exec i s = .next t) :
    (∃ e, commandError i s = some e ∧ t = record e s) ∨ (commandError i s = none ∧ t = effect i s) := by
  rw [exec_eq] at h
  obtain rfl := Host.Outcome.next.inj h
  cases commandError i s with
  | none => exact .inr ⟨rfl, rfl⟩
  | some e => exact .inl ⟨e, rfl, rfl⟩

/-! ### What it means that a command raises no error (60_exceptions.md R242) -/

theorem commandError_compress_none {last : Bool} {s : State} (h : commandError (.compress last) s = none) :
    s.fsm ≠ .finalized ∧ s.path ≠ .bit ∧ s.inblock = false ∧ s.vmask = 0xFFFF := by
  simpa [commandError, not_or, and_assoc, ite_eq_iff] using h

theorem commandError_expand_none {s : State} (h : commandError .expand s = none) :
    s.fsm ≠ .finalized ∧ s.path ≠ .bit ∧ s.inblock = false ∧ s.vmask = 0xFFFF :=
  commandError_compress_none (last := false) h

theorem commandError_rstart_none {s : State} (h : commandError .rstart s = none) :
    s.fsm ≠ .finalized ∧ s.path ≠ .bit ∧ s.inblock = false := by
  simpa [commandError, not_or, and_assoc] using h

theorem commandError_round_none {s : State} (h : commandError .round s = none) :
    s.inblock = true ∧ s.t.val < 64 := by
  have ht := s.t.isLt
  obtain ⟨hin, hne⟩ : s.inblock = true ∧ s.t.val ≠ 64 := by simpa [commandError, not_or] using h
  exact ⟨hin, by omega⟩

theorem commandError_feedfwd_none {last : Bool} {s : State} (h : commandError (.feedfwd last) s = none) :
    s.inblock = true ∧ s.t.val = 64 := by
  simpa [commandError, not_or] using h

theorem commandError_msgPush_none {n : Nat} {s : State} (h : commandError (.msgPush n) s = none) :
    s.fsm ≠ .finalized ∧ s.path ≠ .word ∧ s.len.toNat + n < 2 ^ 64 := by
  obtain ⟨⟨hf, hp⟩, hl⟩ : (s.fsm ≠ .finalized ∧ s.path ≠ .word) ∧ ¬ s.len.toNat + n > 2 ^ 64 - 1 := by
    simpa [commandError, not_or, ite_eq_iff] using h
  exact ⟨hf, hp, by omega⟩

theorem commandError_msgFinal_none {s : State} (h : commandError .msgFinal s = none) :
    s.fsm ≠ .finalized ∧ s.path ≠ .word := by
  obtain ⟨hseq, -⟩ : (s.fsm ≠ .finalized ∧ s.path ≠ .word) ∧ (s.padbyp = true → s.len.toNat % 512 = 0) := by
    simpa [commandError, not_or, ite_eq_iff] using h
  exact hseq

/-- A completing ROUND runs the round that ROUNDT counts (45_compression.md R192). -/
theorem effect_round {s : State} (h : s.t.val < 64) :
    effect .round s = { roundOp ⟨s.t.val, h⟩ s with t := ⟨s.t.val + 1, Nat.succ_lt_succ h⟩ } := dif_pos h

end Sys2Proof.Machine
end

section
/-! PROOFS. The frames of the bit path: MSG_PUSH's loop and the padding change M, L and what CompressBlock changes. -/

namespace Sys2Proof.Machine

/-- The padding writes change M alone. -/
theorem clearBits_frame (lo n : Nat) (s : State) : ∃ m, clearBits lo n s = { s with m := m } := by
  unfold clearBits
  rw [List.range_eq_range']
  refine foldl_range'_induct (P := fun _ u => ∃ m, u = { s with m := m }) 0 n ⟨s.m, rfl⟩ ?_
  rintro k _ - ⟨m, rfl⟩
  exact ⟨_, setbit_eq _ _ _⟩

/-- CompressBlock neither reads nor writes M. -/
theorem compressBlock_withM (blk : Vector Word 16) (last : Bool) (m : Vector Word 16) (s : State) :
    compressBlock blk last { s with m := m } = { compressBlock blk last s with m := m } := by
  have h := compressBlock_commutes blk last m s.len s
  have hlen := compressBlock_len blk last s
  rw [h]
  cases hc : compressBlock blk last s
  simp_all

/-- One pass of MSG_PUSH's loop: a bit of M and L, and CompressBlock when the bit fills the block
(43_padding.md R163, R164). -/
theorem pushBit_cases (i : Nat) (s : State) :
    (s.len.toNat % 512 ≠ 511 ∧ ∃ m, pushBit i s = { s with m := m, len := s.len + 1 }) ∨
    (s.len.toNat % 512 = 511 ∧
      ∃ m, pushBit i s = { compressBlock m false s with m := m, len := s.len + 1 }) := by
  by_cases h : s.len.toNat % 512 = 511
  · refine .inr ⟨h, (setbit (fillPointer s) (laneBit s.endian s.bits i) s).m, ?_⟩
    rw [pushBit_filling i s h, ← compressBlock_commutes]
    rfl
  · exact .inl ⟨h, _, pushBit_within i s h⟩

/-- The 1 bit and the zeros of the padding change M alone (43_padding.md R166). -/
theorem padBits_frame (n : Nat) (s : State) :
    ∃ m, clearBits ((fillPointer s).val + 1) n (setbit (fillPointer s) true s) = { s with m := m } :=
  clearBits_frame _ n (setbit (fillPointer s) true s)

/-- Padding in the same block compresses one last block (43_padding.md R166). -/
theorem padInBlock_frame (s : State) : ∃ m, padInBlock s = { compressBlock m true s with m := m } := by
  obtain ⟨m, hm⟩ := padBits_frame (447 - (fillPointer s).val) s
  refine ⟨(putLength { s with m := m }).m, ?_⟩
  simp only [padInBlock, hm]
  exact compressBlock_withM _ _ _ s

/-- The zeros and the length words of an extra block change M alone (43_padding.md R166). -/
theorem lengthBlock_frame (s : State) : ∃ m, putLength (clearWords s) = { s with m := m } := by
  unfold clearWords
  exact ⟨_, rfl⟩

/-- Padding that needs an extra block compresses two blocks, the second one last (43_padding.md R166). -/
theorem padTwoBlocks_frame (s : State) : ∃ m₁ m₂, padTwoBlocks s =
    { compressBlock m₂ true (compressBlock m₁ false s) with m := m₂ } := by
  obtain ⟨m₁, h₁⟩ := padBits_frame (511 - (fillPointer s).val) s
  obtain ⟨m₂, h₂⟩ := lengthBlock_frame { compressBlock m₁ false s with m := m₁ }
  refine ⟨m₁, m₂, ?_⟩
  simp only [padTwoBlocks, h₁, compressBlock_withM, h₂]

end Sys2Proof.Machine
end

section
/-! PROOFS. The invariant of reachable states: reset meets it and every step of every agent keeps it. -/

namespace Sys2Proof.Machine

/-! ### What the invariant reads -/

/-- The invariant does not read the elements that are no control state, and reads VMASK on the bit path alone. -/
theorem State.Inv.congr {s t : State} (h : s.Inv) (fsm : t.fsm = s.fsm) (inblock : t.inblock = s.inblock)
    (path : t.path = s.path) (blkidx : t.blkidx = s.blkidx) (round : t.t = s.t) (len : t.len = s.len)
    (hash : t.h = s.h) (vmask : s.path = .bit → t.vmask = s.vmask)
    (verdict : t.chkok = true ↔ t.chkidx = 0xFFFFFFFF) : t.Inv where
  stepping := by rw [inblock, path, fsm]; exact h.stepping
  untouched := by rw [path, fsm]; exact h.untouched
  initial := by rw [fsm, hash, blkidx]; exact h.initial
  counted := by rw [path, len]; exact h.counted
  noMask := by rw [path]; exact fun hp => (vmask hp).trans (h.noMask hp)
  filled := by rw [path, fsm, blkidx, len]; exact h.filled
  resting := by rw [inblock, fsm, round]; exact h.resting
  verdict := verdict

theorem State.Inv.record {s : State} (h : s.Inv) (e : ErrCode) : (record e s).Inv :=
  h.congr (by simp) (by simp) (by simp) (by simp) (by simp) (by simp) (by simp) (by simp) (by simpa using h.verdict)

/-- The invariant on the word path, where L counts nothing and VMASK is free. -/
theorem State.Inv.of_word {t : State} (path : t.path = .word) (len : t.len = 0)
    (stepping : t.inblock = true → t.fsm ≠ .finalized)
    (initial : t.fsm = .initialized → t.h = Rom.IV ∧ t.blkidx = 0)
    (resting : t.inblock = false → (t.fsm = .initialized → t.t.val = 0) ∧ (t.fsm = .processing → t.t.val = 64))
    (verdict : t.chkok = true ↔ t.chkidx = 0xFFFFFFFF) : t.Inv where
  stepping hi := ⟨path, stepping hi⟩
  untouched hp := by simp [path] at hp
  initial := initial
  counted _ := len
  noMask hp := by simp [path] at hp
  filled hp := by simp [path] at hp
  resting := resting
  verdict := verdict

/-- The invariant of a message that MSG_FINAL has finished. -/
theorem State.Inv.of_finished {t : State} (path : t.path = .bit) (fsm : t.fsm = .finalized)
    (inblock : t.inblock = false) (vmask : t.vmask = 0)
    (verdict : t.chkok = true ↔ t.chkidx = 0xFFFFFFFF) : t.Inv where
  stepping hi := by simp [inblock] at hi
  untouched hp := by simp [path] at hp
  initial hf := by simp [fsm] at hf
  counted hp := absurd path hp
  noMask _ := vmask
  filled _ hf := absurd fsm hf
  resting _ := by simp [fsm]
  verdict := verdict

/-- Off the word path no stepped block is open. -/
theorem State.Inv.inblock_false {s : State} (h : s.Inv) (hp : s.path ≠ .word) : s.inblock = false := by
  cases hi : s.inblock with
  | false => rfl
  | true => exact absurd (h.stepping hi).1 hp

/-! ### The bit path -/

/-- The first command of the bit path starts it at L = 0 with VMASK clear (43_padding.md R162). -/
theorem State.Inv.enterBitPath {s : State} (h : s.Inv) (hp : s.path ≠ .word) : (enterBitPath s).Inv := by
  have hin := h.inblock_false hp
  have hmask : (Machine.enterBitPath s).vmask = 0 := by
    cases hq : s.path with
    | none => simp [hq]
    | bit => simpa [hq] using h.noMask hq
    | word => exact absurd hq hp
  have hfilled : s.fsm ≠ .finalized →
      s.blkidx = BitVec.ofNat 32 (s.len.toNat / 512) ∧ (s.fsm = .initialized ↔ s.len.toNat < 512) := by
    cases hq : s.path with
    | none =>
      have hf := h.untouched hq
      have hl := h.counted (by simp [hq])
      intro _
      simp [hf, hl, (h.initial hf).2]
    | bit => exact h.filled hq
    | word => exact absurd hq hp
  exact {
    stepping := by simp [hin]
    untouched := by simp
    initial := h.initial
    counted := by simp
    noMask := fun _ => hmask
    filled := fun _ => hfilled
    resting := h.resting
    verdict := h.verdict }

/-- A message is being pushed and the invariant holds. -/
structure Pushing (s : State) : Prop where
  inv : s.Inv
  path : s.path = .bit
  fsm : s.fsm ≠ .finalized

/-- One pushed bit keeps the invariant: the block counter follows L (43_padding.md R164). -/
theorem Pushing.pushBit {s : State} (h : Pushing s) (i : Nat) (hl : s.len.toNat + 1 < 2 ^ 64) :
    Pushing (pushBit i s) ∧ (pushBit i s).len = s.len + 1 := by
  obtain ⟨inv, path, fsm⟩ := h
  obtain ⟨hidx, hinit⟩ := inv.filled path fsm
  have hin := inv.inblock_false (by simp [path])
  have hlen : (s.len + 1).toNat = s.len.toNat + 1 := by
    rw [BitVec.toNat_add]
    exact Nat.mod_eq_of_lt hl
  rcases pushBit_cases i s with ⟨hmod, m, he⟩ | ⟨hmod, m, he⟩
  · rw [he]
    have hdiv : (s.len.toNat + 1) / 512 = s.len.toNat / 512 := by omega
    have hlt : s.len.toNat + 1 < 512 ↔ s.len.toNat < 512 := by omega
    refine ⟨⟨?_, path, fsm⟩, rfl⟩
    exact {
      stepping := inv.stepping
      untouched := inv.untouched
      initial := inv.initial
      counted := fun hp => absurd path hp
      noMask := inv.noMask
      filled := fun _ _ => by simp only [hlen, hdiv, hlt]; exact ⟨hidx, hinit⟩
      resting := inv.resting
      verdict := inv.verdict }
  · rw [he]
    have hidx' : s.blkidx + 1 = BitVec.ofNat 32 ((s.len + 1).toNat / 512) := by
      rw [hidx, hlen, show (s.len.toNat + 1) / 512 = s.len.toNat / 512 + 1 by omega, BitVec.ofNat_add]
      rfl
    have hge : ¬ (s.len + 1).toNat < 512 := by omega
    refine ⟨⟨?_, by simp [path], by simp⟩, rfl⟩
    exact {
      stepping := by simp [hin]
      untouched := by simp [path]
      initial := by simp
      counted := by simp [path]
      noMask := by simpa using inv.noMask
      filled := fun _ _ => ⟨by simpa only [compressBlock_blkidx] using hidx',
        fun hf => by simp at hf, fun hlt => absurd hlt hge⟩
      resting := by simp
      verdict := by simpa using inv.verdict }

/-- A MSG_PUSH whose bits L can count keeps the invariant. -/
theorem Pushing.pushBits {s : State} (h : Pushing s) (n : Nat) (hl : s.len.toNat + n < 2 ^ 64) :
    Pushing (pushBits n s) := by
  rw [pushBits_eq_pushRange]
  refine (foldl_range'_induct (P := fun k u => Pushing u ∧ u.len.toNat = s.len.toNat + k) 0 n ⟨h, rfl⟩ ?_).1
  rintro k u hk ⟨hu, hlen⟩
  obtain ⟨hnext, hlen'⟩ := hu.pushBit (0 + k) (by omega)
  refine ⟨hnext, ?_⟩
  rw [hlen', BitVec.toNat_add, hlen]
  exact Nat.mod_eq_of_lt (by simp; omega)

/-- MSG_FINAL finishes the message whichever way it pads (43_padding.md R166). -/
theorem effect_msgFinal_inv {s : State} (h : s.Inv) (hp : s.path ≠ .word) : (effect .msgFinal s).Inv := by
  have hin := h.inblock_false hp
  have hmask := (h.enterBitPath hp).noMask rfl
  have hv := h.verdict
  simp only [effect]
  split
  · exact .of_finished rfl rfl hin hmask hv
  split
  · obtain ⟨m, he⟩ := padInBlock_frame (enterBitPath s)
    rw [he]
    exact .of_finished (by simp) (by simp) (by simpa using hin) (by simpa using hmask) (by simpa using hv)
  · obtain ⟨m₁, m₂, he⟩ := padTwoBlocks_frame (enterBitPath s)
    rw [he]
    exact .of_finished (by simp) (by simp) (by simpa using hin) (by simpa using hmask) (by simpa using hv)

/-! ### CHECK -/

/-- The equations have indices 16 to 711 (46_verifier.md R221 to R223). -/
theorem Equation.index_lt (e : Equation) : e.index < 712 := by
  cases e with
  | schedule i => simp only [Equation.index]; omega
  | round t j => simp only [Equation.index]; omega
  | feedForward i => simp only [Equation.index]; omega

/-- The index of an equation is never the value that reports success (46_verifier.md R225). -/
theorem Equation.index_ne_success (e : Equation) : BitVec.ofNat 32 e.index ≠ 0xFFFFFFFF := by
  intro h
  have hlt := e.index_lt
  have hn : e.index % 2 ^ 32 = 0xFFFFFFFF := by simpa using congrArg BitVec.toNat h
  omega

theorem checkWitness_inv {s : State} (h : s.Inv) : (checkWitness s).Inv := by
  unfold checkWitness
  split
  · exact h.congr rfl rfl rfl rfl rfl rfl rfl (fun _ => rfl) (by simp)
  next e _ =>
    have hne := e.index_ne_success
    refine State.Inv.record ?_ _
    exact h.congr rfl rfl rfl rfl rfl rfl rfl (fun _ => rfl) (by simpa using hne)

/-! ### Commands -/

/-- A command that raises no error keeps the invariant. -/
theorem effect_inv {i : Instr} {s : State} (h : s.Inv) (hc : commandError i s = none) : (effect i s).Inv := by
  cases i with
  | init =>
    exact {
      stepping := by simp [effect]
      untouched := by simp [effect]
      initial := by simp [effect]
      counted := by simp [effect]
      noMask := by simp [effect]
      filled := by simp [effect]
      resting := by simp [effect]
      verdict := h.verdict }
  | compress last =>
    obtain ⟨-, hp, hin, -⟩ := commandError_compress_none hc
    have hl := h.counted hp
    refine .of_word rfl ?_ ?_ ?_ ?_ ?_
    · simpa [effect] using hl
    · simp [effect, hin]
    · cases last <;> simp [effect]
    · cases last <;> simp [effect]
    · simpa [effect] using h.verdict
  | expand =>
    obtain ⟨-, hp, hin, -⟩ := commandError_expand_none hc
    have hl := h.counted hp
    refine .of_word rfl ?_ ?_ ?_ ?_ ?_
    · simpa [effect] using hl
    · simp [effect, hin]
    · simpa [effect] using h.initial
    · simpa [effect] using h.resting
    · simpa [effect] using h.verdict
  | rstart =>
    obtain ⟨hf, hp, -⟩ := commandError_rstart_none hc
    exact .of_word rfl (h.counted hp) (fun _ => hf) h.initial (by simp [effect]) h.verdict
  | round =>
    obtain ⟨hin, ht⟩ := commandError_round_none hc
    obtain ⟨hp, hf⟩ := h.stepping hin
    have hl := h.counted (by simp [hp])
    rw [effect_round ht]
    exact .of_word hp hl (fun _ => hf) h.initial (by simp [hin]) h.verdict
  | feedfwd last =>
    obtain ⟨hin, ht⟩ := commandError_feedfwd_none hc
    obtain ⟨hp, -⟩ := h.stepping hin
    have hl := h.counted (by simp [hp])
    refine .of_word hp hl ?_ ?_ ?_ h.verdict
    · simp [effect]
    · cases last <;> simp [effect]
    · cases last <;> simp [effect, ht]
  | check => exact checkWitness_inv h
  | msgPush n =>
    obtain ⟨hf, hp, hl⟩ := commandError_msgPush_none hc
    have hstart : Pushing (enterBitPath s) := ⟨h.enterBitPath hp, rfl, hf⟩
    exact (hstart.pushBits n hl).inv
  | msgFinal => exact effect_msgFinal_inv h (commandError_msgFinal_none hc).2
  | _ => exact h.congr rfl rfl rfl rfl rfl rfl rfl (fun _ => rfl) h.verdict

/-- Every command keeps the invariant. -/
theorem exec_inv {i : Instr} {s t : State} (h : s.Inv) (hx : exec i s = .next t) : t.Inv := by
  rcases exec_next_cases hx with ⟨e, -, rfl⟩ | ⟨hc, rfl⟩
  · exact h.record e
  · exact effect_inv h hc

/-! ### Steps -/

theorem State.Inv.popped {s : State} (h : s.Inv) : (popped s).Inv :=
  h.congr rfl rfl rfl rfl rfl rfl rfl (fun _ => rfl) h.verdict

theorem State.Inv.clearPending {s : State} (h : s.Inv) : (clearPending s).Inv :=
  h.congr rfl rfl rfl rfl rfl rfl rfl (fun _ => rfl) h.verdict

theorem engineStep_inv {s t : State} (h : s.Inv) (hs : engineStep s = .next t) : t.Inv := by
  rcases engineStep_cases s with ⟨-, he⟩ | ⟨_, i, -, -, he⟩ | ⟨_, _, -, -, he⟩
  · obtain rfl := Host.Outcome.next.inj (he.symm.trans hs)
    exact h
  · exact exec_inv h.clearPending (he.symm.trans hs)
  · obtain rfl := Host.Outcome.next.inj (he.symm.trans hs)
    exact h.clearPending.record _

theorem readTarget_inv {s : State} (h : s.Inv) (tgt : Target) : (readTarget tgt s).Inv := by
  obtain ⟨v, d, he⟩ := readTarget_frame tgt s
  rw [he]
  exact h.congr rfl rfl rfl rfl rfl rfl rfl (fun _ => rfl) h.verdict

theorem writeTarget_inv {s : State} (h : s.Inv) (tgt : Target) (v : Word) : (writeTarget tgt v s).Inv := by
  obtain ⟨hh, hfsm, hpath, hin, ht, hlen, hblk, hidx, hok, -⟩ := writeTarget_engineState tgt v s
  refine h.congr hfsm hin hpath hblk ht hlen hh (writeTarget_vmask tgt v s) ?_
  rw [hok, hidx]
  exact h.verdict

/-- Settles O50: the reset values meet each clause, and no clause reads a drawn element. -/
theorem resetHasInvariant : Obligations.ResetHasInvariant := fun _ => {
  stepping := by simp [State.resetAt]
  untouched := by simp [State.resetAt]
  initial := by simp [State.resetAt]
  counted := by simp [State.resetAt]
  noMask := by simp [State.resetAt]
  filled := by simp [State.resetAt]
  resting := by simp [State.resetAt]
  verdict := by simp [State.resetAt] }

theorem assertReset_inv (s : State) : (assertReset s).Inv :=
  have h := resetHasInvariant s.draws
  h.congr rfl rfl rfl rfl rfl rfl rfl (fun _ => rfl) h.verdict

/-- Settles O49: each kind of step keeps the invariant. -/
theorem stepKeepsInvariant : Obligations.StepKeepsInvariant := by
  intro s t h hs
  rcases step_cases s with ⟨-, he⟩ | ⟨a, _, -, -, he⟩ | ⟨a, v, _, -, -, he⟩ | ⟨_, _, -, he⟩ | ⟨_, -, he⟩
  · exact engineStep_inv h.popped (he.symm.trans hs)
  · obtain rfl := Host.Outcome.next.inj (he.symm.trans hs)
    exact readTarget_inv h.popped _
  · obtain rfl := Host.Outcome.next.inj (he.symm.trans hs)
    exact writeTarget_inv h.popped _ v
  · exact Host.Outcome.noConfusion rfl rfl rfl (heq_of_eq (he.symm.trans hs))
  · obtain rfl := Host.Outcome.next.inj (he.symm.trans hs)
    exact assertReset_inv _

end Sys2Proof.Machine
end

section
/-! PROOFS. PATH: once a message has one, no step but a reset or INIT changes it (10_state.md R48). -/

namespace Sys2Proof.Machine

theorem pushBits_path (n : Nat) (s : State) : (pushBits n s).path = s.path := by
  rw [pushBits_eq_pushRange]
  refine foldl_range'_induct (P := fun _ (u : State) => u.path = s.path) 0 n rfl ?_
  intro k u _ hu
  rcases pushBit_cases (0 + k) u with ⟨-, m, he⟩ | ⟨-, m, he⟩
  · rw [he]; exact hu
  · rw [he]; simpa using hu

theorem effect_msgFinal_path (s : State) : (effect .msgFinal s).path = .bit := by
  simp only [effect]
  split
  · rfl
  split
  · obtain ⟨m, he⟩ := padInBlock_frame (enterBitPath s)
    simp [he]
  · obtain ⟨m₁, m₂, he⟩ := padTwoBlocks_frame (enterBitPath s)
    simp [he]

/-- A path that is taken and is not BIT is WORD. -/
theorem Path.eq_word_of {p : Path} (hn : p ≠ .none) (hb : p ≠ .bit) : p = .word := by
  cases p with
  | none => exact absurd rfl hn
  | word => rfl
  | bit => exact absurd rfl hb

/-- A path that is taken and is not WORD is BIT. -/
theorem Path.eq_bit_of {p : Path} (hn : p ≠ .none) (hw : p ≠ .word) : p = .bit := by
  cases p with
  | none => exact absurd rfl hn
  | word => exact absurd rfl hw
  | bit => rfl

/-- A command that completes, INIT apart, leaves the path that is taken. -/
theorem effect_path {i : Instr} {s : State} (hp : s.path ≠ .none) (hi : i ≠ .init) (hc : commandError i s = none) :
    (effect i s).path = s.path := by
  cases i with
  | init => exact absurd rfl hi
  | compress last =>
    obtain ⟨-, hb, -⟩ := commandError_compress_none hc
    exact (Path.eq_word_of hp hb).symm
  | expand =>
    obtain ⟨-, hb, -⟩ := commandError_expand_none hc
    exact (Path.eq_word_of hp hb).symm
  | rstart =>
    obtain ⟨-, hb, -⟩ := commandError_rstart_none hc
    exact (Path.eq_word_of hp hb).symm
  | round =>
    obtain ⟨-, ht⟩ := commandError_round_none hc
    rw [effect_round ht]
    rfl
  | check =>
    simp only [effect, checkWitness]
    split <;> simp
  | msgPush n =>
    obtain ⟨-, hw, -⟩ := commandError_msgPush_none hc
    rw [Path.eq_bit_of hp hw]
    exact pushBits_path n (enterBitPath s)
  | msgFinal =>
    obtain ⟨-, hw⟩ := commandError_msgFinal_none hc
    rw [Path.eq_bit_of hp hw]
    exact effect_msgFinal_path s
  | _ => rfl

theorem exec_path {i : Instr} {s t : State} (hp : s.path ≠ .none) (hi : i ≠ .init) (hx : exec i s = .next t) :
    t.path = s.path := by
  rcases exec_next_cases hx with ⟨e, -, rfl⟩ | ⟨hc, rfl⟩
  · exact record_path e s
  · exact effect_path hp hi hc

/-- Settles O47: host accesses leave PATH, and of the commands INIT alone changes one that is taken. -/
theorem pathIsFixedUntilInit : Obligations.PathIsFixedUntilInit := by
  intro s t hp hs hreset hinit
  rcases step_cases s with ⟨hturn, he⟩ | ⟨a, _, -, -, he⟩ | ⟨a, v, _, -, -, he⟩ | ⟨_, _, -, he⟩ | ⟨rest, ha, -⟩
  · rw [he] at hs
    rcases engineStep_cases (popped s) with ⟨-, h⟩ | ⟨c, i, hc, hd, h⟩ | ⟨_, _, -, -, h⟩
    · obtain rfl := Host.Outcome.next.inj (h.symm.trans hs)
      rfl
    · have hi : i ≠ .init := by
        rintro rfl
        exact hinit ⟨hturn, c, hc, hd⟩
      exact exec_path (s := clearPending (popped s)) hp hi (h.symm.trans hs)
    · obtain rfl := Host.Outcome.next.inj (h.symm.trans hs)
      exact record_path _ _
  · obtain rfl := Host.Outcome.next.inj (he.symm.trans hs)
    obtain ⟨_, _, hr⟩ := readTarget_frame (decodeOffset a.toNat) (popped s)
    rw [hr]
    rfl
  · obtain rfl := Host.Outcome.next.inj (he.symm.trans hs)
    obtain ⟨-, -, hpath, -⟩ := writeTarget_engineState (decodeOffset a.toNat) v (popped s)
    exact hpath
  · exact Host.Outcome.noConfusion rfl rfl rfl (heq_of_eq (he.symm.trans hs))
  · exact absurd ha (hreset rest)

end Sys2Proof.Machine
end

section
/-! PROOFS. The write matrix (10_state.md R56): what each shared operation leaves alone, then each command. -/

namespace Sys2Proof.Machine

theorem Element.same.refl (e : Element) (s : State) : e.same s s := by
  cases e <;> simp [Element.same]

theorem Element.same.trans {e : Element} {s t u : State} (h : e.same s t) (h' : e.same t u) : e.same s u := by
  cases e <;> simp_all [Element.same]

/-- The elements CompressBlock writes (45_compression.md R195). -/
def blockElements : List Element := [.h, .wk, .w, .roundWitness, .hin, .hout, .blkidx, .t, .fsm]

theorem compressBlock_same {e : Element} (he : e ∉ blockElements) (blk : Vector Word 16) (last : Bool) (s : State) :
    e.same s (compressBlock blk last s) := by
  cases e <;> simp [blockElements, Element.same] at he ⊢

theorem withM_same {e : Element} (he : e ≠ .m) (m : Vector Word 16) (s : State) : e.same s { s with m := m } := by
  cases e <;> simp [Element.same] at he ⊢

theorem withBits_same {e : Element} (hm : e ≠ .m) (hl : e ≠ .len) (m : Vector Word 16) (l : BitVec 64) (s : State) :
    e.same s { s with m := m, len := l } := by
  cases e <;> simp [Element.same] at hm hl ⊢

theorem withFsm_same {e : Element} (he : e ≠ .fsm) (f : Fsm) (s : State) : e.same s { s with fsm := f } := by
  cases e <;> simp [Element.same] at he ⊢

theorem record_same {e : Element} (he : e ≠ .errcode) (c : ErrCode) (s : State) : e.same s (record c s) := by
  cases e <;> simp [Element.same] at he ⊢

theorem checkWitness_same {e : Element} (hc : e ≠ .check) (he : e ≠ .errcode) (s : State) :
    e.same s (checkWitness s) := by
  have verdict : ∀ (idx : Word) (ok : Bool), e.same s { s with chkidx := idx, chkok := ok } := fun _ _ => by
    cases e <;> simp [Element.same] at hc ⊢
  unfold checkWitness
  split
  · exact verdict _ _
  · exact (verdict _ _).trans (record_same he _ _)

/-- Entering the bit path writes PATH, and VMASK when PATH was NONE (43_padding.md R162). -/
theorem enterBitPath_same {e : Element} {s : State} (hp : e ≠ .path) (hv : e = .vmask → s.path ≠ .none) :
    e.same s (enterBitPath s) := by
  cases e with
  | path => exact absurd rfl hp
  | vmask => exact if_neg (hv rfl)
  | _ => simp [Element.same]

/-! ### MSG_PUSH and MSG_FINAL -/

theorem pushBit_same {e : Element} (hm : e ≠ .m) (hl : e ≠ .len) (hb : e ∉ blockElements) (i : Nat) (s : State) :
    e.same s (pushBit i s) := by
  rcases pushBit_cases i s with ⟨-, m, he⟩ | ⟨-, m, he⟩ <;> rw [he]
  · exact withBits_same hm hl m _ s
  · exact (compressBlock_same hb m false s).trans (withBits_same hm hl m _ _)

/-- A MSG_PUSH writes M and L, and what CompressBlock writes if it fills the block (43_padding.md R163, R164). -/
theorem pushBits_same {e : Element} {n : Nat} {s : State} (hm : e ≠ .m) (hl : e ≠ .len)
    (hb : fills n s = true → e ∉ blockElements) : e.same s (pushBits n s) := by
  rw [pushBits_eq_pushRange]
  by_cases hf : s.len.toNat % 512 + n < 512
  · rw [(pushRange_within 0 n s hf).2]
    exact withBits_same hm hl _ _ s
  · have hfill : fills n s = true := by simpa [fills] using hf
    exact foldl_range'_induct (P := fun _ u => e.same s u) 0 n (Element.same.refl e s)
      fun k u _ hu => hu.trans (pushBit_same hm hl (hb hfill) (0 + k) u)

theorem padInBlock_same {e : Element} (hm : e ≠ .m) (hb : e ∉ blockElements) (s : State) :
    e.same s (padInBlock s) := by
  obtain ⟨m, he⟩ := padInBlock_frame s
  rw [he]
  exact (compressBlock_same hb m true s).trans (withM_same hm m _)

theorem padTwoBlocks_same {e : Element} (hm : e ≠ .m) (hb : e ∉ blockElements) (s : State) :
    e.same s (padTwoBlocks s) := by
  obtain ⟨m₁, m₂, he⟩ := padTwoBlocks_frame s
  rw [he]
  exact ((compressBlock_same hb m₁ false s).trans (compressBlock_same hb m₂ true _)).trans
    (withM_same hm m₂ _)

theorem effect_msgPush_same {n : Nat} {s : State} {e : Element} (h : mayWrite (.msgPush n) s e = false) :
    e.same s (effect (.msgPush n) s) := by
  obtain ⟨⟨hrow, hmask⟩, hfill⟩ : (e ∉ [.m, .len, .path, .errcode] ∧ (e = .vmask → s.path ≠ .none)) ∧
      (fills n s = true → e ∉ blockElements) := by
    simpa [mayWrite, blockElements] using h
  simp only [List.mem_cons, List.not_mem_nil, or_false, not_or] at hrow
  obtain ⟨hm, hl, hp, -⟩ := hrow
  exact (enterBitPath_same hp hmask).trans (pushBits_same hm hl hfill)

theorem effect_msgFinal_same {s : State} {e : Element} (h : mayWrite .msgFinal s e = false) :
    e.same s (effect .msgFinal s) := by
  obtain ⟨⟨hrow, hmask⟩, hpad⟩ : (e ∉ [.path, .fsm, .errcode] ∧ (e = .vmask → s.path ≠ .none)) ∧
      (s.padbyp = false → e ∉ [.h, .wk, .m, .w, .roundWitness, .hin, .hout, .blkidx, .t]) := by
    simpa [mayWrite] using h
  simp only [List.mem_cons, List.not_mem_nil, or_false, not_or] at hrow
  obtain ⟨hp, hf, -⟩ := hrow
  have henter := enterBitPath_same hp hmask
  cases hb : s.padbyp with
  | true =>
    simp only [effect, hb, if_true]
    exact henter.trans (withFsm_same hf _ _)
  | false =>
    have hm : e ≠ .m := by rintro rfl; simp [hb] at hpad
    have hblock : e ∉ blockElements := by simp_all [blockElements]
    simp only [effect, hb, Bool.false_eq_true, if_false]
    split
    · exact henter.trans (padInBlock_same hm hblock _)
    · exact henter.trans (padTwoBlocks_same hm hblock _)

/-! ### Every command -/

/-- A command that can raise an error may write ERRCODE. -/
theorem mayWrite_errcode_of_error {i : Instr} {s : State} {c : ErrCode} (h : commandError i s = some c) :
    mayWrite i s .errcode = true := by
  cases i <;> simp [commandError, mayWrite] at h ⊢

/-- A command that completes leaves what its row does not name. -/
theorem effect_same {i : Instr} {s : State} {e : Element} (hc : commandError i s = none)
    (h : mayWrite i s e = false) : e.same s (effect i s) := by
  cases i with
  | nop => exact Element.same.refl e s
  | round =>
    rw [effect_round (commandError_round_none hc).2]
    cases e <;> simp [mayWrite, Element.same] at h ⊢
  | check =>
    obtain ⟨hk, he⟩ : e ≠ .check ∧ e ≠ .errcode := by simpa [mayWrite] using h
    exact checkWitness_same hk he s
  | msgPush n => exact effect_msgPush_same h
  | msgFinal => exact effect_msgFinal_same h
  | _ => cases e <;> simp [mayWrite, effect, Element.same] at h ⊢

/-- Settles O44: a raised error writes ERRCODE alone, and a completing command what its row names. -/
theorem writeMatrixHolds : Obligations.WriteMatrixHolds := by
  intro i s t e _ hx h
  rcases exec_next_cases hx with ⟨c, hc, rfl⟩ | ⟨hc, rfl⟩
  · refine record_same ?_ c s
    rintro rfl
    simp [mayWrite_errcode_of_error hc] at h
  · exact effect_same hc h

end Sys2Proof.Machine
end

section
/-! PROOFS. The reset draws (10_state.md R54): what WK, M and the witness arrays hold decides no command's success. -/

namespace Sys2Proof.Machine

/-- Two states that differ at most in H, WK, M and the witness arrays. -/
def AgreeOffArrays (s s' : State) : Prop :=
  s' = { s with h := s'.h, wk := s'.wk, m := s'.m, w := s'.w, t1 := s'.t1, t2 := s'.t2, wr := s'.wr, hin := s'.hin,
                hout := s'.hout }

section
variable {s s' : State} (h : AgreeOffArrays s s')
include h

theorem AgreeOffArrays.len : s'.len = s.len := by rw [h]

theorem AgreeOffArrays.record (e : ErrCode) : AgreeOffArrays (record e s) (record e s') := by
  rw [record_eq, record_eq, h]
  rfl

/-- The error table reads no array. -/
theorem AgreeOffArrays.commandError (i : Instr) : commandError i s' = commandError i s := by
  rw [h]
  cases i <;> rfl

theorem AgreeOffArrays.compressBlock (blk blk' : Vector Word 16) (last : Bool) :
    AgreeOffArrays (compressBlock blk last s) (compressBlock blk' last s') := by
  obtain ⟨_, _, _, e⟩ := compressBlock_eq blk last s
  obtain ⟨_, _, _, e'⟩ := compressBlock_eq blk' last s'
  rw [e, e', h]
  rfl

theorem AgreeOffArrays.withM (m m' : Vector Word 16) : AgreeOffArrays { s with m := m } { s' with m := m' } := by
  rw [h]
  rfl

theorem AgreeOffArrays.withBits (m m' : Vector Word 16) (l : BitVec 64) :
    AgreeOffArrays { s with m := m, len := l } { s' with m := m', len := l } := by
  rw [h]
  rfl

theorem AgreeOffArrays.onWordPath :
    AgreeOffArrays { s with vmask := 0, path := .word } { s' with vmask := 0, path := .word } := by
  rw [h]
  rfl

theorem AgreeOffArrays.enterBitPath : AgreeOffArrays (enterBitPath s) (enterBitPath s') := by
  rw [h]
  rfl

theorem AgreeOffArrays.pushBit (i : Nat) : AgreeOffArrays (pushBit i s) (pushBit i s') := by
  rcases pushBit_cases i s with ⟨hf, m, e⟩ | ⟨hf, m, e⟩ <;>
    rcases pushBit_cases i s' with ⟨hf', m', e'⟩ | ⟨hf', m', e'⟩ <;> rw [h.len] at hf' e'
  · rw [e, e']
    exact h.withBits m m' _
  · exact absurd hf' hf
  · exact absurd hf hf'
  · rw [e, e']
    exact (h.compressBlock m m' false).withBits m m' _

theorem AgreeOffArrays.pushBits (n : Nat) : AgreeOffArrays (pushBits n s) (pushBits n s') := by
  unfold Machine.pushBits
  generalize List.range n = l
  induction l generalizing s s' with
  | nil => exact h
  | cons i l ih => exact ih (h.pushBit i)

theorem AgreeOffArrays.padInBlock : AgreeOffArrays (padInBlock s) (padInBlock s') := by
  obtain ⟨m, e⟩ := padInBlock_frame s
  obtain ⟨m', e'⟩ := padInBlock_frame s'
  rw [e, e']
  exact (h.compressBlock m m' true).withM m m'

theorem AgreeOffArrays.padTwoBlocks : AgreeOffArrays (padTwoBlocks s) (padTwoBlocks s') := by
  obtain ⟨m₁, m₂, e⟩ := padTwoBlocks_frame s
  obtain ⟨m₁', m₂', e'⟩ := padTwoBlocks_frame s'
  rw [e, e']
  exact ((h.compressBlock m₁ m₁' false).compressBlock m₂ m₂' true).withM m₂ m₂'

theorem AgreeOffArrays.effect_msgFinal : AgreeOffArrays (effect .msgFinal s) (effect .msgFinal s') := by
  have hpad : s'.padbyp = s.padbyp := by rw [h]
  have hfill : fillPointer s' = fillPointer s := by
    rw [h]
    rfl
  simp only [effect, hpad, hfill]
  split
  · rw [h]
    rfl
  split
  · exact h.enterBitPath.padInBlock
  · exact h.enterBitPath.padTwoBlocks

/-- A completing command, CHECK apart, computes what is no array from what is no array. -/
theorem AgreeOffArrays.effect {i : Instr} (hi : i ≠ .check) : AgreeOffArrays (effect i s) (effect i s') := by
  cases i with
  | check => exact absurd rfl hi
  | compress last => exact (h.compressBlock s.m s'.m last).onWordPath
  | msgPush n => exact h.enterBitPath.pushBits n
  | msgFinal => exact h.effect_msgFinal
  | round =>
    rw [h]
    simp only [Machine.effect]
    split <;> rfl
  | _ =>
    rw [h]
    rfl

end

/-- Settles O48: the two runs raise the same error or both complete, and then agree off the arrays. -/
theorem drawsNeverDecideSuccess : Obligations.DrawsNeverDecideSuccess := by
  intro i s s' t t' hi hs hx hx'
  have h : AgreeOffArrays s s' := by
    rw [hs]
    rfl
  rw [exec_eq] at hx hx'
  obtain rfl := Host.Outcome.next.inj hx
  obtain rfl := Host.Outcome.next.inj hx'
  rw [h.commandError]
  cases commandError i s with
  | none => exact h.effect hi
  | some e => exact h.record e

end Sys2Proof.Machine
end

section
/-! PROOFS. The values of the registers after reset (10_state.md R53) and of the hardwired constants (R44, R45). -/

namespace Sys2Proof.Machine

/-- Settles O51: the reset state is written out, and the constants are no part of it. -/
theorem resetValues : Obligations.ResetValues := by
  rintro _ rfl
  have hstatus : statusWord State.reset = 0 := by decide
  have hctrl : ctrlWord State.reset = 0 := by decide
  exact ⟨hstatus, hctrl, rfl, rfl, rfl, rfl, rfl, rfl, rfl, rfl, rfl, rfl, rfl, rfl, rfl, rfl, rfl, rfl, rfl, rfl, rfl,
    rfl, fun _ => rfl, rfl, fun _ => rfl, fun _ => rfl⟩

/-! ### The first primes -/

/-- The k-th number below `n` that passes the test `p` is the k-th number that passes it. -/
theorem getElem_filter_range (p : Nat → Bool) (n k : Nat) (hk : k < ((List.range n).filter p).length) :
    ((List.range n).filter p)[k] = Nat.nth (fun m => p m = true) k := by
  induction n with
  | zero => simp at hk
  | succ n ih =>
    simp only [List.range_succ, List.filter_append, List.filter_singleton] at hk ⊢
    by_cases hlt : k < ((List.range n).filter p).length
    · rw [List.getElem_append_left hlt]
      exact ih hlt
    · by_cases hn : p n = true
      · have hle : k < ((List.range n).filter p).length + 1 := by simpa [hn] using hk
        have hk' : k = ((List.range n).filter p).length := by omega
        have hcount : Nat.count (fun m => p m = true) n = k := by
          simp [hk', Nat.count, List.countP_eq_length_filter]
        have hnth : Nat.nth (fun m => p m = true) k = n := hcount ▸ Nat.nth_count hn
        rw [hnth]
        simp [hk', hn]
      · exact absurd (by simpa [hn] using hk) hlt

/-- Primality by trial division, which the kernel evaluates fast. -/
def passesTrialDivision (n : Nat) : Bool :=
  decide (2 ≤ n) && (List.range' 2 (n - 2)).all fun d => n % d != 0

theorem passesTrialDivision_iff (n : Nat) : passesTrialDivision n = true ↔ n.Prime := by
  have hmem : ∀ d, 2 ≤ n → ((2 ≤ d ∧ d < 2 + (n - 2)) ↔ (2 ≤ d ∧ d < n)) := fun d h2 => by omega
  simp only [passesTrialDivision, Bool.and_eq_true, decide_eq_true_eq, List.all_eq_true, List.mem_range'_1, bne_iff_ne,
    Nat.prime_def_lt', Nat.dvd_iff_mod_eq_zero]
  refine and_congr_right fun h2 => forall_congr' fun d => ?_
  rw [hmem d h2, and_imp]

/-- The 64 primes below 312. -/
def firstPrimes : List Nat := (List.range 312).filter passesTrialDivision

theorem nth_prime_eq_getD (k : Nat) (hk : k < 64) : Nat.nth Nat.Prime k = firstPrimes.getD k 0 := by
  have hlen : firstPrimes.length = 64 := by decide +kernel
  have hprime : Nat.Prime = fun n => passesTrialDivision n = true :=
    funext fun n => propext (passesTrialDivision_iff n).symm
  rw [List.getD_eq_getElem _ _ (hlen ▸ hk), hprime]
  exact (getElem_filter_range passesTrialDivision 312 k _).symm

/-! ### The constants -/

/-- K[t] is the fraction of the cube root of the (t+1)-th prime (10_state.md R44), the whole part being less than 7. -/
theorem K_cubeRoot : ∀ t : Fin 64, ∃ a : Fin 7,
    (a.val * 2 ^ 32 + Rom.K[t].toNat) ^ 3 ≤ firstPrimes.getD t 0 * 2 ^ 96 ∧
      firstPrimes.getD t 0 * 2 ^ 96 < (a.val * 2 ^ 32 + Rom.K[t].toNat + 1) ^ 3 := by
  decide +kernel

/-- IV[i] is the fraction of the square root of the (i+1)-th prime (10_state.md R45), the whole part being less
than 5. -/
theorem IV_squareRoot : ∀ i : Fin 8, ∃ a : Fin 5,
    (a.val * 2 ^ 32 + Rom.IV[i].toNat) ^ 2 ≤ firstPrimes.getD i 0 * 2 ^ 64 ∧
      firstPrimes.getD i 0 * 2 ^ 64 < (a.val * 2 ^ 32 + Rom.IV[i].toNat + 1) ^ 2 := by
  decide +kernel

/-- Settles O56: the tables hold the roots of the first primes, and an idle write to either table is ignored. -/
theorem constantsAreRootsOfPrimes : Obligations.ConstantsAreRootsOfPrimes := by
  refine ⟨fun s t => ⟨?_, fun v hb => writeTarget_idle (.k t) v s hb⟩,
    fun s i => ⟨?_, fun v hb => writeTarget_idle (.iv i) v s hb⟩⟩
  · obtain ⟨a, hle, hlt⟩ := K_cubeRoot t
    rw [nth_prime_eq_getD t t.isLt]
    exact ⟨a, _, rfl, hle, hlt⟩
  · obtain ⟨a, hle, hlt⟩ := IV_squareRoot i
    rw [nth_prime_eq_getD i (by omega)]
    exact ⟨a, _, rfl, hle, hlt⟩

end Sys2Proof.Machine
end

section
/-! PROOFS. The address map of the register space: Target.offset and decodeOffset are inverse to each other off the
reserved ranges (20_memory.md R62 to R64). -/

namespace Sys2Proof.Machine

/-- The 17 control registers stand at the word numbers 0 to 16 (20_memory.md R62). -/
theorem offset_controlRegister :
    ∀ n < 17, controlRegister n ≠ .reserved ∧ (controlRegister n).offset.toNat = 4 * n := by
  decide

/-- An offset in one of the reserved ranges (20_memory.md R64). -/
abbrev ReservedOffset (a : Nat) : Prop := (0x044 ≤ a ∧ a < 0x080) ∨ (0xC40 ≤ a ∧ a < 0xD00) ∨ 0xE20 ≤ a

/-- What it is for a target to be the right reading of the offset `a`. -/
inductive NamedBy (a : Nat) : Target → Prop where
  | reserved (hr : ReservedOffset a) : NamedBy a .reserved
  | element {tgt : Target} (hne : tgt ≠ .reserved) (hr : ¬ ReservedOffset a) (hoff : tgt.offset.toNat = a) :
    NamedBy a tgt

/-- Every aligned offset is read rightly: the ranges of the decode (20_memory.md R64) one by one, the control registers
first, then the reserved ranges, then the arrays. -/
theorem decodeOffset_namedBy {a : Nat} (ha : a < 4096) (h4 : a % 4 = 0) : NamedBy a (decodeOffset a) := by
  unfold decodeOffset
  refine iteInduction (fun _ => ?_) fun _ => ?_
  · obtain ⟨hne, hoff⟩ := offset_controlRegister (a / 4) (by omega)
    exact .element hne (by omega) (by omega)
  repeat' refine iteInduction (fun _ => ?_) fun _ => ?_
  any_goals exact .reserved (by omega)
  all_goals
    refine .element nofun (by omega) ?_
    simp only [Target.offset, Fin.ofNat, BitVec.toNat_ofNat]
    omega

/-- Every register and array element is found at its offset. -/
theorem decodeOffset_offset {tgt : Target} (h : tgt ≠ .reserved) : decodeOffset tgt.offset.toNat = tgt := by
  cases tgt with
  | reserved => exact absurd rfl h
  | m _ | h _ | wk _ | w _ | t1 _ | t2 _ | wr _ _ | hin _ | hout _ | k _ | iv _ =>
    simp (disch := omega) only [Target.offset, BitVec.toNat_ofNat, decodeOffset, Nat.mod_eq_of_lt, if_neg, if_pos]
    congr 1 <;> (apply Fin.ext; simp only [Fin.val_ofNat]; omega)
  | _ => rfl

/-- Every offset of the map is a multiple of 4. -/
theorem offset_aligned (tgt : Target) : tgt.offset.toNat % 4 = 0 := by
  cases tgt with
  | m _ | h _ | wk _ | w _ | t1 _ | t2 _ | wr _ _ | hin _ | hout _ | k _ | iv _ =>
    simp only [Target.offset, BitVec.toNat_ofNat]; omega
  | _ => rfl

/-- Settles O53: each target is decoded from its offset, and each aligned offset names the target it should. -/
theorem offsetMapIsExact : Obligations.OffsetMapIsExact := by
  refine ⟨fun tgt h => ⟨decodeOffset_offset h, offset_aligned tgt⟩, fun a ha h4 => ?_⟩
  have h := decodeOffset_namedBy ha h4
  generalize decodeOffset a = tgt at h
  cases h with
  | reserved hr => exact ⟨iff_of_true rfl hr, fun hne => absurd rfl hne⟩
  | element hne hr hoff => exact ⟨iff_of_false hne hr, fun _ => hoff⟩

/-- An aligned offset names a register or array element exactly if it is its offset. -/
theorem decodeOffset_eq_iff {a : BitVec 12} (ha : a.toNat % 4 = 0) {tgt : Target} (hne : tgt ≠ .reserved) :
    decodeOffset a.toNat = tgt ↔ a = tgt.offset := by
  refine ⟨?_, fun h => h ▸ decodeOffset_offset hne⟩
  rintro rfl
  exact BitVec.eq_of_toNat_eq ((offsetMapIsExact.2 a.toNat a.isLt ha).2 hne).symm

end Sys2Proof.Machine
end

section
/-! PROOFS. The moves of the host and of the engine, one equation of `step` per move (20_memory.md R61, R66 to R71). -/

namespace Sys2Proof.Machine

section
variable {s : State} {rest : List Event}

theorem step_idle (h : s.agenda = []) : step s = engineStep s := by
  simp [step, h]

theorem step_engine (h : s.agenda = .engine :: rest) : step s = engineStep { s with agenda := rest } := by
  simp [step, h]

theorem step_read {bytes : Nat} {a : BitVec 12} (h : s.agenda = .read bytes a :: rest) :
    step s = hostRead bytes a { s with agenda := rest } := by
  simp [step, h]

theorem step_write {bytes : Nat} {a : BitVec 12} {v : Word} (h : s.agenda = .write bytes a v :: rest) :
    step s = hostWrite bytes a v { s with agenda := rest } := by
  simp [step, h]

/-- An aligned read reads the target of its offset. -/
theorem step_read_aligned {a : BitVec 12} (h : s.agenda = .read 4 a :: rest) (ha : a.toNat % 4 = 0) :
    step s = .next (readTarget (decodeOffset a.toNat) { s with agenda := rest }) :=
  (step_read h).trans (hostRead_allowed ⟨rfl, ha⟩ _)

/-- An aligned write writes the target of its offset. -/
theorem step_write_aligned {a : BitVec 12} {v : Word} (h : s.agenda = .write 4 a v :: rest) (ha : a.toNat % 4 = 0) :
    step s = .next (writeTarget (decodeOffset a.toNat) v { s with agenda := rest }) :=
  (step_write h).trans (hostWrite_allowed ⟨rfl, ha⟩ v _)

/-- An aligned write while BUSY = 0 has the effect its target's row says (20_memory.md R67). -/
theorem step_write_idle {a : BitVec 12} {v : Word} (h : s.agenda = .write 4 a v :: rest) (ha : a.toNat % 4 = 0)
    (hb : s.busy = false) : step s = .next (writeIdle (decodeOffset a.toNat) v { s with agenda := rest }) :=
  (step_write_aligned h ha).trans (congrArg _ (writeTarget_idle _ v _ hb))

/-- A pending command is executed once PENDING is cleared. -/
theorem engineStep_pending {c : Word} {i : Instr} (hp : s.pending = some c) (hd : decodeCmd c = .ok i) :
    engineStep s = exec i (clearPending s) := by
  simp [engineStep, hp, hd]

theorem engineStep_none (hp : s.pending = none) : engineStep s = .next s := by
  simp [engineStep, hp]

end

/-- Settles O6: on an idle agenda and on an engine move alike, the step is the engine's. -/
theorem stepExecutesPendingCommand : Obligations.StepExecutesPendingCommand := by
  refine ⟨fun s c i hp hd => ⟨fun h => ?_, fun rest h => ?_⟩, fun s hp => ⟨fun h => ?_, fun rest h => ?_⟩⟩
  · exact (step_idle h).trans (engineStep_pending hp hd)
  · exact (step_engine h).trans (engineStep_pending hp hd)
  · exact (step_idle h).trans (engineStep_none hp)
  · exact (step_engine h).trans (engineStep_none hp)

/-- Settles O60: an access outside the interface is refused whether it reads or writes. -/
theorem otherAccessIsRefused : Obligations.OtherAccessIsRefused := by
  intro s bytes a rest h
  have hout : ¬ (bytes = 4 ∧ a.toNat % 4 = 0) := by omega
  exact ⟨fun hs => (step_read hs).trans (hostRead_refused hout _),
    fun v hs => (step_write hs).trans (hostWrite_refused hout v _)⟩

end Sys2Proof.Machine
end

section
/-! PROOFS. Host reads: which are exact, and the value each target reads as (20_memory.md R66, R69). -/

namespace Sys2Proof.Machine

theorem exactWhileBusy_iff (tgt : Target) : tgt.exactWhileBusy = true ↔ tgt = .id ∨ tgt = .status := by
  cases tgt <;> simp [Target.exactWhileBusy]

/-- The offsets that read exactly while BUSY = 1 are those of ID and STATUS (20_memory.md R69). -/
theorem exactWhileBusy_decodeOffset {a : BitVec 12} (ha : a.toNat % 4 = 0) :
    (decodeOffset a.toNat).exactWhileBusy = true ↔ a = 0x000 ∨ a = 0x008 := by
  rw [exactWhileBusy_iff, decodeOffset_eq_iff ha (tgt := .id) nofun, decodeOffset_eq_iff ha (tgt := .status) nofun]
  rfl

/-- Settles O54: an aligned read is exact while BUSY = 0 and at the two offsets, and free otherwise. -/
theorem readReturnsValue : Obligations.ReadReturnsValue := by
  intro s a rest hs ha
  have hstep := step_read_aligned hs ha
  refine ⟨fun h => ?_, fun hb h0 h8 => ?_⟩
  · have hexact := h.imp_right (exactWhileBusy_decodeOffset ha).2
    exact hstep.trans (congrArg _ (readTarget_exact _ _ hexact))
  · have hfree := Bool.eq_false_iff.2 (mt (exactWhileBusy_decodeOffset ha).1 (not_or_intro h0 h8))
    exact hstep.trans (congrArg _ (readTarget_busy _ _ hb hfree))

/-! ### The fields of the packed registers -/

theorem toNat_append_eq_add {m n : Nat} (x : BitVec m) (y : BitVec n) :
    (x ++ y).toNat = 2 ^ n * x.toNat + y.toNat := by
  rw [BitVec.toNat_append, ← Nat.shiftLeft_add_eq_or_of_lt y.isLt, Nat.shiftLeft_eq, Nat.mul_comm]

/-- STATUS.ERR as a proposition (10_state.md R24). -/
theorem err_eq_decide (s : State) : s.err = decide (s.errcode ≠ .noError) :=
  Bool.eq_iff_iff.2 (by simp [State.err])

/-- STATUS is the sum of its fields at their places (20_memory.md R66). -/
theorem statusWord_toNat (s : State) : (statusWord s).toNat = s.busy.toNat + 2 * s.fsm.code.toNat + 8 * s.err.toNat +
    16 * s.inblock.toNat + 32 * s.path.code.toNat + 128 * s.chkok.toNat := by
  simp only [statusWord, toNat_append_eq_add, BitVec.toNat_ofBool, BitVec.toNat_ofNat]
  omega

/-- CTRL is the sum of its fields at their places (20_memory.md R66). -/
theorem ctrlWord_toNat (s : State) : (ctrlWord s).toNat = s.endian.toNat + 2 * s.padbyp.toNat := by
  cases h : s.endian <;> cases h' : s.padbyp <;> simp [ctrlWord, h, h']

theorem fsmCode_toNat (f : Fsm) :
    f.code.toNat = (match f with | .initialized => 0 | .processing => 1 | .finalized => 2) := by
  cases f <;> rfl

theorem pathCode_toNat (p : Path) : p.code.toNat = (match p with | .none => 0 | .word => 1 | .bit => 2) := by
  cases p <;> rfl

theorem errCode_toNat (e : ErrCode) : e.code.toNat = (match e with
      | .noError => 0 | .lengthMismatch => 1 | .malformedBlock => 2 | .constraintViolation => 3
      | .illegalCmd => 4 | .sequence => 5 | .busy => 6 | .lengthOverflow => 7) := by
  cases e <;> rfl

/-- LENLO and LENHI together are L (10_state.md R30). -/
theorem len_halves (l : BitVec 64) : (l.extractLsb' 0 32).toNat + 2 ^ 32 * (l.extractLsb' 32 32).toNat = l.toNat := by
  have hl := l.isLt
  simp only [BitVec.extractLsb'_toNat, Nat.shiftRight_eq_div_pow]
  omega

/-- Settles O55: a packed register reads as the sum of its fields, everything else as the element itself. -/
theorem readValuesOfRegisters : Obligations.ReadValuesOfRegisters := by
  refine ⟨fun s => ?_, fun s j i t => ⟨rfl, rfl, rfl, rfl, rfl, rfl, rfl, rfl, rfl, rfl, rfl⟩⟩
  refine ⟨rfl, ctrlWord_toNat s, ?status, rfl, ?errcode, rfl, ?roundt, ?vmask, len_halves s.len, rfl, rfl, rfl, rfl,
    rfl, rfl, ?carry, rfl⟩
  case status =>
    refine (statusWord_toNat s).trans ?_
    rw [fsmCode_toNat, pathCode_toNat, err_eq_decide]
    rfl
  case errcode => exact (BitVec.toNat_setWidth_of_le (by decide)).trans (errCode_toNat s.errcode)
  case roundt =>
    have ht := s.t.isLt
    exact (BitVec.toNat_ofNat _ _).trans (Nat.mod_eq_of_lt (by omega))
  case vmask => exact BitVec.toNat_setWidth_of_le (by decide)
  case carry => exact BitVec.toNat_setWidth_of_le (by decide)

end Sys2Proof.Machine
end

section
/-! PROOFS. Host writes (20_memory.md R67, R68, R70). -/

namespace Sys2Proof.Machine

/-- Settles O57: a busy write is dropped whatever its target. -/
theorem busyWriteIsDropped : Obligations.BusyWriteIsDropped := by
  intro s a v rest hs ha hb
  exact (step_write_aligned hs ha).trans (congrArg _ (writeTarget_busy _ v _ hb))

/-- Settles O59: the read-only targets have no write. -/
theorem readOnlyWriteIsIgnored : Obligations.ReadOnlyWriteIsIgnored := by
  intro s a v rest hs ha hb h
  rw [step_write_idle hs ha hb]
  congr 1
  generalize decodeOffset a.toNat = tgt at h
  cases tgt with
  | cmd | ctrl | bits | x | y | z | m _ | w _ | t1 _ | t2 _ | wr _ _ | hin _ | hout _ => simp at h
  | _ => rfl

/-- The two bits a write of CTRL takes (20_memory.md R67). -/
theorem lowBits_ctrl (v : Word) :
    v.getLsbD 0 = decide (v.toNat % 2 = 1) ∧ v.getLsbD 1 = decide (v.toNat / 2 % 2 = 1) := by
  simp [BitVec.getLsbD, Nat.testBit_eq_decide_div_mod_eq]

/-- Marking word j in VMASK sets bit j alone (20_memory.md R67). -/
theorem getLsbD_mark (vm : BitVec 16) (j : Fin 16) (b : Nat) :
    (vm ||| (1#16 <<< j.val)).getLsbD b = (decide (b = j.val) || vm.getLsbD b) := by
  rw [← BitVec.twoPow_eq, BitVec.getLsbD_or, BitVec.getLsbD_twoPow]
  simp [Bool.or_comm, eq_comm]

/-- On the bit path a write of M is refused (20_memory.md R67). -/
theorem writeBlockWord_refused (j : Fin 16) (v : Word) (s : State) (hp : s.path = .bit) : writeBlockWord j v s =
    { s with errcode := if s.errcode = .noError then .sequence else s.errcode } := by
  rw [writeBlockWord, if_pos hp, record_eq]

/-- Off the bit path a write of M takes the word and marks it (20_memory.md R67). -/
theorem writeBlockWord_marks (j : Fin 16) (v : Word) (s : State) (hp : s.path ≠ .bit) : writeBlockWord j v s =
    { s with m := s.m.set j.val v, vmask := s.vmask ||| (1#16 <<< j.val) } :=
  if_neg hp

/-- Settles O58: each writable target is found at its offset, and its row of the write table is the effect. -/
theorem writeEffects : Obligations.WriteEffects := by
  intro s tgt v rest hs hb
  have hstep : tgt ≠ .reserved → step s = .next (writeIdle tgt v { s with agenda := rest }) := fun hne =>
    (step_write_idle hs (offset_aligned tgt) hb).trans (by rw [decodeOffset_offset hne])
  refine ⟨?cmd, ?ctrl, ?bits, ?x, ?y, ?z, ?m, ?w, ?t1, ?t2, ?wr, ?hin, ?hout⟩
  case ctrl =>
    rintro rfl
    obtain ⟨hendian, hpadbyp⟩ := lowBits_ctrl v
    rw [hstep nofun, ← hendian, ← hpadbyp]
    rfl
  case m =>
    rintro j rfl
    have hwrite : step s = .next (writeBlockWord j v { s with agenda := rest }) := hstep nofun
    refine ⟨fun hp => ?_, fun hp => ⟨s.vmask ||| (1#16 <<< j.val), ?_, fun b _ => getLsbD_mark s.vmask j b⟩⟩
    · exact hwrite.trans (congrArg _ (writeBlockWord_refused j v _ hp))
    · exact hwrite.trans (congrArg _ (writeBlockWord_marks j v _ hp))
  all_goals
    intros
    subst tgt
    exact hstep nofun

end Sys2Proof.Machine
end

section
/-! PROOFS. The command word: it is its five fields (30_encoding.md R91), the assembler's word of a command has the
fields of R102, and the masks of R97 test them. -/

namespace Sys2Proof

/-! ### The fields of a word (30_encoding.md R91) -/

theorem fieldOpc_toNat (c : Word) : (fieldOpc c).toNat = c.toNat % 256 := by
  simp [fieldOpc]

theorem fieldImm5_toNat (c : Word) : (fieldImm5 c).toNat = c.toNat / 256 % 32 := by
  simp [fieldImm5, Nat.shiftRight_eq_div_pow]

theorem fieldRes0_toNat (c : Word) : (fieldRes0 c).toNat = c.toNat / 8192 % 8 := by
  simp [fieldRes0, Nat.shiftRight_eq_div_pow]

theorem fieldL_toNat (c : Word) : (fieldL c).toNat = c.toNat / 65536 % 2 := by
  simp [fieldL, BitVec.getLsbD, Nat.toNat_testBit]

theorem fieldRes1_toNat (c : Word) : (fieldRes1 c).toNat = c.toNat / 131072 := by
  have hc := c.isLt
  simp only [fieldRes1, BitVec.extractLsb'_toNat, Nat.shiftRight_eq_div_pow]
  omega

/-- The flag L as a number. -/
theorem fieldL_eq_iff (c : Word) (l : Bool) : fieldL c = l ↔ c.toNat / 65536 % 2 = l.toNat := by
  rw [← fieldL_toNat, (Function.LeftInverse.injective Bool.ofNat_toNat).eq_iff]

/-- The fields cover the word: it has the given ones, and 0 in the reserved ones, iff its number is their sum, each at
its place. -/
theorem fields_iff_toNat (c : Word) (opc : BitVec 8) (imm : BitVec 5) (l : Bool) :
    (fieldRes0 c = 0 ∧ fieldRes1 c = 0 ∧ fieldOpc c = opc ∧ fieldImm5 c = imm ∧ fieldL c = l) ↔
      c.toNat = opc.toNat + 2 ^ 8 * imm.toNat + 2 ^ 16 * l.toNat := by
  have hopc := opc.isLt
  have himm := imm.isLt
  have hl := l.toNat_lt
  simp only [← BitVec.toNat_inj, fieldL_eq_iff, fieldOpc_toNat, fieldImm5_toNat, fieldRes0_toNat, fieldRes1_toNat,
    BitVec.ofNat_eq_ofNat, BitVec.toNat_ofNat]
  omega

/-- The operand fields a class allows (30_encoding.md R92). -/
def Format.Admits (f : Format) (imm : BitVec 5) (l : Bool) : Prop :=
  (f = .plain ∨ f = .flag → imm = 0) ∧ (f ≠ .flag → l = false)

section
variable {imm : BitVec 5} {l : Bool}

@[simp] theorem Format.admits_plain : Format.plain.Admits imm l ↔ imm = 0 ∧ l = false := by
  simp [Format.Admits]

@[simp] theorem Format.admits_shift : Format.shift.Admits imm l ↔ l = false := by
  simp [Format.Admits]

@[simp] theorem Format.admits_count : Format.count.Admits imm l ↔ l = false := by
  simp [Format.Admits]

@[simp] theorem Format.admits_flag : Format.flag.Admits imm l ↔ imm = 0 := by
  simp [Format.Admits]

end

/-! ### The encoder (30_encoding.md R102) -/

/-- The assembler's parts do not overlap, so their union is their sum. -/
theorem encode_toNat (i : Instr) :
    (encode i).toNat = i.opc.toNat + 2 ^ 8 * i.imm5.toNat + 2 ^ 16 * i.lastBit.toNat := by
  have hopc := i.opc.isLt
  have himm := i.imm5.isLt
  have hl := i.lastBit.toNat_lt
  have hlow := Nat.shiftLeft_add_eq_or_of_lt hopc i.imm5.toNat
  have hhigh := Nat.shiftLeft_add_eq_or_of_lt (i := 16) (b := i.imm5.toNat <<< 8 + i.opc.toNat) (by omega)
    i.lastBit.toNat
  simp only [encode, BitVec.toNat_or, BitVec.toNat_shiftLeft, BitVec.truncate_eq_setWidth, BitVec.toNat_setWidth,
    BitVec.toNat_ofBool]
  repeat rw [Nat.mod_eq_of_lt (by omega)]
  rw [Nat.or_comm, Nat.or_comm i.opc.toNat, ← hlow, ← hhigh]
  omega

/-- A word is a command's encoding iff its fields are the command's (30_encoding.md R91, R102). -/
theorem encode_eq_iff (i : Instr) (c : Word) : encode i = c ↔
    fieldRes0 c = 0 ∧ fieldRes1 c = 0 ∧ fieldOpc c = i.opc ∧ fieldImm5 c = i.imm5 ∧ fieldL c = i.lastBit := by
  rw [fields_iff_toNat, ← encode_toNat, BitVec.toNat_inj, eq_comm]

/-! ### A masked word, field by field -/

section
variable (c d : Word)

theorem fieldOpc_and : fieldOpc (c &&& d) = fieldOpc c &&& fieldOpc d := BitVec.extractLsb'_and

theorem fieldImm5_and : fieldImm5 (c &&& d) = fieldImm5 c &&& fieldImm5 d := BitVec.extractLsb'_and

theorem fieldRes0_and : fieldRes0 (c &&& d) = fieldRes0 c &&& fieldRes0 d := BitVec.extractLsb'_and

theorem fieldL_and : fieldL (c &&& d) = (fieldL c && fieldL d) := BitVec.getLsbD_and

theorem fieldRes1_and : fieldRes1 (c &&& d) = fieldRes1 c &&& fieldRes1 d := BitVec.extractLsb'_and

end

/-! ### The rows of the opcode map (30_encoding.md R96, R97) -/

theorem row_mem (i : Instr) : i.row ∈ opcodeRows := by
  cases i <;> exact List.mem_of_elem_eq_true rfl

theorem exists_row_eq : ∀ r ∈ opcodeRows, ∃ i : Instr, i.row = r := by
  simp [opcodeRows]

/-- The mask of a class keeps every field but the one the class takes its operand from (30_encoding.md R97). -/
theorem fields_mask (f : Format) : fieldRes0 f.mask = BitVec.allOnes 3 ∧ fieldRes1 f.mask = BitVec.allOnes 15 ∧
    fieldOpc f.mask = BitVec.allOnes 8 ∧
    fieldImm5 f.mask = (if f = .plain ∨ f = .flag then BitVec.allOnes 5 else 0) ∧
    fieldL f.mask = decide (f ≠ .flag) := by
  cases f <;> decide

/-- With its operand field masked out, a word has no operand iff its class allows its operand fields. -/
theorem admits_iff_masked (f : Format) (c : Word) :
    fieldImm5 (c &&& f.mask) = 0 ∧ fieldL (c &&& f.mask) = false ↔ f.Admits (fieldImm5 c) (fieldL c) := by
  obtain ⟨-, -, -, himm, hl⟩ := fields_mask f
  rw [fieldImm5_and, fieldL_and, himm, hl]
  cases f <;> simp [-BitVec.reduceAllOnes]

/-- A word selects a row iff the opcode is the row's, the reserved fields are 0, and the row's class allows the operand
fields. -/
theorem Row.selects_iff (r : Row) (c : Word) : r.selects c = true ↔
    fieldRes0 c = 0 ∧ fieldRes1 c = 0 ∧ fieldOpc c = r.opc ∧ r.format.Admits (fieldImm5 c) (fieldL c) := by
  have hmatch : r.matchWord.toNat = r.opc.toNat + 2 ^ 8 * (0 : BitVec 5).toNat + 2 ^ 16 * false.toNat :=
    BitVec.toNat_setWidth_of_le (by decide)
  obtain ⟨hres0, hres1, hopc, -, -⟩ := fields_mask r.format
  rw [Row.selects, beq_iff_eq, ← BitVec.toNat_inj, hmatch, ← fields_iff_toNat, admits_iff_masked, fieldRes0_and,
    fieldRes1_and, fieldOpc_and, hres0, hres1, hopc, BitVec.and_allOnes, BitVec.and_allOnes, BitVec.and_allOnes]

end Sys2Proof
end

section
/-! PROOFS. The decoder (30_encoding.md R101): a word decodes to a command iff it is the encoding of that well-formed
command, and decodes to a command of a row iff it selects that row. -/

namespace Sys2Proof

section
variable {imm : BitVec 5} {l : Bool} {j : Instr}

theorem decodeN_ok_iff {i : Instr} : decodeN i imm l = .ok j ↔ Format.plain.Admits imm l ∧ i = j := by
  unfold decodeN
  split_ifs <;> simp_all

theorem decodeS_ok_iff {mk : Nat → Instr} :
    decodeS mk imm l = .ok j ↔ Format.shift.Admits imm l ∧ mk imm.toNat = j := by
  unfold decodeS
  split_ifs <;> simp_all

theorem decodeC_ok_iff {mk : Nat → Instr} :
    decodeC mk imm l = .ok j ↔ Format.count.Admits imm l ∧ mk (imm.toNat + 1) = j := by
  unfold decodeC
  split_ifs <;> simp_all

theorem decodeF_ok_iff {mk : Bool → Instr} : decodeF mk imm l = .ok j ↔ Format.flag.Admits imm l ∧ mk l = j := by
  unfold decodeF
  split_ifs <;> simp_all

/-- The command of the same row whose operand the fields give (30_encoding.md R93 to R95). -/
def Instr.withFields (imm : BitVec 5) (l : Bool) : Instr → Instr
  | .compress _ => .compress l
  | .feedfwd _ => .feedfwd l
  | .msgPush _ => .msgPush (imm.toNat + 1)
  | .rotr _ => .rotr imm.toNat
  | .shr _ => .shr imm.toNat
  | i => i

theorem Instr.row_withFields (i : Instr) : (i.withFields imm l).row = i.row := by
  cases i <;> rfl

/-- On a command's opcode the decoder accepts the operand fields the class allows, and takes the operand from them. -/
theorem decodeOpcode_opc (i : Instr) :
    decodeOpcode i.opc.toNat imm l = .ok j ↔ i.format.Admits imm l ∧ i.withFields imm l = j := by
  cases i with
  | compress | feedfwd => exact decodeF_ok_iff
  | msgPush => exact decodeC_ok_iff
  | rotr | shr => exact decodeS_ok_iff
  | _ => exact decodeN_ok_iff

/-- What an opcode decodes to has that opcode. -/
theorem opc_of_decodeOpcode {opc : Nat} (h : decodeOpcode opc imm l = .ok j) : opc = j.opc.toNat := by
  unfold decodeOpcode at h
  split at h
  case h_27 => cases h
  all_goals
    simp only [decodeN_ok_iff, decodeS_ok_iff, decodeC_ok_iff, decodeF_ok_iff] at h
    obtain ⟨-, rfl⟩ := h
    rfl

/-- A field of five bits is that of a number in its range iff it has that number. -/
theorem eq_ofNat_imm5_iff (n : Nat) : n ≤ 31 ∧ imm = BitVec.ofNat 5 n ↔ imm.toNat = n := by
  have himm := imm.isLt
  rw [← BitVec.toNat_inj, BitVec.toNat_ofNat]
  omega

/-- The fields give a command back iff its operand is in range and they are the fields it is written with. -/
theorem Instr.withFields_eq_iff (i : Instr) :
    i.format.Admits imm l ∧ i.withFields imm l = i ↔ i.WellFormed ∧ imm = i.imm5 ∧ l = i.lastBit := by
  simp only [WellFormed]
  cases i with
  | msgPush n =>
    have hn : imm.toNat + 1 = n ↔ 1 ≤ n ∧ imm.toNat = n - 1 := by omega
    have hrange : n - 1 ≤ 31 ↔ n ≤ 32 := by omega
    simp only [format, withFields, imm5, lastBit, wellFormed, Format.admits_count, Instr.msgPush.injEq,
      Bool.and_eq_true, decide_eq_true_iff, hn, ← eq_ofNat_imm5_iff, hrange]
    tauto
  | rotr n | shr n =>
    simp [format, withFields, imm5, lastBit, wellFormed, ← eq_ofNat_imm5_iff, and_comm, and_assoc]
  | _ => simp [format, withFields, imm5, lastBit, wellFormed]

/-- An opcode with its operand fields decodes to exactly the well-formed command that is written with them. -/
theorem decodeOpcode_ok_iff {opc : Nat} :
    decodeOpcode opc imm l = .ok j ↔ opc = j.opc.toNat ∧ j.WellFormed ∧ imm = j.imm5 ∧ l = j.lastBit := by
  rw [← j.withFields_eq_iff, ← decodeOpcode_opc]
  exact ⟨fun h => ⟨opc_of_decodeOpcode h, opc_of_decodeOpcode h ▸ h⟩, fun ⟨hopc, h⟩ => hopc ▸ h⟩

end

/-- A word whose reserved fields are 0 is decoded by its other fields. -/
theorem decodeCmd_ok_iff_fields (c : Word) (i : Instr) : decodeCmd c = .ok i ↔ fieldRes0 c = 0 ∧ fieldRes1 c = 0 ∧
    decodeOpcode (fieldOpc c).toNat (fieldImm5 c) (fieldL c) = .ok i := by
  unfold decodeCmd
  split_ifs with h
  · have hno : ¬ (fieldRes0 c = 0 ∧ fieldRes1 c = 0) := not_and_or.2 h
    rw [← and_assoc]
    exact ⟨nofun, fun hdec => absurd hdec.1 hno⟩
  · obtain ⟨hres0, hres1⟩ := not_or.1 h
    exact ⟨fun hdec => ⟨not_not.1 hres0, not_not.1 hres1, hdec⟩, fun hdec => hdec.2.2⟩

/-- A word decodes to exactly the well-formed command whose encoding it is. -/
theorem decodeCmd_ok_iff (c : Word) (i : Instr) : decodeCmd c = .ok i ↔ i.WellFormed ∧ encode i = c := by
  rw [decodeCmd_ok_iff_fields, decodeOpcode_ok_iff, encode_eq_iff, BitVec.toNat_inj]
  tauto

/-- A word selects a command's row iff it decodes to a command of that row. -/
theorem selects_iff_decodes (r : Row) (hr : r ∈ opcodeRows) (c : Word) :
    r.selects c = true ↔ ∃ i, decodeCmd c = .ok i ∧ i.row = r := by
  obtain ⟨i, rfl⟩ := exists_row_eq r hr
  rw [Row.selects_iff]
  constructor
  · rintro ⟨hres0, hres1, hopc, hadm⟩
    refine ⟨i.withFields (fieldImm5 c) (fieldL c), (decodeCmd_ok_iff_fields _ _).2 ⟨hres0, hres1, ?_⟩,
      i.row_withFields⟩
    rw [hopc]
    exact (decodeOpcode_opc i).2 ⟨hadm, rfl⟩
  · rintro ⟨j, hj, hrow⟩
    obtain ⟨hres0, hres1, hdec⟩ := (decodeCmd_ok_iff_fields _ _).1 hj
    have hopc := BitVec.toNat_inj.1 (opc_of_decodeOpcode hdec)
    rw [hopc] at hdec
    exact hrow ▸ ⟨hres0, hres1, hopc, ((decodeOpcode_opc j).1 hdec).1⟩

/-- Settles O1: the encoding of a well-formed command decodes to it, by `decodeCmd_ok_iff`. -/
theorem decodeOfEncode : Obligations.DecodeOfEncode :=
  fun i hwf => (decodeCmd_ok_iff (encode i) i).2 ⟨hwf, rfl⟩

/-- Settles O2: a decoding word is its command's encoding; two commands of one encoding decode alike. -/
theorem encodeOfDecode : Obligations.EncodeOfDecode := by
  intro c i hi
  obtain ⟨hwf, henc⟩ := (decodeCmd_ok_iff c i).1 hi
  refine ⟨hwf, henc, fun j hwfj hencj => ?_⟩
  have hj : decodeCmd c = .ok j := (decodeCmd_ok_iff c j).2 ⟨hwfj, hencj⟩
  exact Except.ok.inj (hj.symm.trans hi)

/-- Settles O4: the mask test is `Row.selects`; a word decodes to at most one command, so to at most one row. -/
theorem maskAndMatchSelectRow : Obligations.MaskAndMatchSelectRow := by
  refine ⟨fun c r hr => ?_, fun c r r' hr hr' h h' => ?_⟩
  · rw [← selects_iff_decodes r hr, Row.selects, beq_iff_eq]
    rfl
  · obtain ⟨i, hi, rfl⟩ := (selects_iff_decodes r hr c).1 h
    obtain ⟨i', hi', rfl⟩ := (selects_iff_decodes r' hr' c).1 h'
    rw [Except.ok.inj (hi.symm.trans hi')]

/-- Settles O5: the decoder evaluated on each sample word. -/
theorem sampleWordsDecode : Obligations.SampleWordsDecode := by
  unfold Obligations.SampleWordsDecode
  decide

end Sys2Proof
end

section
/-! PROOFS. The illegal words (30_encoding.md R98). -/

namespace Sys2Proof.Machine

/-- An opcode no row of the opcode map has (30_encoding.md R98 (a)); `assigned_iff` ties it to the map. -/
def Unassigned (opc : Nat) : Prop :=
  (0x03 ≤ opc ∧ opc ≤ 0x0F) ∨ (0x16 ≤ opc ∧ opc ≤ 0x1F) ∨ (0x22 ≤ opc ∧ opc ≤ 0x3F) ∨ opc = 0x47 ∨
    opc = 0x4A ∨ opc = 0x4B ∨ (0x52 ≤ opc ∧ opc ≤ 0xFF)

theorem assigned_iff (opc : BitVec 8) : (∃ r ∈ opcodeRows, r.opc = opc) ↔ ¬ Unassigned opc.toNat := by
  have hopc := opc.isLt
  simp only [opcodeRows, List.cons_append, List.nil_append, List.exists_mem_cons_iff, List.not_mem_nil, false_and,
    exists_false, or_false, Instr.row, Instr.opc, Unassigned, ← BitVec.toNat_inj, BitVec.ofNat_eq_ofNat,
    BitVec.toNat_ofNat]
  omega

/-- The classes that take no IMM5, and those that take no L, by the opcodes that do take one. -/
theorem format_iff_opc : ∀ r ∈ opcodeRows,
    (r.format = .plain ∨ r.format = .flag ↔ r.opc.toNat ∉ [0x20, 0x48, 0x49]) ∧
      (r.format ≠ .flag ↔ r.opc.toNat ∉ [0x10, 0x14]) := by
  decide

/-- A word is a command iff its opcode is assigned, its reserved fields are 0, and it has no operand field its opcode
does not take. -/
theorem decodes_iff (c : Word) : (∃ i, decodeCmd c = .ok i) ↔
    ¬ Unassigned (fieldOpc c).toNat ∧ (fieldRes0 c = 0 ∧ fieldRes1 c = 0) ∧
      ((fieldOpc c).toNat ∉ [0x20, 0x48, 0x49] → fieldImm5 c = 0) ∧
      ((fieldOpc c).toNat ∉ [0x10, 0x14] → fieldL c = false) := by
  rw [← assigned_iff]
  constructor
  · rintro ⟨i, hi⟩
    have hsel : i.row.selects c = true := (selects_iff_decodes _ (row_mem i) c).2 ⟨i, hi, rfl⟩
    obtain ⟨hres0, hres1, hopc, himm, hl⟩ := (i.row.selects_iff c).1 hsel
    obtain ⟨hno_imm, hno_l⟩ := format_iff_opc _ (row_mem i)
    rw [hopc, ← hno_imm, ← hno_l]
    exact ⟨⟨_, row_mem i, rfl⟩, ⟨hres0, hres1⟩, himm, hl⟩
  · rintro ⟨⟨r, hr, hopc⟩, ⟨hres0, hres1⟩, himm, hl⟩
    obtain ⟨hno_imm, hno_l⟩ := format_iff_opc r hr
    rw [← hopc, ← hno_imm] at himm
    rw [← hopc, ← hno_l] at hl
    have hsel : r.selects c = true := (r.selects_iff c).2 ⟨hres0, hres1, hopc.symm, himm, hl⟩
    obtain ⟨i, hi, -⟩ := (selects_iff_decodes r hr c).1 hsel
    exact ⟨i, hi⟩

/-- Decoding is total: a word is illegal iff it is no command. -/
theorem illegal_iff (c : Word) : (∃ why, decodeCmd c = .error why) ↔ ¬ ∃ i, decodeCmd c = .ok i := by
  cases decodeCmd c <;> simp

/-- The engine raises ILLEGAL_CMD on an illegal word once PENDING is cleared. -/
theorem engineStep_illegal {s : State} {c : Word} {why : Illegal} (hp : s.pending = some c)
    (hd : decodeCmd c = .error why) : engineStep s = .next (record .illegalCmd (clearPending s)) := by
  simp [engineStep, hp, hd, raise]

/-- Settles O3: a word is illegal iff one of the conditions of `decodes_iff` fails, and the engine step of an illegal
word is `record`. -/
theorem illegalWordsExactly : Obligations.IllegalWordsExactly := by
  refine ⟨fun c => ?_, fun s c why hp hd => ?_⟩
  · rw [illegal_iff, decodes_iff]
    simp only [not_and_or, not_not, Classical.not_imp, ← BitVec.toNat_inj, fieldL_eq_iff, fieldOpc_toNat,
      fieldRes0_toNat, fieldRes1_toNat, fieldImm5_toNat, BitVec.ofNat_eq_ofNat, BitVec.toNat_ofNat, Bool.toNat_false,
      Nat.zero_mod]
    exact or_congr .rfl (or_congr .rfl (or_congr and_comm and_comm))
  · exact (engineStep_illegal hp hd).trans (congrArg _ (record_eq _ _))

end Sys2Proof.Machine
end

section
/-! PROOFS. The control commands NOP, INIT and CLRERR (40_control.md R111 to R113): each completes in every state. -/

namespace Sys2Proof.Machine

theorem exec_nop (s : State) : exec .nop s = .next s := rfl

theorem exec_init (s : State) : exec .init s = .next { s with
    h := Rom.IV, blkidx := 0, t := 0, inblock := false, len := 0, vmask := 0, path := .none, fsm := .initialized } :=
  rfl

theorem exec_clrerr (s : State) : exec .clrerr s = .next { s with errcode := .noError } := rfl

theorem busy_of_pending {s : State} {c : Word} (hp : s.pending = some c) : s.busy = true :=
  Option.isSome_iff_exists.2 ⟨c, hp⟩

/-- Settles O8: the word 0 is NOP's encoding, so the engine step on it is NOP's on the state with PENDING cleared. -/
theorem nopChangesNothing : Obligations.NopChangesNothing := by
  have hdec : decodeCmd 0x00000000 = .ok .nop := decodeOfEncode .nop rfl
  refine ⟨hdec, exec_nop, fun s hp => ⟨busy_of_pending hp, ?_⟩⟩
  exact (engineStep_pending hp hdec).trans (exec_nop (clearPending s))

/-- Settles O9: the word 1 is INIT's encoding, and the state INIT leaves has IV itself in H. -/
theorem initStartsMessage : Obligations.InitStartsMessage :=
  ⟨decodeOfEncode .init rfl, fun s => ⟨_, exec_init s, fun _ => rfl, rfl⟩⟩

/-- Settles O10: the word 2 is CLRERR's encoding, and STATUS.ERR is 0 once ERRCODE is. -/
theorem clrerrClearsError : Obligations.ClrerrClearsError :=
  ⟨decodeOfEncode .clrerr rfl, fun s => ⟨_, exec_clrerr s, rfl, (err_eq_decide _).trans (by simp)⟩⟩

end Sys2Proof.Machine
end

section
/-! PROOFS. The adder and the logic units (41_datapath.md R121 to R128). -/

namespace Sys2Proof.Machine

/-- R and CARRY hold an exact sum below (k + 1) * 2^32 between them, and the carry-out is at most k: the two bits of
CARRY suffice up to k = 3 (41_datapath.md R121). -/
theorem mod32_carryOut_split {n k : Nat} (hk : k ≤ 3) (hn : n < 2 ^ 32 * (k + 1)) :
    (mod32 n).toNat + 2 ^ 32 * (carryOut n).toNat = n ∧ (carryOut n).toNat ≤ k := by
  have hle : n / 2 ^ 32 ≤ k := Nat.lt_succ_iff.1 (Nat.div_lt_of_lt_mul hn)
  have hcarry : (carryOut n).toNat = n / 2 ^ 32 := (BitVec.toNat_ofNat _ _).trans (Nat.mod_eq_of_lt (by omega))
  rw [hcarry, mod32, BitVec.toNat_ofNat]
  exact ⟨Nat.mod_add_div n (2 ^ 32), hle⟩

/-- Settles O11: the sum of two words is below 2 * 2^32. -/
theorem addIsExactSum : Obligations.AddIsExactSum := by
  refine ⟨decodeOfEncode .add rfl, fun s => ⟨_, _, rfl, mod32_carryOut_split (k := 1) (by decide) ?_⟩⟩
  have hx := s.x.isLt
  have hy := s.y.isLt
  omega

/-- Settles O12: the sum of three words is below 3 * 2^32. -/
theorem add3IsExactSum : Obligations.Add3IsExactSum := by
  refine ⟨decodeOfEncode .add3 rfl, fun s => ⟨_, _, rfl, mod32_carryOut_split (k := 2) (by decide) ?_⟩⟩
  have hx := s.x.isLt
  have hy := s.y.isLt
  have hz := s.z.isLt
  omega

/-- Ch chooses by the bit of X (41_datapath.md R127). -/
theorem getLsbD_chFn (x y z : Word) {i : Nat} (hi : i < 32) :
    (chFn x y z).getLsbD i = if x.getLsbD i then y.getLsbD i else z.getLsbD i := by
  rw [chFn, BitVec.getLsbD_xor, BitVec.getLsbD_and, BitVec.getLsbD_and, BitVec.getLsbD_not, decide_eq_true hi]
  cases x.getLsbD i <;> simp

/-- Maj is the majority of the three bits (41_datapath.md R128). -/
theorem getLsbD_majFn (x y z : Word) (i : Nat) : (majFn x y z).getLsbD i =
    decide ((x.getLsbD i).toNat + (y.getLsbD i).toNat + (z.getLsbD i).toNat ≥ 2) := by
  simp only [majFn, BitVec.getLsbD_xor, BitVec.getLsbD_and]
  cases x.getLsbD i <;> cases y.getLsbD i <;> cases z.getLsbD i <;> rfl

/-- Settles O13: each unit writes R alone, and each bit of R is its function of the operands' bits there. -/
theorem logicUnitsBitwise : Obligations.LogicUnitsBitwise := by
  refine ⟨decodeOfEncode .xor rfl, decodeOfEncode .and rfl, decodeOfEncode .not rfl, decodeOfEncode .ch rfl,
    decodeOfEncode .maj rfl, fun s => ⟨⟨_, rfl, ?xor⟩, ⟨_, rfl, ?and⟩, ⟨_, rfl, ?not⟩, ⟨_, rfl, ?ch⟩, _, rfl, ?maj⟩⟩
  case xor => exact fun i _ => BitVec.getLsbD_xor
  case and => exact fun i _ => BitVec.getLsbD_and
  case not => exact BitVec.toNat_not
  case ch => exact fun i hi => getLsbD_chFn s.x s.y s.z hi
  case maj => exact fun i _ => getLsbD_majFn s.x s.y s.z i

end Sys2Proof.Machine
end

section
/-! PROOFS. The barrel shifter and the SHA function units (41_datapath.md R129 to R135). -/

namespace Sys2Proof.Machine

/-! ### The words of the shifts (30_encoding.md R93, R102) -/

/-- A shift amount fits IMM5. -/
theorem zeroExtend_imm5 {sh : Nat} (h : sh ≤ 31) : (BitVec.ofNat 5 sh).zeroExtend 32 = BitVec.ofNat 32 sh := by
  apply BitVec.eq_of_toNat_eq
  simp only [BitVec.truncate_eq_setWidth, BitVec.toNat_setWidth, BitVec.toNat_ofNat]
  omega

/-- A command with a shift amount is its OPC and the amount in IMM5. -/
theorem encode_of_shift {i : Instr} {sh : Nat} (h : sh ≤ 31) (himm : i.imm5 = BitVec.ofNat 5 sh)
    (hlast : i.lastBit = false) : encode i = i.opc.zeroExtend 32 ||| (BitVec.ofNat 32 sh <<< 8) := by
  have hL : (BitVec.ofBool false).zeroExtend 32 <<< 16 = 0#32 := by decide
  rw [encode, himm, hlast, zeroExtend_imm5 h, hL, BitVec.or_zero]

/-! ### The number of 1 bits -/

/-- Shifting every index round the circle rotates the list of indices. -/
theorem map_range_add_mod (n k : Nat) : (List.range n).map (fun i => (i + k) % n) = (List.range n).rotate k :=
  List.ext_getElem (by simp) fun i _ _ => by simp [List.getElem_rotate]

/-- A rotation keeps the number of 1 bits: it takes each bit of X once. -/
theorem filter_range_rotr_length (x : Word) {sh : Nat} (h : sh ≤ 31) :
    ((List.range 32).filter (rotr x sh).getLsbD).length = ((List.range 32).filter x.getLsbD).length := by
  simp only [← List.countP_eq_length_filter]
  calc (List.range 32).countP (rotr x sh).getLsbD
    _ = (List.range 32).countP (x.getLsbD ∘ fun i => (i + sh) % 32) :=
      List.countP_congr fun i hi => by rw [getLsbD_rotr x h (List.mem_range.1 hi)]; rfl
    _ = ((List.range 32).rotate sh).countP x.getLsbD := by rw [← List.countP_map, map_range_add_mod]
    _ = (List.range 32).countP x.getLsbD := (List.rotate_perm _ sh).countP_eq _

/-- Settles O14: the word is the assembler's, and R is the rotation, which takes each bit of X once. -/
theorem rotrRotatesRight : Obligations.RotrRotatesRight := by
  intro s sh h
  have hword : encode (.rotr sh) = 0x48#32 ||| (BitVec.ofNat 32 sh <<< 8) := encode_of_shift h rfl rfl
  rw [← hword]
  exact ⟨decodeOfEncode (.rotr sh) (decide_eq_true h), _, rfl, fun i hi => getLsbD_rotr s.x h hi,
    filter_range_rotr_length s.x h⟩

/-- Settles O15: the word is the assembler's, and R is the quotient by 2^sh. -/
theorem shrDividesByPower : Obligations.ShrDividesByPower := by
  intro s sh h
  have hword : encode (.shr sh) = 0x49#32 ||| (BitVec.ofNat 32 sh <<< 8) := encode_of_shift h rfl rfl
  rw [← hword]
  exact ⟨decodeOfEncode (.shr sh) (decide_eq_true h), _, rfl, toNat_shr s.x sh⟩

/-! ### The SHA functions -/

/-- The vacated high bits of a shift are 0 (41_datapath.md R131). -/
theorem getLsbD_shr_eq_and (x : Word) (n i : Nat) :
    (shr x n).getLsbD i = (decide (i + n < 32) && x.getLsbD (i + n)) := by
  rw [getLsbD_shr]
  by_cases h : i + n < 32
  · simp [h]
  · simp [h, BitVec.getLsbD_of_ge x (i + n) (by omega)]

/-- Three rotations (41_datapath.md R132, R133). -/
theorem getLsbD_rotr_xor_rotr_xor_rotr (x : Word) {a b c i : Nat} (ha : a ≤ 31) (hb : b ≤ 31) (hc : c ≤ 31)
    (hi : i < 32) : (rotr x a ^^^ rotr x b ^^^ rotr x c).getLsbD i =
      (x.getLsbD ((i + a) % 32) ^^ x.getLsbD ((i + b) % 32) ^^ x.getLsbD ((i + c) % 32)) := by
  rw [BitVec.getLsbD_xor, BitVec.getLsbD_xor, getLsbD_rotr x ha hi, getLsbD_rotr x hb hi, getLsbD_rotr x hc hi]

/-- Two rotations and a shift (41_datapath.md R134, R135). -/
theorem getLsbD_rotr_xor_rotr_xor_shr (x : Word) {a b i : Nat} (c : Nat) (ha : a ≤ 31) (hb : b ≤ 31) (hi : i < 32) :
    (rotr x a ^^^ rotr x b ^^^ shr x c).getLsbD i =
      (x.getLsbD ((i + a) % 32) ^^ x.getLsbD ((i + b) % 32) ^^ (decide (i + c < 32) && x.getLsbD (i + c))) := by
  rw [BitVec.getLsbD_xor, BitVec.getLsbD_xor, getLsbD_rotr x ha hi, getLsbD_rotr x hb hi, getLsbD_shr_eq_and]

/-- Settles O16: each unit writes R alone, with the rotations and the shift of its rule. -/
theorem shaFunctionUnitsBitwise : Obligations.ShaFunctionUnitsBitwise := by
  refine ⟨decodeOfEncode .bsig0 rfl, decodeOfEncode .bsig1 rfl, decodeOfEncode .ssig0 rfl, decodeOfEncode .ssig1 rfl,
    fun s => ⟨⟨_, rfl, ?bsig0⟩, ⟨_, rfl, ?bsig1⟩, ⟨_, rfl, ?ssig0⟩, _, rfl, ?ssig1⟩⟩
  case bsig0 | bsig1 =>
    exact fun i hi => getLsbD_rotr_xor_rotr_xor_rotr s.x (by decide) (by decide) (by decide) hi
  case ssig0 | ssig1 =>
    exact fun i hi => getLsbD_rotr_xor_rotr_xor_shr s.x _ (by decide) (by decide) hi

end Sys2Proof.Machine
end

section
/-! PROOFS. What every datapath command reads and writes (41_datapath.md R120, R137). -/

namespace Sys2Proof.Machine

/-- A command of 41_datapath.md. -/
def IsDatapath (i : Instr) : Prop :=
  i ∈ [.add, .add3, .xor, .and, .not, .ch, .maj, .bsig0, .bsig1, .ssig0, .ssig1] ∨
    (∃ sh, i = .rotr sh) ∨ (∃ sh, i = .shr sh)

/-- What a datapath command does in every state: a function of the operands alone goes to R, or, for ADD and ADD3, an
exact sum of them goes to R and CARRY (41_datapath.md R120, R121). -/
inductive DatapathUnit (i : Instr) : Prop where
  | result (f : Word → Word → Word → Word) (hne : ¬ (i = .add ∨ i = .add3))
      (hexec : ∀ s, exec i s = .next (setResult (f s.x s.y s.z) s))
  | sum (f : Word → Word → Word → Nat) (hadd : i = .add ∨ i = .add3)
      (hexec : ∀ s, exec i s = .next (setSum (f s.x s.y s.z) s))

/-- The rules R122 to R135 of 41_datapath.md, command by command. -/
theorem datapathUnit_of_isDatapath {i : Instr} (hi : IsDatapath i) : DatapathUnit i := by
  cases i with
  | add => exact .sum (fun x y _ => x.toNat + y.toNat) (.inl rfl) fun _ => rfl
  | add3 => exact .sum (fun x y z => x.toNat + y.toNat + z.toNat) (.inr rfl) fun _ => rfl
  | xor => exact .result (fun x y _ => x ^^^ y) (by simp) fun _ => rfl
  | and => exact .result (fun x y _ => x &&& y) (by simp) fun _ => rfl
  | not => exact .result (fun x _ _ => ~~~x) (by simp) fun _ => rfl
  | ch => exact .result chFn (by simp) fun _ => rfl
  | maj => exact .result majFn (by simp) fun _ => rfl
  | rotr sh => exact .result (fun x _ _ => rotr x sh) (by simp) fun _ => rfl
  | shr sh => exact .result (fun x _ _ => shr x sh) (by simp) fun _ => rfl
  | bsig0 => exact .result (fun x _ _ => bsig0 x) (by simp) fun _ => rfl
  | bsig1 => exact .result (fun x _ _ => bsig1 x) (by simp) fun _ => rfl
  | ssig0 => exact .result (fun x _ _ => ssig0 x) (by simp) fun _ => rfl
  | ssig1 => exact .result (fun x _ _ => ssig1 x) (by simp) fun _ => rfl
  | _ => simp [IsDatapath] at hi

/-- Settles O18: the unit's function is the same in both states, and so are its operands. -/
theorem datapathDependsOnOperandsOnly : Obligations.DatapathDependsOnOperandsOnly := by
  intro i s s' hi hx hy hz
  cases datapathUnit_of_isDatapath hi with
  | result f hne hexec =>
    refine ⟨_, _, hexec s, hexec s', ?_, fun hadd => absurd hadd hne⟩
    rw [setResult_r, setResult_r, hx, hy, hz]
  | sum f _ hexec =>
    refine ⟨_, _, hexec s, hexec s', ?_, fun _ => ?_⟩
    · rw [setSum_r, setSum_r, hx, hy, hz]
    · rw [setSum_carry, setSum_carry, hx, hy, hz]

/-- A write of R and CARRY is read at their own offsets alone (20_memory.md R66). -/
theorem targetValue_withResult (r : Word) (c : BitVec 2) (s : State) {tgt : Target} (hr : tgt ≠ .r)
    (hc : tgt ≠ .carry) : targetValue { s with r := r, carry := c } tgt = targetValue s tgt := by
  cases tgt with
  | r => exact absurd rfl hr
  | carry => exact absurd rfl hc
  | _ => rfl

/-- What a datapath or codec command writes: R, and for ADD and ADD3 CARRY (41_datapath.md R120, 42_codec.md R152). -/
theorem exec_writes_result {i : Instr} (hi : IsDatapath i ∨ i = .pack ∨ i = .unpack) (s : State) :
    ∃ r c, exec i s = .next { s with r := r, carry := c } ∧ (i ≠ .add → i ≠ .add3 → c = s.carry) := by
  rcases hi with hi | rfl | rfl
  · cases datapathUnit_of_isDatapath hi with
    | result f _ hexec => exact ⟨_, s.carry, hexec s, fun _ _ => rfl⟩
    | sum f hadd hexec => exact ⟨_, _, hexec s, fun h h3 => absurd hadd (not_or.2 ⟨h, h3⟩)⟩
  · exact ⟨_, s.carry, rfl, fun _ _ => rfl⟩
  · exact ⟨_, s.carry, rfl, fun _ _ => rfl⟩

/-- Settles O17: the state left differs in R and CARRY at most, and no other offset reads them. -/
theorem datapathTouchesOnlyResult : Obligations.DatapathTouchesOnlyResult := by
  intro i s hi
  have hi' : IsDatapath i ∨ i = .pack ∨ i = .unpack := by
    simp only [IsDatapath, List.mem_cons, List.not_mem_nil, or_false] at hi ⊢
    tauto
  obtain ⟨r, c, hexec, hcarry⟩ := exec_writes_result hi' s
  exact ⟨_, hexec, rfl, hcarry, fun _ hr hc => targetValue_withResult r c s hr hc⟩

end Sys2Proof.Machine
end

section
/-! PROOFS. The endian codec: PACK and UNPACK put one function of X and ENDIAN in R (42_codec.md R152 to R155). -/

namespace Sys2Proof.Machine

/-- The rules of the two directions agree: the same place is read MSB first in one and filled so in the other. -/
theorem packWord_eq_unpackWord (e : Bool) (x : Word) : packWord e x = unpackWord e x :=
  (packWord_eq e x).trans (unpackWord_eq e x).symm

/-- In each mode the codec is the identity or the bit reversal, and both are their own inverse. -/
theorem unpackWord_unpackWord (e : Bool) (x : Word) : unpackWord e (unpackWord e x) = x := by
  rw [unpackWord_eq, unpackWord_eq]
  cases e with
  | false => rfl
  | true => exact brev_brev x

theorem exec_pack (s : State) : exec .pack s = .next { s with r := packWord s.endian s.x } := rfl

theorem exec_unpack (s : State) : exec .unpack s = .next { s with r := unpackWord s.endian s.x } := rfl

/-- Settles O19: both commands leave the same word in R, which is X for ENDIAN = 0 and its bit reversal for 1. -/
theorem codecConvertsLaneOrder : Obligations.CodecConvertsLaneOrder := by
  refine ⟨decodeOfEncode .pack rfl, decodeOfEncode .unpack rfl, fun s =>
    ⟨packWord s.endian s.x, exec_pack s, ?unpack, fun he => ?msbFirst, fun he i hi => ?lsbFirst⟩⟩
  case unpack => rw [packWord_eq_unpackWord]; exact exec_unpack s
  case msbFirst => rw [packWord_eq, he]; rfl
  case lsbFirst => rw [packWord_eq, he, if_pos rfl, getLsbD_brev s.x hi]

/-- Settles O20: PACK's function is UNPACK's, which applied twice gives the operand back. -/
theorem codecIsInvolution : Obligations.CodecIsInvolution := by
  intro e x
  rw [packWord_eq_unpackWord, packWord_eq_unpackWord]
  exact ⟨rfl, unpackWord_unpackWord e x, unpackWord_unpackWord e x⟩

end Sys2Proof.Machine
end

section
/-! PROOFS. Messages as bit sequences: a block of a message depends on its own bits, and the digest folds the blocks
one by one (42_codec.md R156, 45_compression.md R198). -/

namespace Sys2Proof.Machine

/-- Bits appended to a message do not change a block that is already whole. -/
theorem messageBlock_append (msg b : List Bool) {k : Nat} (hk : 512 * (k + 1) ≤ msg.length) :
    messageBlock (msg ++ b) k = messageBlock msg k := by
  refine block_ext fun p => ?_
  rw [blockBit_messageBlock, blockBit_messageBlock, List.getD_append _ _ _ _ (by omega)]

/-- Bits appended to a message do not change the whole blocks before them. -/
theorem messageBlocks_append (msg b : List Bool) {n : Nat} (hn : 512 * n ≤ msg.length) :
    messageBlocks (msg ++ b) n = messageBlocks msg n := by
  refine List.map_congr_left fun k hk => messageBlock_append msg b ?_
  have := List.mem_range.1 hk
  omega

/-- One more block is one more fold. -/
theorem digestOf_messageBlocks_succ (msg : List Bool) (n : Nat) :
    digestOf (messageBlocks msg (n + 1)) = foldBlock (digestOf (messageBlocks msg n)) (messageBlock msg n) := by
  simp only [digestOf, messageBlocks, List.range_succ, List.map_append, List.foldl_append, List.map_cons, List.map_nil,
    List.foldl_cons, List.foldl_nil]

/-- A bit of a message followed by one more bit. -/
theorem getD_append_singleton (msg : List Bool) (b : Bool) {i : Nat} (hi : i ≤ msg.length) :
    (msg ++ [b]).getD i false = if i = msg.length then b else msg.getD i false := by
  split
  · next h => rw [h, List.getD_append_right _ _ _ _ le_rfl, Nat.sub_self, List.getD_cons_zero]
  · exact List.getD_append _ _ _ _ (by omega)

end Sys2Proof.Machine
end

section
/-! PROOFS. MSG_PUSH (43_padding.md R161 to R164): where its bits land, what a fill folds, and the message the bit path
holds afterwards. -/

namespace Sys2Proof.Machine

/-- Settles O21: the bit of M that setbit writes, and its frame. -/
theorem setbitWritesOneBit : Obligations.SetbitWritesOneBit :=
  fun p v s => ⟨blockBit_setbit p v s, setbit_eq p v s⟩

/-- A command that raises no error completes with its effect. -/
theorem exec_of_commandError_none {i : Instr} {s : State} (hc : commandError i s = none) :
    exec i s = .next (effect i s) := by
  rw [exec_eq, hc]
  rfl

/-- A MSG_PUSH whose checks pass runs its loop on the bit path (43_padding.md R163). -/
theorem exec_msgPush {s : State} {n : Nat} (hf : s.fsm ≠ .finalized) (hp : s.path ≠ .word)
    (hl : s.len.toNat + n ≤ 2 ^ 64 - 1) : exec (.msgPush n) s = .next (pushBits n (enterBitPath s)) := by
  have hc : commandError (.msgPush n) s = none := by
    simp only [commandError, if_neg (not_or.2 ⟨hf, hp⟩), if_neg (Nat.not_lt.2 hl)]
  exact exec_of_commandError_none hc

/-- Settles O22: the run of bits stays inside the block. -/
theorem pushWithoutFill : Obligations.PushWithoutFill := by
  intro s n _ _ hf hp hl hfit
  obtain ⟨hbits, hframe⟩ := pushRange_within 0 n (enterBitPath s) hfit
  refine ⟨(pushRange 0 n (enterBitPath s)).m, ?_, fun p => ?_⟩
  · rw [exec_msgPush hf hp hl, pushBits_eq_pushRange, hframe]
    rfl
  · rw [hbits p, Nat.zero_add]
    rfl

/-- Settles O23: the run of bits fills the block, which CompressBlock folds, and the rest starts the next one. -/
theorem pushWithFill : Obligations.PushWithFill := by
  intro s n _ hn hf hp hl hfill P bitOf
  obtain ⟨filled, m, hfilled, hm, hpush⟩ := pushBits_filling n (enterBitPath s) (by omega) hfill
  obtain ⟨t1, t2, wr, hblock⟩ := compressBlock_eq filled false (enterBitPath s)
  refine ⟨_, filled, (exec_msgPush hf hp hl).trans (congrArg _ hpush), hfilled, ?_⟩
  rw [hblock]
  exact ⟨rfl, rfl, rfl, rfl, rfl, rfl, rfl, rfl, hm, rfl, rfl, rfl, rfl⟩

/-! ### The message the bit path holds (43_padding.md R160) -/

section
variable {s : State} {msg : List Bool}

theorem HoldsMessage.enterBitPath (h : HoldsMessage s msg) : HoldsMessage (enterBitPath s) msg where
  path := by simp
  fsm := h.fsm
  len := h.len
  chain := h.chain
  tail := h.tail

/-- With the next bit in place, M holds one more bit of the longer message. -/
theorem HoldsMessage.tail_setbit (h : HoldsMessage s msg) (b : Bool) (p : Fin 512) (hp : p.val ≤ msg.length % 512) :
    blockBit (setbit (fillPointer s) b s).m p = (msg ++ [b]).getD (512 * (msg.length / 512) + p.val) false := by
  have hfp : (fillPointer s).val = msg.length % 512 := by rw [← h.len]; rfl
  have hlen := Nat.div_add_mod msg.length 512
  rw [blockBit_setbit, getD_append_singleton msg b (by omega)]
  by_cases hlast : p.val = msg.length % 512
  · rw [if_pos (Fin.ext (hlast.trans hfp.symm)), if_pos (by omega)]
  · rw [if_neg fun e => hlast (by rw [e, hfp]), if_neg (by omega)]
    exact h.tail p (by omega)

/-- One pass of MSG_PUSH's loop appends its bit to the message (43_padding.md R163, R164). -/
theorem HoldsMessage.pushBit (h : HoldsMessage s msg) (hl : msg.length + 1 < 2 ^ 64) (i : Nat) :
    HoldsMessage (pushBit i s) (msg ++ [laneBit s.endian s.bits i]) := by
  have htail := h.tail_setbit (laneBit s.endian s.bits i)
  have hlen : (s.len + 1).toNat = msg.length + 1 := by
    rw [BitVec.toNat_add, h.len]
    exact Nat.mod_eq_of_lt hl
  have hchain := messageBlocks_append msg [laneBit s.endian s.bits i] (Nat.mul_div_le msg.length 512)
  by_cases hfill : msg.length % 512 = 511
  · -- the bit fills the block
    have hdiv : (msg.length + 1) / 512 = msg.length / 512 + 1 := by omega
    have hblock : (setbit (fillPointer s) (laneBit s.endian s.bits i) s).m =
        messageBlock (msg ++ [laneBit s.endian s.bits i]) (msg.length / 512) :=
      block_ext fun p => by rw [blockBit_messageBlock]; exact htail p (by omega)
    rw [pushBit_filling i s (by rw [h.len]; exact hfill)]
    exact {
      path := by simpa using h.path
      fsm := by simp
      len := by simpa using hlen
      chain := by
        rw [compressBlock_h, List.length_append, List.length_singleton, hdiv, digestOf_messageBlocks_succ, hchain,
          ← h.chain, ← hblock]
        rfl
      tail := fun p hp => by rw [List.length_append, List.length_singleton] at hp; omega }
  · have hdiv : (msg.length + 1) / 512 = msg.length / 512 := by omega
    rw [pushBit_within i s (by rw [h.len]; exact hfill)]
    exact {
      path := h.path
      fsm := h.fsm
      len := by simpa using hlen
      chain := by rw [List.length_append, List.length_singleton, hdiv, hchain]; exact h.chain
      tail := fun p hp => by
        rw [List.length_append, List.length_singleton] at hp ⊢
        rw [hdiv]
        exact htail p (by omega) }

/-- MSG_PUSH's loop appends the bits it takes from BITS (43_padding.md R163). -/
theorem HoldsMessage.pushBits (h : HoldsMessage s msg) {n : Nat} (hl : msg.length + n < 2 ^ 64) :
    HoldsMessage (pushBits n s) (msg ++ pushedBits n s) := by
  rw [pushBits_eq_pushRange]
  refine (foldl_range'_induct (P := fun k u => Kept s u ∧ HoldsMessage u (msg ++ pushedBits k s)) 0 n
    ⟨Kept.refl s, by simpa [pushedBits] using h⟩ ?_).2
  rintro k u hk ⟨hkept, hu⟩
  refine ⟨hkept.trans (pushBit_kept _ u), ?_⟩
  have hnext := hu.pushBit (by simp [pushedBits]; omega) k
  have hbits : pushedBits (k + 1) s = pushedBits k s ++ [laneBit u.endian u.bits k] := by
    rw [hkept.endian, hkept.bits, pushedBits, List.range_succ, List.map_append]
    rfl
  rwa [hbits, ← List.append_assoc, Nat.zero_add]

end

/-- Settles O24, by induction on the pushed bits. -/
theorem pushAppendsToMessage : Obligations.PushAppendsToMessage := by
  intro s msg n h _ _ hl
  exact ⟨_, exec_msgPush h.fsm h.path (by rw [h.len]; exact hl), h.enterBitPath.pushBits (by omega)⟩

end Sys2Proof.Machine
end

section
/-! PROOFS. The padded message (43_padding.md R167, R168): its length and its bits, as a bit sequence. -/

namespace Sys2Proof.Machine

theorem length_paddedMessage (msg : List Bool) :
    (paddedMessage msg).length = msg.length + 1 + padZeros msg.length + 64 := by
  simp only [paddedMessage, lengthField, List.length_append, List.length_singleton, List.length_replicate,
    List.length_map, List.length_range]

/-- Settles O29: the zeros fill up to 448 modulo 512, so the length is a whole number of blocks. -/
theorem paddedBlockCount : Obligations.PaddedBlockCount := by
  intro msg
  refine ⟨?_, by omega, ?_⟩
  · rw [length_paddedMessage, padZeros]
    omega
  · split <;> omega

/-- The message's own bits come first. -/
theorem paddedMessage_eq_append (msg : List Bool) : paddedMessage msg =
    msg ++ (true :: List.replicate (padZeros msg.length) false ++ lengthField msg.length) := by
  simp [paddedMessage]

theorem getD_paddedMessage_message (msg : List Bool) {i : Nat} (hi : i < msg.length) :
    (paddedMessage msg).getD i false = msg.getD i false := by
  rw [paddedMessage_eq_append, List.getD_append _ _ _ _ hi]

/-- Between the message and the length field stand one 1 bit and zeros. -/
theorem getD_paddedMessage_padding (msg : List Bool) {i : Nat} (hlo : msg.length ≤ i)
    (hhi : i < msg.length + 1 + padZeros msg.length) :
    (paddedMessage msg).getD i false = decide (i = msg.length) := by
  obtain ⟨k, rfl⟩ := Nat.exists_eq_add_of_le hlo
  rw [paddedMessage_eq_append, List.getD_append_right _ _ _ _ hlo, Nat.add_sub_cancel_left,
    List.getD_append _ _ _ _ (by simp; omega)]
  cases k with
  | zero => simp
  | succ k => simp [show k < padZeros msg.length by omega]

/-- The last 64 bits are the length, the most significant bit first. -/
theorem getD_paddedMessage_length (msg : List Bool) {j : Nat} (hj : j < 64) :
    (paddedMessage msg).getD (msg.length + 1 + padZeros msg.length + j) false = msg.length.testBit (63 - j) := by
  have hlen : (msg ++ [true] ++ List.replicate (padZeros msg.length) false).length =
      msg.length + 1 + padZeros msg.length := by
    simp only [List.length_append, List.length_singleton, List.length_replicate]
  rw [paddedMessage, ← hlen, List.getD_append_right _ _ _ _ (Nat.le_add_right _ _), Nat.add_sub_cancel_left]
  simp [lengthField, hj]

end Sys2Proof.Machine
end

section
/-! PROOFS. MSG_FINAL (43_padding.md R166, R169): the blocks it pads and folds, and the digest it leaves. -/

namespace Sys2Proof.Machine

/-- With PADBYP = 0 a MSG_FINAL that passes R162's check pads in one block or in two (43_padding.md R166). -/
theorem exec_msgFinal_padded {s : State} (hf : s.fsm ≠ .finalized) (hp : s.path ≠ .word) (hb : s.padbyp = false) :
    exec .msgFinal s = .next (if s.len.toNat % 512 ≤ 447 then padInBlock (enterBitPath s)
      else padTwoBlocks (enterBitPath s)) := by
  have hc : commandError .msgFinal s = none := by
    simp [commandError, hf, hp, hb]
  rw [exec_of_commandError_none hc]
  simp only [effect, hb, Bool.false_eq_true, if_false]
  rfl

/-- Settles O27: the error table's LENGTH_MISMATCH, or the effect without a block. -/
theorem finalBypassed : Obligations.FinalBypassed := by
  intro s hf hp hb
  refine ⟨fun hl => ?aligned, fun hl => ?mismatch⟩
  case aligned =>
    have hc : commandError .msgFinal s = none := by simp [commandError, hf, hp, hl]
    rw [exec_of_commandError_none hc, effect, if_pos hb]
    rfl
  case mismatch =>
    have hc : commandError .msgFinal s = some .lengthMismatch := by simp [commandError, hf, hp, hb, hl]
    rw [exec_eq, hc, Option.elim_some, record_eq]

/-- Message bit `p` of the block MSG_FINAL pads, below the length field: the P message bits of M, one 1 bit, then
zeros (43_padding.md R166). -/
def padBit (s : State) (p : Fin 512) : Bool :=
  if p.val < s.len.toNat % 512 then blockBit s.m p else decide (p.val = s.len.toNat % 512)

/-- M[14] and M[15] hold the length (43_padding.md R166, 20_memory.md R74). -/
def HasLengthWords (m : Vector Word 16) (len : BitVec 64) : Prop :=
  m[14] = len.extractLsb' 32 32 ∧ m[15] = len.extractLsb' 0 32

/-- The padding writes up to message bit `e` change M alone, and leave the padded bits there. -/
theorem padBits_spec (s : State) {e : Nat} (hP : (fillPointer s).val ≤ e) (he : e < 512) :
    ∃ m : Vector Word 16,
      clearBits ((fillPointer s).val + 1) (e - (fillPointer s).val) (setbit (fillPointer s) true s) =
        { s with m := m } ∧
      ∀ p : Fin 512, p.val ≤ e → blockBit m p = padBit s p := by
  have hfp : (fillPointer s).val = s.len.toNat % 512 := rfl
  obtain ⟨hbits, hframe⟩ := clearBits_spec ((fillPointer s).val + 1) (e - (fillPointer s).val) (by omega)
    (setbit (fillPointer s) true s)
  refine ⟨_, hframe, fun p hp => ?_⟩
  rw [hbits p, blockBit_setbit, padBit]
  simp only [Fin.ext_iff, hfp]
  rcases Nat.lt_trichotomy p.val (s.len.toNat % 512) with hlt | heq | hgt
  · rw [if_neg (by omega), if_neg (by omega), if_pos hlt]
  · rw [if_neg (by omega), if_pos heq, if_neg (by omega), decide_eq_true heq]
  · rw [if_pos (by omega), if_neg (by omega), decide_eq_false (by omega)]

/-- Padding in one block: the padded block is compressed as the last one (43_padding.md R166). -/
theorem padInBlock_spec (s : State) (hP : s.len.toNat % 512 ≤ 447) :
    ∃ m : Vector Word 16, padInBlock s = compressBlock m true { s with m := m } ∧
      (∀ p : Fin 512, p.val < 448 → blockBit m p = padBit s p) ∧ HasLengthWords m s.len := by
  obtain ⟨m, hm, hbits⟩ := padBits_spec s (e := 447) hP (by omega)
  obtain ⟨h14, h15, -⟩ := putLength_words { s with m := m }
  refine ⟨(putLength { s with m := m }).m, ?_, fun p hp => ?_, h14, h15⟩
  · simp only [padInBlock, hm]
    rfl
  · rw [blockBit_putLength _ p hp]
    exact hbits p (by omega)

/-- The extra block: 448 zeros, then the length (43_padding.md R166). -/
theorem lengthBlock_spec (s : State) :
    ∃ m : Vector Word 16, putLength (clearWords s) = { s with m := m } ∧ (∀ j : Fin 14, m[j.val] = 0) ∧
      HasLengthWords m s.len := by
  obtain ⟨h14, h15, hrest⟩ := putLength_words (clearWords s)
  rw [clearWords_len] at h14 h15
  exact ⟨(putLength (clearWords s)).m, rfl, fun j => (hrest j.val j.isLt).trans (clearWords_words s j.val j.isLt),
    h14, h15⟩

/-- Padding in two blocks: the first holds the message bits, one 1 bit and zeros, the second zeros and the length
(43_padding.md R166). -/
theorem padTwoBlocks_spec (s : State) :
    ∃ first m : Vector Word 16,
      padTwoBlocks s = compressBlock m true { compressBlock first false s with m := m } ∧
      (∀ p : Fin 512, blockBit first p = padBit s p) ∧ (∀ j : Fin 14, m[j.val] = 0) ∧ HasLengthWords m s.len := by
  obtain ⟨first, hfirst, hbits⟩ := padBits_spec s (e := 511) (by omega) (by omega)
  obtain ⟨m, hm, hzero, hlen⟩ := lengthBlock_spec { compressBlock first false s with m := first }
  simp only [compressBlock_len] at hlen
  refine ⟨first, m, ?_, fun p => hbits p (by omega), hzero, hlen⟩
  simp only [padTwoBlocks, hfirst, compressBlock_withM, hm]

/-- Settles O25: one padded block, compressed as the last one. -/
theorem finalPadsInOneBlock : Obligations.FinalPadsInOneBlock := by
  intro s hf hp hb hP
  obtain ⟨m, hpad, hbits, h14, h15⟩ := padInBlock_spec (enterBitPath s) hP
  obtain ⟨t1, t2, wr, hblock⟩ := compressBlock_eq m true { enterBitPath s with m := m }
  refine ⟨_, (exec_msgFinal_padded hf hp hb).trans (congrArg _ ((if_pos hP).trans hpad)), ?_⟩
  rw [hblock]
  exact ⟨hbits, h14, h15, rfl, rfl, rfl, rfl, rfl, rfl, rfl, rfl, rfl, rfl, rfl⟩

/-- Settles O26: two padded blocks, the second compressed as the last one. -/
theorem finalPadsInTwoBlocks : Obligations.FinalPadsInTwoBlocks := by
  intro s hf hp hb hP
  obtain ⟨first, m, hpad, hbits, hzero, h14, h15⟩ := padTwoBlocks_spec (enterBitPath s)
  obtain ⟨_, _, _, hblock₁⟩ := compressBlock_eq first false (enterBitPath s)
  obtain ⟨t1, t2, wr, hblock₂⟩ := compressBlock_eq m true { compressBlock first false (enterBitPath s) with m := m }
  refine ⟨_, first, (exec_msgFinal_padded hf hp hb).trans (congrArg _ ((if_neg (by omega)).trans hpad)), hbits, ?_⟩
  have hidx : s.blkidx + 1 + 1 = s.blkidx + 2 := by rw [BitVec.add_assoc]; rfl
  rw [hblock₂, hblock₁]
  exact ⟨hzero, h14, h15, rfl, rfl, rfl, rfl, rfl, hidx, rfl, rfl, rfl, rfl, rfl⟩

/-! ### The digest (43_padding.md R167, 45_compression.md R198) -/

/-- A message bit of the length field is a bit of L (20_memory.md R74). -/
theorem HasLengthWords.blockBit_eq {m : Vector Word 16} {len : BitVec 64} (h : HasLengthWords m len) (p : Fin 512)
    (hp : 448 ≤ p.val) : blockBit m p = len.getLsbD (511 - p.val) := by
  obtain ⟨h14, h15⟩ := h
  rcases Nat.lt_or_ge p.val 480 with hlt | hge
  · have hj : p.val / 32 = 14 := by omega
    simp only [blockBit, hj, h14, BitVec.getLsbD_extractLsb', show 31 - p.val % 32 < 32 by omega, decide_true,
      Bool.true_and, show 32 + (31 - p.val % 32) = 511 - p.val by omega]
  · have hj : p.val / 32 = 15 := by omega
    simp only [blockBit, hj, h15, BitVec.getLsbD_extractLsb', show 31 - p.val % 32 < 32 by omega, decide_true,
      Bool.true_and, show 0 + (31 - p.val % 32) = 511 - p.val by omega]

section
variable {s : State} {msg : List Bool}

/-- A block with the padded message's bits below the length field and with L in it is the padded message's last. -/
theorem HoldsMessage.lastBlock_eq (h : HoldsMessage s msg) {m : Vector Word 16} {b : Nat}
    (hb : (paddedMessage msg).length = 512 * (b + 1)) (hlen : HasLengthWords m s.len)
    (hlow : ∀ p : Fin 512, p.val < 448 → blockBit m p = (paddedMessage msg).getD (512 * b + p.val) false) :
    m = messageBlock (paddedMessage msg) b := by
  refine block_ext fun p => ?_
  rw [blockBit_messageBlock]
  rcases Nat.lt_or_ge p.val 448 with hlt | hge
  · exact hlow p hlt
  · rw [length_paddedMessage] at hb
    rw [hlen.blockBit_eq p hge, BitVec.getLsbD, h.len,
      show 512 * b + p.val = msg.length + 1 + padZeros msg.length + (p.val - 448) by omega,
      getD_paddedMessage_length msg (by omega), show 63 - (p.val - 448) = 511 - p.val by omega]

/-- The block MSG_FINAL pads holds the padded message's bits, up to the length field. -/
theorem HoldsMessage.padBit_eq (h : HoldsMessage s msg) (p : Fin 512)
    (hp : 512 * (msg.length / 512) + p.val < msg.length + 1 + padZeros msg.length) :
    padBit s p = (paddedMessage msg).getD (512 * (msg.length / 512) + p.val) false := by
  have hlen := Nat.div_add_mod msg.length 512
  rw [padBit, h.len]
  split
  · next hlt => rw [h.tail p hlt, getD_paddedMessage_message msg (by omega)]
  · next hge =>
    rw [getD_paddedMessage_padding msg (by omega) hp]
    exact decide_eq_decide.2 (by omega)

/-- The whole blocks of the message are blocks of the padded message. -/
theorem HoldsMessage.chain_padded (h : HoldsMessage s msg) :
    digestOf (messageBlocks (paddedMessage msg) (msg.length / 512)) = s.h := by
  rw [paddedMessage_eq_append, messageBlocks_append _ _ (Nat.mul_div_le _ _), h.chain]

/-- With P <= 447 the padded block is the last block of the padded message. -/
theorem HoldsMessage.digest_oneBlock (h : HoldsMessage s msg) (hP : s.len.toNat % 512 ≤ 447) {m : Vector Word 16}
    (hbits : ∀ p : Fin 512, p.val < 448 → blockBit m p = padBit s p) (hlen : HasLengthWords m s.len) :
    foldBlock s.h m = sha256 msg := by
  rw [h.len] at hP
  have hz : padZeros msg.length = 447 - msg.length % 512 := by unfold padZeros; omega
  have hcount : (paddedMessage msg).length = 512 * (msg.length / 512 + 1) := by
    rw [length_paddedMessage, hz]; omega
  have hlast : m = messageBlock (paddedMessage msg) (msg.length / 512) :=
    h.lastBlock_eq hcount hlen fun p hp => (hbits p hp).trans (h.padBit_eq p (by omega))
  rw [sha256, hcount, Nat.mul_div_cancel_left _ (by decide), digestOf_messageBlocks_succ, h.chain_padded, ← hlast]

/-- With P >= 448 the two padded blocks are the last two of the padded message. -/
theorem HoldsMessage.digest_twoBlocks (h : HoldsMessage s msg) (hP : 448 ≤ s.len.toNat % 512)
    {first m : Vector Word 16} (hbits : ∀ p : Fin 512, blockBit first p = padBit s p)
    (hzero : ∀ j : Fin 14, m[j.val] = 0) (hlen : HasLengthWords m s.len) :
    foldBlock (foldBlock s.h first) m = sha256 msg := by
  rw [h.len] at hP
  have hz : padZeros msg.length = 959 - msg.length % 512 := by unfold padZeros; omega
  have hcount : (paddedMessage msg).length = 512 * (msg.length / 512 + 1 + 1) := by
    rw [length_paddedMessage, hz]; omega
  have hfirst : first = messageBlock (paddedMessage msg) (msg.length / 512) :=
    block_ext fun p => by
      rw [blockBit_messageBlock, hbits p]
      exact h.padBit_eq p (by omega)
  have hlast : m = messageBlock (paddedMessage msg) (msg.length / 512 + 1) := by
    refine h.lastBlock_eq hcount hlen fun p hp => ?_
    rw [getD_paddedMessage_padding msg (by omega) (by omega), decide_eq_false (by omega), blockBit,
      hzero ⟨p.val / 32, by omega⟩]
    exact BitVec.getLsbD_zero
  rw [sha256, hcount, Nat.mul_div_cancel_left _ (by decide), digestOf_messageBlocks_succ, digestOf_messageBlocks_succ,
    h.chain_padded, ← hlast, ← hfirst]

end

/-- Settles O28: the blocks MSG_FINAL folds are those of the padded message that H has not folded yet. -/
theorem finalGivesMessageDigest : Obligations.FinalGivesMessageDigest := by
  intro s msg h hb
  rcases Nat.lt_or_ge (s.len.toNat % 512) 448 with hP | hP
  · obtain ⟨t, hexec, hbits, h14, h15, hh, -, -, -, -, -, hfsm, -, -, -, hframe⟩ :=
      finalPadsInOneBlock s h.fsm h.path hb (by omega)
    exact ⟨t, hexec, hh.trans (h.digest_oneBlock (by omega) hbits ⟨h14, h15⟩), hfsm,
      by rw [hframe], by rw [hframe]⟩
  · obtain ⟨t, first, hexec, hbits, hzero, h14, h15, hh, -, -, -, -, -, hfsm, -, -, -, hframe⟩ :=
      finalPadsInTwoBlocks s h.fsm h.path hb hP
    exact ⟨t, hexec, hh.trans (h.digest_twoBlocks hP hbits hzero ⟨h14, h15⟩), hfsm,
      by rw [hframe], by rw [hframe]⟩

end Sys2Proof.Machine
end

section
/-! PROOFS. The message scheduler: EXPAND (44_scheduler.md R180, R181). -/

namespace Sys2Proof.Machine

/-- A command of the error table that raises `e` records it and changes nothing else (60_exceptions.md R244). -/
theorem exec_of_commandError_some {i : Instr} {s : State} {e : ErrCode} (hc : commandError i s = some e) :
    exec i s = .next { s with errcode := if s.errcode = .noError then e else s.errcode } := by
  rw [exec_eq, hc, Option.elim_some, record_eq]

/-- EXPAND out of sequence raises SEQUENCE, whatever the mask (60_exceptions.md R242, R245). -/
theorem commandError_expand_outOfSequence {s : State} (h : s.fsm = .finalized ∨ s.path = .bit ∨ s.inblock = true) :
    commandError .expand s = some .sequence :=
  if_pos h

/-- In sequence EXPAND's error is decided by the mask alone (60_exceptions.md R245). -/
theorem commandError_expand_inSequence {s : State} (hf : s.fsm ≠ .finalized) (hp : s.path ≠ .bit)
    (hi : s.inblock = false) :
    commandError .expand s = if s.vmask ≠ 0xFFFF then some .malformedBlock else none :=
  if_neg (by simp [hf, hp, hi])

/-- All that a completing EXPAND does: the schedule of M, the mask and the path (44_scheduler.md R181). -/
theorem effect_expand (s : State) : effect .expand s = { s with w := scheduleOf s.m, vmask := 0, path := .word } := by
  rw [effect, expandBlock_eq]

/-- The schedule word is the exact sum of its four terms, reduced once (44_scheduler.md R180, 41_datapath.md R121). -/
theorem schedWord_toNat (w : Vector Word 64) (i : Fin 48) : (schedWord w i).toNat =
    ((ssig1 w[i.val + 14]).toNat + (w[i.val + 9]).toNat + (ssig0 w[i.val + 1]).toNat + (w[i.val]).toNat) % 2 ^ 32 := by
  simp only [schedWord, BitVec.toNat_add, Nat.mod_add_mod]

/-- Settles O30: EXPAND raises its error of the table, or leaves the schedule of M, which extends the block's words. -/
theorem expandWritesSchedule : Obligations.ExpandWritesSchedule := by
  refine ⟨decodeOfEncode .expand rfl, fun s hf hp hi hm => ⟨scheduleOf s.m, ?completes, fun j => ?block, fun i => ?sum⟩,
    fun s h => ?sequence, fun s hf hp hi hm => ?malformed⟩
  case completes =>
    have hc : commandError .expand s = none := by simp [commandError_expand_inSequence hf hp hi, hm]
    rw [exec_of_commandError_none hc, effect_expand]
  case block => exact getElem_scheduleOf_low s.m j j.isLt
  case sum => rw [scheduleOf_extends s.m i, schedWord_toNat]
  case sequence => exact exec_of_commandError_some (commandError_expand_outOfSequence h)
  case malformed =>
    exact exec_of_commandError_some ((commandError_expand_inSequence hf hp hi).trans (if_pos hm))

end Sys2Proof.Machine
end

section
/-! PROOFS. The stepped commands of the compression engine: RSTART, ROUND and FEEDFWD (45_compression.md R191 to
R194). -/

namespace Sys2Proof.Machine

/-- Settles O31: RSTART raises SEQUENCE, or loads the working registers. -/
theorem rstartLoadsWorking : Obligations.RstartLoadsWorking := by
  refine ⟨decodeOfEncode .rstart rfl, fun s hf hp hi => ?completes, fun s h => ?sequence⟩
  case completes =>
    have hc : commandError .rstart s = none := if_neg (by simp [hf, hp, hi])
    exact exec_of_commandError_none hc
  case sequence => exact exec_of_commandError_some (if_pos h)

/-- T1 is the exact sum of its five terms, reduced once (45_compression.md R191, 41_datapath.md R121). -/
theorem roundT1_toNat (v : Vector Word 8) (k w : Word) : (roundT1 v k w).toNat =
    ((v[7]).toNat + (bsig1 v[4]).toNat + (chFn v[4] v[5] v[6]).toNat + k.toNat + w.toNat) % 2 ^ 32 := by
  simp only [roundT1, BitVec.toNat_add, Nat.mod_add_mod]

/-- T2 is the exact sum of its two terms, reduced (45_compression.md R191). -/
theorem roundT2_toNat (v : Vector Word 8) :
    (roundT2 v).toNat = ((bsig0 v[0]).toNat + (majFn v[0] v[1] v[2]).toNat) % 2 ^ 32 :=
  BitVec.toNat_add _ _

/-- In sequence ROUND runs the round that t counts, and t grows by 1 (45_compression.md R192). -/
theorem exec_round {s : State} (hi : s.inblock = true) (ht : s.t.val < 64) :
    exec .round s = .next { roundOp ⟨s.t.val, ht⟩ s with t := ⟨s.t.val + 1, Nat.succ_lt_succ ht⟩ } :=
  dif_pos ⟨hi, ht⟩

/-- Writing row `k` of a witness array. -/
theorem getElem_set_row {α : Type} (u : Vector α 64) (k j : Fin 64) (x : α) :
    (u.set k.val x)[j] = if j.val = k.val then x else u[j] := by
  simp only [Fin.getElem_fin, Vector.getElem_set, eq_comm]

/-- Settles O32: ROUND raises SEQUENCE, or runs the round on the registers as they were. -/
theorem roundShiftsWorking : Obligations.RoundShiftsWorking := by
  refine ⟨decodeOfEncode .round rfl, fun s ht hi => ?completes, fun s h => ?sequence⟩
  case completes =>
    exact ⟨roundT1 s.wk Rom.K[s.t.val] s.w[s.t.val], roundT2 s.wk, _, exec_round hi ht, roundT1_toNat _ _ _,
      roundT2_toNat _, rfl, fun j => getElem_set_row s.t1 ⟨_, ht⟩ j _, fun j => getElem_set_row s.t2 ⟨_, ht⟩ j _,
      fun j => getElem_set_row s.wr ⟨_, ht⟩ j _, rfl, rfl⟩
  case sequence => exact exec_of_commandError_some (if_pos h)

/-- In sequence FEEDFWD adds WK into H and ends the block (45_compression.md R194). -/
theorem exec_feedfwd {s : State} (last : Bool) (hi : s.inblock = true) (ht : s.t.val = 64) :
    exec (.feedfwd last) s = .next { feedForward last s with inblock := false } :=
  if_pos ⟨hi, ht⟩

/-- Settles O33: FEEDFWD raises SEQUENCE, or adds WK into H word by word. -/
theorem feedfwdChains : Obligations.FeedfwdChains := by
  refine ⟨decodeOfEncode (.feedfwd false) rfl, decodeOfEncode (.feedfwd true) rfl, fun s last hi ht => ?completes,
    fun s last h => ?sequence⟩
  case completes =>
    refine ⟨Vector.zipWith (· + ·) s.h s.wk, exec_feedfwd last hi ht, fun i => ?_⟩
    rw [Fin.getElem_fin, Vector.getElem_zipWith]
    exact BitVec.toNat_add _ _
  case sequence => exact exec_of_commandError_some (if_pos h)

end Sys2Proof.Machine
end

section
/-! PROOFS. COMPRESS (45_compression.md R195, R196), the stepped block that equals it (R201), and the blocks of a
message on the word path (R198). -/

namespace Sys2Proof.Machine

/-- When its checks pass COMPRESS runs CompressBlock on M (45_compression.md R196). -/
theorem exec_compress {s : State} (last : Bool) (hf : s.fsm ≠ .finalized) (hp : s.path ≠ .bit)
    (hi : s.inblock = false) (hm : s.vmask = 0xFFFF) :
    exec (.compress last) s = .next { compressBlock s.m last s with vmask := 0, path := .word } := by
  have hc : commandError (.compress last) s = none :=
    (commandError_expand_inSequence hf hp hi).trans (if_neg (not_not_intro hm))
  exact exec_of_commandError_none hc

/-- Settles O34: COMPRESS raises its error of the table, which is EXPAND's, or CompressBlock runs on M. -/
theorem compressFoldsBlock : Obligations.CompressFoldsBlock := by
  refine ⟨decodeOfEncode (.compress false) rfl, decodeOfEncode (.compress true) rfl,
    fun s last hf hp hi hm => ?completes, fun s last h => ?sequence, fun s last hf hp hi hm => ?malformed⟩
  case completes =>
    obtain ⟨t1, t2, wr, hblock⟩ := compressBlock_eq s.m last s
    have hvalid := compressBlock_witness s.m last s
    have hexec := exec_compress last hf hp hi hm
    rw [hblock] at hvalid hexec
    exact ⟨_, hexec, rfl, rfl, rfl, rfl, rfl, rfl, rfl, rfl, rfl, rfl, fun r j => hvalid (.round r j), rfl⟩
  case sequence =>
    have hc : commandError (.compress last) s = some .sequence := commandError_expand_outOfSequence h
    exact exec_of_commandError_some hc
  case malformed =>
    have hc : commandError (.compress last) s = some .malformedBlock :=
      (commandError_expand_inSequence hf hp hi).trans (if_pos hm)
    exact exec_of_commandError_some hc

/-! ### The stepped block (45_compression.md R201) -/

theorem runCommands_append (l l' : List Instr) (s : State) :
    runCommands (l ++ l') s = (runCommands l s).bind (runCommands l') := by
  induction l generalizing s with
  | nil => rfl
  | cons i l ih =>
    simp only [List.cons_append, runCommands]
    cases exec i s with
    | next t => exact ih t
    | fault r => rfl
    | refused r => rfl

/-- A run goes on from the state its first command leaves. -/
theorem runCommands_cons {i : Instr} {s t : State} (h : exec i s = .next t) (l : List Instr) :
    runCommands (i :: l) s = runCommands l t := by
  rw [runCommands, h]

/-- The state `u`, `k` rounds into a stepped block (45_compression.md R193). -/
def openBlock (k : Fin 65) (u : State) : State :=
  { u with vmask := 0, path := .word, inblock := true, t := k }

/-- A ROUND in an open block is the round of the state underneath. -/
theorem exec_round_openBlock {k : Nat} (hk : k < 64) (u : State) :
    exec .round (openBlock ⟨k, by omega⟩ u) = .next (openBlock ⟨k + 1, by omega⟩ (roundOp ⟨k, hk⟩ u)) :=
  exec_round rfl hk

/-- The ROUND commands that are left of a block run the rounds from t on (45_compression.md R192). -/
theorem runCommands_rounds (n k : Nat) (hk : k < 65) (hn : k + n = 64) (u : State) :
    runCommands (List.replicate n .round) (openBlock ⟨k, hk⟩ u) =
      some (openBlock 64 (((List.finRange 64).drop k).foldl (fun s t => roundOp t s) u)) := by
  induction n generalizing k u with
  | zero =>
    obtain rfl : k = 64 := hn
    rfl
  | succ n ih =>
    have hlt : k < (List.finRange 64).length := by rw [List.length_finRange]; omega
    rw [List.replicate_succ, runCommands_cons (exec_round_openBlock (by omega) u), ih (k + 1) _ (by omega),
      List.drop_eq_getElem_cons hlt, List.foldl_cons, List.getElem_finRange]
    rfl

/-- RSTART opens the block on the loaded working registers (45_compression.md R193). -/
theorem exec_rstart_onWordPath {u : State} (hf : u.fsm ≠ .finalized) (hi : u.inblock = false) :
    exec .rstart { u with vmask := 0, path := .word } = .next (openBlock 0 (loadWorking u)) :=
  exec_of_commandError_none (if_neg (by simp [hf, hi]))

/-- FEEDFWD after the 64 rounds of an open block (45_compression.md R194). -/
theorem exec_feedfwd_openBlock (last : Bool) (u : State) : exec (.feedfwd last) (openBlock 64 u) =
    .next { feedForward last { u with t := 64 } with vmask := 0, path := .word, inblock := false } :=
  exec_feedfwd last rfl rfl

@[simp] theorem allRounds_inblock (s : State) : (allRounds s).inblock = s.inblock := by
  obtain ⟨_, _, _, _, h⟩ := foldl_roundOp_frame (List.finRange 64) s
  rw [allRounds, h]

/-- When its checks pass, which are COMPRESS's, EXPAND leaves the schedule of M (44_scheduler.md R181). -/
theorem exec_expand {s : State} (hf : s.fsm ≠ .finalized) (hp : s.path ≠ .bit) (hi : s.inblock = false)
    (hm : s.vmask = 0xFFFF) : exec .expand s = .next { expandBlock s.m s with vmask := 0, path := .word } :=
  exec_of_commandError_none ((commandError_expand_inSequence hf hp hi).trans (if_neg (not_not_intro hm)))

/-- Settles O35: both run the 64 rounds on the loaded H and the schedule of M, and leave INBLOCK = 0. -/
theorem steppedBlockEqualsCompress : Obligations.SteppedBlockEqualsCompress := by
  intro s last hf hp hi hm
  refine ⟨_, exec_compress last hf hp hi hm, ?_⟩
  obtain ⟨u, hu⟩ : ∃ u, expandBlock s.m s = u := ⟨_, rfl⟩
  have hin : (allRounds (loadWorking u)).inblock = false := by simpa [← hu] using hi
  have hrstart : exec .rstart { u with vmask := 0, path := .word } = .next (openBlock 0 (loadWorking u)) :=
    exec_rstart_onWordPath (by simpa [← hu] using hf) (by simpa [← hu] using hi)
  have hrounds : runCommands (List.replicate 64 .round) (openBlock 0 (loadWorking u)) =
      some (openBlock 64 (allRounds (loadWorking u))) := runCommands_rounds 64 0 (by decide) rfl (loadWorking u)
  have hexpand := exec_expand hf hp hi hm
  rw [hu] at hexpand
  rw [List.append_assoc, List.cons_append, runCommands_cons hexpand, List.cons_append, runCommands_cons hrstart,
    List.nil_append, runCommands_append, hrounds, Option.bind_some, runCommands_cons (exec_feedfwd_openBlock last _),
    compressBlock, hu]
  generalize allRounds (loadWorking u) = r at hin ⊢
  cases r
  subst hin
  rfl

/-! ### The word path (45_compression.md R198) -/

/-- One block loaded and compressed in sequence folds into H, and the next one is in sequence unless it was the last
(45_compression.md R196). -/
theorem exec_compress_loadBlock (blk : Vector Word 16) (last : Bool) {s : State} (hf : s.fsm ≠ .finalized)
    (hp : s.path ≠ .bit) (hi : s.inblock = false) :
    ∃ t, exec (.compress last) (loadBlock blk s) = .next t ∧ t.h = foldBlock s.h blk ∧ t.blkidx = s.blkidx + 1 ∧
      t.fsm = (if last then .finalized else .processing) ∧ t.path = .word ∧ t.inblock = false := by
  refine ⟨_, exec_compress (s := loadBlock blk s) last hf hp hi rfl, ?_⟩
  simp [loadBlock, hi]

theorem compressAll_cons {blk : Vector Word 16} {rest : List (Vector Word 16)} {s t : State}
    (h : exec (.compress rest.isEmpty) (loadBlock blk s) = .next t) :
    compressAll (blk :: rest) s = compressAll rest t := by
  rw [compressAll, h]

/-- A list of blocks in sequence: they fold into H one by one, the last one finalizes, and BLKIDX counts them. -/
theorem compressAll_folds (blks : List (Vector Word 16)) (s : State) (hne : blks ≠ []) (hf : s.fsm ≠ .finalized)
    (hp : s.path ≠ .bit) (hi : s.inblock = false) :
    ∃ t, compressAll blks s = some t ∧ t.h = blks.foldl foldBlock s.h ∧ t.fsm = .finalized ∧
      t.blkidx = s.blkidx + BitVec.ofNat 32 blks.length := by
  induction blks generalizing s with
  | nil => exact absurd rfl hne
  | cons blk rest ih =>
    obtain ⟨u, hexec, hh, hidx, hfsm, hpath, hin⟩ := exec_compress_loadBlock blk rest.isEmpty hf hp hi
    rw [compressAll_cons hexec]
    cases rest with
    | nil => exact ⟨u, rfl, hh, hfsm, hidx⟩
    | cons next rest =>
      obtain ⟨t, hrun, hh', hfsm', hidx'⟩ := ih u (by simp) (by simp [hfsm]) (by simp [hpath]) hin
      refine ⟨t, hrun, ?_, hfsm', ?_⟩
      · rw [hh', hh]
        rfl
      · rw [hidx', hidx, List.length_cons (a := blk), Nat.add_comm, BitVec.ofNat_add, ← BitVec.add_assoc]
        rfl

/-- Settles O36: the fold of the blocks from IV is the digest. -/
theorem wordPathGivesDigest : Obligations.WordPathGivesDigest := by
  intro blks s hne hf hp hi hiv
  obtain ⟨t, hrun, hh, hfsm, hidx⟩ := compressAll_folds blks s hne hf hp hi
  rw [hiv] at hh
  exact ⟨t, hrun, hh, hfsm, hidx⟩

/-- Settles O37: the kernel evaluates the schedule and the 64 rounds of the one block. -/
theorem abcDigest : Obligations.AbcDigest := by
  unfold Obligations.AbcDigest
  decide +kernel

end Sys2Proof.Machine
end

section
/-! PROOFS. FSM and BLKIDX: which commands move them (45_compression.md R197), and that FINALIZED keeps the digest
(R199). -/

namespace Sys2Proof.Machine

/-- What a step does to H, FSM and BLKIDX: a command's meaning, a reset, or nothing (00_scope.md R19). -/
theorem step_next_cases {s t : State} (hs : step s = .next t) :
    (∃ i, executes i s ∧ exec i (clearPending (popped s)) = .next t) ∨
    (∃ rest, s.agenda = .reset :: rest ∧ t = assertReset (popped s)) ∨
    (t.h = s.h ∧ t.fsm = s.fsm ∧ t.blkidx = s.blkidx) := by
  rcases step_cases s with ⟨hturn, he⟩ | ⟨a, _, -, -, he⟩ | ⟨a, v, _, -, -, he⟩ | ⟨_, _, -, he⟩ | ⟨rest, ha, he⟩ <;>
    rw [he] at hs
  · rcases engineStep_cases (popped s) with ⟨-, h⟩ | ⟨c, i, hc, hd, h⟩ | ⟨_, _, -, -, h⟩ <;> rw [h] at hs
    · obtain rfl := Host.Outcome.next.inj hs
      exact .inr (.inr ⟨rfl, rfl, rfl⟩)
    · exact .inl ⟨i, ⟨hturn, c, hc, hd⟩, hs⟩
    · obtain rfl := Host.Outcome.next.inj hs
      exact .inr (.inr ⟨record_h _ _, record_fsm _ _, record_blkidx _ _⟩)
  · obtain rfl := Host.Outcome.next.inj hs
    obtain ⟨_, _, hr⟩ := readTarget_frame (decodeOffset a.toNat) (popped s)
    rw [hr]
    exact .inr (.inr ⟨rfl, rfl, rfl⟩)
  · obtain rfl := Host.Outcome.next.inj hs
    obtain ⟨hh, hfsm, -, -, -, -, hidx, -⟩ := writeTarget_engineState (decodeOffset a.toNat) v (popped s)
    exact .inr (.inr ⟨hh, hfsm, hidx⟩)
  · cases hs
  · exact .inr (.inl ⟨rest, ha, (Host.Outcome.next.inj hs).symm⟩)

/-- A command the engine executes is one the assembler can write (30_encoding.md R98). -/
theorem executes_wellFormed {i : Instr} {s : State} (h : executes i s) : i.WellFormed := by
  obtain ⟨-, c, -, hd⟩ := h
  exact (encodeOfDecode c i hd).1

theorem checkWitness_chain (s : State) :
    (checkWitness s).h = s.h ∧ (checkWitness s).fsm = s.fsm ∧ (checkWitness s).blkidx = s.blkidx := by
  unfold checkWitness
  split
  · exact ⟨rfl, rfl, rfl⟩
  · exact ⟨record_h _ _, record_fsm _ _, record_blkidx _ _⟩

/-- In FINALIZED with no block open, a command that completes, INIT apart, leaves H and FSM: the commands that write
them are out of sequence (45_compression.md R199). -/
theorem effect_finalized {i : Instr} {s : State} (hf : s.fsm = .finalized) (hin : s.inblock = false) (hi : i ≠ .init)
    (hc : commandError i s = none) : (effect i s).h = s.h ∧ (effect i s).fsm = s.fsm := by
  cases i with
  | init => exact absurd rfl hi
  | compress last => exact absurd hf (commandError_compress_none hc).1
  | expand => exact absurd hf (commandError_expand_none hc).1
  | rstart => exact absurd hf (commandError_rstart_none hc).1
  | msgPush n => exact absurd hf (commandError_msgPush_none hc).1
  | msgFinal => exact absurd hf (commandError_msgFinal_none hc).1
  | round => exact absurd (commandError_round_none hc).1 (by simp [hin])
  | feedfwd last => exact absurd (commandError_feedfwd_none hc).1 (by simp [hin])
  | check => exact ⟨(checkWitness_chain s).1, (checkWitness_chain s).2.1⟩
  | _ => exact ⟨rfl, rfl⟩

/-- Settles O45: in FINALIZED a command raises an error or leaves H and FSM, and no other move but a reset writes
them. -/
theorem digestIsImmutable : Obligations.DigestIsImmutable := by
  intro s t hf hin hs hreset hinit
  rcases step_next_cases hs with ⟨i, hx, hexec⟩ | ⟨rest, ha, -⟩ | ⟨hh, hfsm, -⟩
  · rcases exec_next_cases hexec with ⟨e, -, rfl⟩ | ⟨hc, rfl⟩
    · exact ⟨record_h _ _, (record_fsm _ _).trans hf⟩
    · have hi : i ≠ .init := by
        rintro rfl
        exact hinit hx
      obtain ⟨hh, hfsm⟩ := effect_finalized (s := clearPending (popped s)) hf hin hi hc
      exact ⟨hh, hfsm.trans hf⟩
  · exact absurd ha (hreset rest)
  · exact ⟨hh, hfsm.trans hf⟩

/-- The rows of 45_compression.md R197 for a command `i` from `s` to `t`. -/
inductive FsmMove (i : Instr) (s t : State) : Prop where
  | stays (hfsm : t.fsm = s.fsm) (hidx : t.blkidx = s.blkidx)
  | starts (hi : i = .init) (hfsm : t.fsm = .initialized) (hidx : t.blkidx = 0)
  | folds (hi : i = .feedfwd false ∨ i = .compress false ∨ ∃ n, i = .msgPush n) (hs : s.fsm ≠ .finalized)
      (hfsm : t.fsm = .processing) (hidx : t.blkidx = s.blkidx + 1)
  | foldsLast (hi : i = .feedfwd true ∨ i = .compress true) (hs : s.fsm ≠ .finalized) (hfsm : t.fsm = .finalized)
      (hidx : t.blkidx = s.blkidx + 1)
  | finishes (hi : i = .msgFinal) (hs : s.fsm ≠ .finalized) (hfsm : t.fsm = .finalized)
      (hidx : t.blkidx = s.blkidx + (if s.padbyp then 0 else if s.len.toNat % 512 ≤ 447 then 1 else 2))

/-- A MSG_PUSH of at most 32 bits fills at most one block (43_padding.md R164). -/
theorem fsmMove_msgPush {n : Nat} {s : State} (hn : n ≤ 32) (hf : s.fsm ≠ .finalized) :
    FsmMove (.msgPush n) s (pushBits n (enterBitPath s)) := by
  rcases Nat.lt_or_ge (s.len.toNat % 512 + n) 512 with hfit | hfill
  · rw [pushBits_eq_pushRange, (pushRange_within 0 n (enterBitPath s) hfit).2]
    exact .stays rfl rfl
  · obtain ⟨filled, m, -, -, he⟩ := pushBits_filling n (enterBitPath s) (by omega) hfill
    rw [he]
    exact .folds (.inr (.inr ⟨n, rfl⟩)) hf (by simp) (by simp)

/-- MSG_FINAL folds no block, one or two (43_padding.md R166). -/
theorem fsmMove_msgFinal {s : State} (hf : s.fsm ≠ .finalized) : FsmMove .msgFinal s (effect .msgFinal s) := by
  simp only [effect]
  split
  next hb => exact .finishes rfl hf rfl (by simp [hb])
  next hb =>
    split
    next hP =>
      obtain ⟨m, he⟩ := padInBlock_frame (enterBitPath s)
      replace hP : s.len.toNat % 512 ≤ 447 := hP
      exact .finishes rfl hf (by simp [he]) (by simp [he, hb, hP])
    next hP =>
      obtain ⟨m₁, m₂, he⟩ := padTwoBlocks_frame (enterBitPath s)
      replace hP : ¬ s.len.toNat % 512 ≤ 447 := hP
      exact .finishes rfl hf (by simp [he]) (by simp only [he, compressBlock_blkidx, hb, hP, BitVec.add_assoc]; rfl)

/-- Every command that completes makes a move of the list (45_compression.md R197). -/
theorem fsmMove_effect {i : Instr} {s : State} (hwf : i.WellFormed) (hopen : s.inblock = true → s.fsm ≠ .finalized)
    (hc : commandError i s = none) : FsmMove i s (effect i s) := by
  cases i with
  | init => exact .starts rfl rfl rfl
  | compress last =>
    obtain ⟨hf, -⟩ := commandError_compress_none hc
    cases last with
    | false => exact .folds (.inr (.inl rfl)) hf (by simp [effect]) (by simp [effect])
    | true => exact .foldsLast (.inr rfl) hf (by simp [effect]) (by simp [effect])
  | feedfwd last =>
    obtain ⟨hin, -⟩ := commandError_feedfwd_none hc
    cases last with
    | false => exact .folds (.inl rfl) (hopen hin) rfl rfl
    | true => exact .foldsLast (.inl rfl) (hopen hin) rfl rfl
  | round =>
    rw [effect_round (commandError_round_none hc).2]
    exact .stays rfl rfl
  | expand => exact .stays (by simp [effect]) (by simp [effect])
  | check => exact .stays (checkWitness_chain s).2.1 (checkWitness_chain s).2.2
  | msgPush n =>
    have hn : 1 ≤ n ∧ n ≤ 32 := by simpa [Instr.WellFormed, Instr.wellFormed] using hwf
    exact fsmMove_msgPush hn.2 (commandError_msgPush_none hc).1
  | msgFinal => exact fsmMove_msgFinal (commandError_msgFinal_none hc).1
  | _ => exact .stays rfl rfl

theorem fsmMove_exec {i : Instr} {s t : State} (hwf : i.WellFormed) (hopen : s.inblock = true → s.fsm ≠ .finalized)
    (hx : exec i s = .next t) : FsmMove i s t := by
  rcases exec_next_cases hx with ⟨e, -, rfl⟩ | ⟨hc, rfl⟩
  · exact .stays (record_fsm _ _) (record_blkidx _ _)
  · exact fsmMove_effect hwf hopen hc

/-- Settles O46: an executed command makes a move of the list, a reset starts over, and nothing else moves. -/
theorem fsmTransitionsAreComplete : Obligations.FsmTransitionsAreComplete := by
  intro s t hopen hs
  rcases step_next_cases hs with ⟨i, hx, hexec⟩ | ⟨rest, ha, rfl⟩ | ⟨-, hfsm, hidx⟩
  · cases fsmMove_exec (s := clearPending (popped s)) (executes_wellFormed hx) hopen hexec with
    | stays hfsm hidx => exact .inl ⟨hfsm, hidx⟩
    | starts hi hfsm hidx => exact .inr (.inl ⟨.inr (hi ▸ hx), hfsm, hidx⟩)
    | folds hi hf hfsm hidx =>
      have hcmd : executes (.feedfwd false) s ∨ executes (.compress false) s ∨ ∃ n, executes (.msgPush n) s := by
        rcases hi with rfl | rfl | ⟨n, rfl⟩
        · exact .inl hx
        · exact .inr (.inl hx)
        · exact .inr (.inr ⟨n, hx⟩)
      exact .inr (.inr (.inl ⟨hcmd, hf, hfsm, hidx⟩))
    | foldsLast hi hf hfsm hidx =>
      have hcmd := hi.imp (fun h => h ▸ hx) fun h => h ▸ hx
      exact .inr (.inr (.inr (.inl ⟨hcmd, hf, hfsm, hidx⟩)))
    | finishes hi hf hfsm hidx => exact .inr (.inr (.inr (.inr ⟨hi ▸ hx, hf, hfsm, hidx⟩)))
  · exact .inr (.inl ⟨.inl ⟨rest, ha⟩, rfl, rfl⟩)
  · exact .inl ⟨hfsm, hidx⟩

end Sys2Proof.Machine
end

section
/-! PROOFS. The equations of a witness (46_verifier.md R221 to R223): their indices, and the two sides each compares. -/

namespace Sys2Proof.Machine

/-! ### Indices -/

theorem Equation.le_index (e : Equation) : 16 ≤ e.index := by
  cases e <;> simp only [Equation.index] <;> omega

/-- No two equations share an index: the three ranges are disjoint, and inside the rounds ten indices belong to each
round. -/
theorem Equation.index_injective : Function.Injective Equation.index := by
  rintro (i | ⟨t, j⟩ | i) (i' | ⟨t', j'⟩ | i') h <;> simp only [Equation.index] at h
  case schedule.schedule => rw [Fin.ext (by omega : i.val = i'.val)]
  case round.round => rw [Fin.ext (by omega : t.val = t'.val), Fin.ext (by omega : j.val = j'.val)]
  case feedForward.feedForward => rw [Fin.ext (by omega : i.val = i'.val)]
  all_goals omega

theorem Equation.exists_index_eq {n : Nat} (hlo : 16 ≤ n) (hhi : n ≤ 711) : ∃ e : Equation, e.index = n := by
  by_cases hs : n < 64
  · exact ⟨.schedule ⟨n - 16, by omega⟩, by simp only [Equation.index]; omega⟩
  by_cases hr : n < 704
  · exact ⟨.round ⟨(n - 64) / 10, by omega⟩ ⟨(n - 64) % 10, by omega⟩, by simp only [Equation.index]; omega⟩
  · exact ⟨.feedForward ⟨n - 704, by omega⟩, by simp only [Equation.index]; omega⟩

/-! ### Sides -/

theorem Equation.holds_iff (e : Equation) (s : State) : e.holds s = true ↔ (e.sides s).1 = (e.sides s).2 :=
  beq_iff_eq

/-- An equation as the rules write it: the left side is the number the right side stands for. -/
theorem Equation.holds_iff_toNat (e : Equation) (s : State) {n : Nat} (hn : (e.sides s).2.toNat = n) :
    e.holds s = true ↔ (e.sides s).1.toNat = n := by
  rw [e.holds_iff, ← BitVec.toNat_inj, hn]

/-- Settles O39: the indices are injective and reach every number of the range, and the right sides are the exact sums
reduced once. -/
theorem equationsAreTheRules : Obligations.EquationsAreTheRules := by
  refine ⟨fun n hlo hhi => ?indices, fun s i => ?schedule, fun s t v hv => ?round, fun s i => ?feedForward⟩
  case indices =>
    obtain ⟨e, rfl⟩ := Equation.exists_index_eq hlo hhi
    exact ⟨e, rfl, fun e' h => Equation.index_injective h⟩
  case schedule => exact ⟨rfl, Equation.holds_iff_toNat (.schedule i) s (schedWord_toNat s.w i)⟩
  case round =>
    obtain rfl : v = roundInput s t := hv
    exact ⟨fun _ => rfl, Equation.holds_iff_toNat (.round t 0) s (roundT1_toNat _ _ _),
      Equation.holds_iff_toNat (.round t 1) s (roundT2_toNat _),
      Equation.holds_iff_toNat (.round t 2) s (BitVec.toNat_add _ _),
      Equation.holds_iff (.round t 3) s, Equation.holds_iff (.round t 4) s, Equation.holds_iff (.round t 5) s,
      Equation.holds_iff_toNat (.round t 6) s (BitVec.toNat_add _ _),
      Equation.holds_iff (.round t 7) s, Equation.holds_iff (.round t 8) s, Equation.holds_iff (.round t 9) s⟩
  case feedForward => exact ⟨rfl, Equation.holds_iff_toNat (.feedForward i) s (BitVec.toNat_add _ _)⟩

end Sys2Proof.Machine
end

section
/-! PROOFS. CHECK (46_verifier.md R224 to R226): its search visits every equation in increasing index. -/

namespace Sys2Proof.Machine

theorem mem_allEquations (e : Equation) : e ∈ allEquations := by
  cases e <;> simp [allEquations]

theorem pairwise_index_map {n : Nat} {f : Fin n → Equation} (hf : ∀ i j, i < j → (f i).index < (f j).index) :
    ((List.finRange n).map f).Pairwise fun e e' => e.index < e'.index :=
  List.pairwise_map.2 ((List.sortedLT_finRange n).pairwise.imp (hf _ _))

/-- CHECK visits the equations in increasing index (46_verifier.md R224): inside each group, and from group to group. -/
theorem pairwise_index_allEquations : allEquations.Pairwise fun e e' => e.index < e'.index := by
  refine List.pairwise_append.2 ⟨List.pairwise_append.2 ⟨pairwise_index_map ?schedules,
    List.pairwise_flatMap.2 ⟨fun t _ => pairwise_index_map ?round, ?rounds⟩, ?toRounds⟩,
    pairwise_index_map ?feedForwards, ?toFeedForwards⟩
  case rounds =>
    refine (List.sortedLT_finRange 64).pairwise.imp fun {t t'} h => ?_
    simp only [List.forall_mem_map, Equation.index]
    omega
  case toRounds =>
    simp only [List.forall_mem_map, List.forall_mem_flatMap, Equation.index]
    omega
  case toFeedForwards =>
    simp only [List.forall_mem_append, List.forall_mem_map, List.forall_mem_flatMap, Equation.index]
    exact ⟨by omega, by omega⟩
  all_goals
    intro i i' h
    simp only [Equation.index]
    omega

theorem firstFalse_eq_none_iff (s : State) : firstFalse s = none ↔ WitnessValid s := by
  simp [firstFalse, WitnessValid, List.find?_eq_none, mem_allEquations]

/-- What the search finds is false, and no false equation has a smaller index (46_verifier.md R225). -/
theorem firstFalse_eq_some {s : State} {e : Equation} (h : firstFalse s = some e) :
    e.holds s = false ∧ ∀ e' : Equation, e'.holds s = false → e.index ≤ e'.index := by
  obtain ⟨he, before, rest, hall, htrue⟩ := List.find?_eq_some_iff_append.1 h
  refine ⟨by simpa using he, fun e' hfalse => ?_⟩
  have hsorted := pairwise_index_allEquations
  have hmem := mem_allEquations e'
  rw [hall] at hsorted hmem
  obtain ⟨-, hrest, -⟩ := List.pairwise_append.1 hsorted
  rcases List.mem_append.1 hmem with hb | hr
  · exact absurd (htrue e' hb) (by simp [hfalse])
  · rcases List.mem_cons.1 hr with rfl | hr
    · exact le_rfl
    · exact (List.rel_of_pairwise_cons hrest hr).le

/-- When every equation holds, CHECK reports success and writes nothing else (46_verifier.md R224). -/
theorem checkWitness_of_valid {s : State} (h : WitnessValid s) :
    checkWitness s = { s with chkidx := 0xFFFFFFFF, chkok := true } := by
  rw [checkWitness, (firstFalse_eq_none_iff s).2 h]

/-- When the search finds an equation, CHECK reports its index and records the violation (46_verifier.md R226). -/
theorem checkWitness_of_firstFalse {s : State} {e : Equation} (h : firstFalse s = some e) :
    checkWitness s = { s with
      chkidx := BitVec.ofNat 32 e.index, chkok := false,
      errcode := if s.errcode = .noError then .constraintViolation else s.errcode } := by
  rw [checkWitness, h]
  exact record_eq _ _

theorem exec_check (s : State) : exec .check s = .next (checkWitness s) := rfl

/-- Settles O38: CHECK reports what its search finds, and the search finds a false equation unless there is none. -/
theorem checkFindsFirstFalse : Obligations.CheckFindsFirstFalse := by
  refine ⟨decodeOfEncode .check rfl, fun s => ⟨fun hvalid => ?holds, fun hinvalid => ?violated⟩⟩
  case holds => rw [exec_check, checkWitness_of_valid hvalid]
  case violated =>
    obtain ⟨e, he⟩ := Option.ne_none_iff_exists'.1 (mt (firstFalse_eq_none_iff s).1 hinvalid)
    obtain ⟨hfalse, hleast⟩ := firstFalse_eq_some he
    exact ⟨e, hfalse, e.le_index, Nat.le_of_lt_succ e.index_lt, hleast,
      by rw [exec_check, checkWitness_of_firstFalse he]⟩

end Sys2Proof.Machine
end

section
/-! PROOFS. The witness the engine leaves (46_verifier.md R228): what the commands do after their last CompressBlock
does not touch the witness memory. -/

namespace Sys2Proof.Machine

/-- The equations read the witness memory alone, not what the bit path and COMPRESS write last (46_verifier.md R220). -/
theorem WitnessValid.frame {s : State} (h : WitnessValid s) (m : Vector Word 16) (len : BitVec 64) (vmask : BitVec 16)
    (path : Path) : WitnessValid { s with m := m, len := len, vmask := vmask, path := path } :=
  fun e => h e

/-- A MSG_PUSH that fills a block leaves the witness of that block (43_padding.md R164). -/
theorem pushBits_witness {n : Nat} {s : State} (hn : n ≤ 512) (hfill : 512 ≤ s.len.toNat % 512 + n) :
    WitnessValid (pushBits n s) := by
  obtain ⟨filled, m, -, -, he⟩ := pushBits_filling n s hn hfill
  rw [he]
  exact (compressBlock_witness filled false s).frame _ _ _ _

theorem padInBlock_witness (s : State) : WitnessValid (padInBlock s) := by
  obtain ⟨m, he⟩ := padInBlock_frame s
  rw [he]
  exact (compressBlock_witness m true s).frame _ _ _ _

/-- Padding in two blocks leaves the witness of the second one. -/
theorem padTwoBlocks_witness (s : State) : WitnessValid (padTwoBlocks s) := by
  obtain ⟨m₁, m₂, he⟩ := padTwoBlocks_frame s
  rw [he]
  exact (compressBlock_witness m₂ true (compressBlock m₁ false s)).frame _ _ _ _

/-- Settles O40: each of the three commands ends with a CompressBlock, whose witness is valid. -/
theorem engineWitnessIsValid : Obligations.EngineWitnessIsValid := by
  refine ⟨fun s t last hc hx => ?compress, fun s t n hn hc hfill hx => ?msgPush, fun s t hc hb hx => ?msgFinal⟩ <;>
    rw [exec_of_commandError_none hc] at hx <;> obtain rfl := Host.Outcome.next.inj hx
  case compress => exact (compressBlock_witness s.m last s).frame _ _ _ _
  case msgPush => exact pushBits_witness (by omega) (of_decide_eq_true hfill)
  case msgFinal =>
    simp only [effect, hb, Bool.false_eq_true, if_false]
    split
    · exact padInBlock_witness _
    · exact padTwoBlocks_witness _

end Sys2Proof.Machine
end

section
/-! PROOFS. Sensitivity (46_verifier.md R229): the equations and the other elements of a valid witness determine each
of its elements. -/

namespace Sys2Proof.Machine

section
variable {s : State}

theorem WitnessValid.schedule (h : WitnessValid s) : Extends s.w :=
  fun i => (Equation.holds_iff (.schedule i) s).1 (h _)

theorem WitnessValid.feedForward (h : WitnessValid s) (i : Fin 8) : s.hout[i] = s.hin[i] + s.wr[63][i] :=
  (Equation.holds_iff (.feedForward i) s).1 (h _)

/-- The ten equations of round `t` (46_verifier.md R222). -/
theorem WitnessValid.row (h : WitnessValid s) (t : Fin 64) : RowValid s.hin s t := by
  have heq : ∀ j : Fin 10, (roundEquation s t j).1 = (roundEquation s t j).2 :=
    fun j => (Equation.holds_iff (.round t j) s).1 (h _)
  refine ⟨heq 0, heq 1, Vector.ext fun k hk => ?_⟩
  match k, hk with
  | 0, _ => exact heq 2
  | 1, _ => exact heq 3
  | 2, _ => exact heq 4
  | 3, _ => exact heq 5
  | 4, _ => exact heq 6
  | 5, _ => exact heq 7
  | 6, _ => exact heq 8
  | 7, _ => exact heq 9

end

/-- The registers before round `t` are no part of row `t`. -/
theorem beforeRound_set (v : Vector Word 8) (wr : Vector (Vector Word 8) 64) (t : Fin 64) (row : Vector Word 8) :
    beforeRound v (wr.set t.val row) t = beforeRound v wr t := by
  unfold beforeRound
  split
  · rfl
  · exact Vector.getElem_set_ne _ _ (by omega)

/-- A schedule word of a valid witness: one of the block is an addend of the word sixteen places on, any other is the
left side of its own equation, which reads only words before it (46_verifier.md R221, R229). -/
theorem Extends.set_eq {w : Vector Word 64} {t : Fin 64} {v : Word} (h : Extends w) (h' : Extends (w.set t.val v)) :
    v = w[t] := by
  by_cases ht : t.val < 16
  · have e := h ⟨t.val, by omega⟩
    have e' := h' ⟨t.val, by omega⟩
    simp only [schedWord] at e e'
    rw [Vector.getElem_set_ne _ _ (by omega), Vector.getElem_set_ne _ _ (by omega),
      Vector.getElem_set_ne _ _ (by omega), Vector.getElem_set_ne _ _ (by omega), Vector.getElem_set_self, e] at e'
    exact (add_left_cancel e').symm
  · obtain ⟨i, hi⟩ : ∃ i : Fin 48, i.val + 16 = t.val := ⟨⟨t.val - 16, by omega⟩, by simp; omega⟩
    have hlow : schedWord (w.set t.val v) i = schedWord w i :=
      schedWord_congr i fun n _ hn => Vector.getElem_set_ne _ _ (by omega)
    have e := h i
    have e' := h' i
    simp only [hi, Vector.getElem_set_self, hlow] at e e'
    exact e'.trans e.symm

@[simp] theorem WitnessElement.get_put (e : WitnessElement) (v : Word) (s : State) : e.get (e.put v s) = v := by
  cases e <;> simp [WitnessElement.get, WitnessElement.put]

/-- Replacing WR[t][k] leaves the right side of the equations of row `t`. -/
theorem WitnessValid.wr_put_eq {s : State} {t : Fin 64} {k : Fin 8} {v : Word} (h : WitnessValid s)
    (h' : WitnessValid ((WitnessElement.wr t k).put v s)) : ((WitnessElement.wr t k).put v s).wr[t] = s.wr[t] := by
  rw [(h'.row t).2.2, (h.row t).2.2]
  simp only [WitnessElement.put, beforeRound_set]

/-- One element of a valid witness can hold no other value (46_verifier.md R229): it is the left side of an equation
whose right side does not contain it, or an addend. -/
theorem WitnessValid.put_eq_get {s : State} {e : WitnessElement} {v : Word} (h : WitnessValid s)
    (h' : WitnessValid (e.put v s)) : v = e.get s := by
  have hput := e.get_put v s
  cases e with
  | w t => exact h.schedule.set_eq h'.schedule
  | t1 t => exact hput.symm.trans ((h'.row t).1.trans (h.row t).1.symm)
  | t2 t => exact hput.symm.trans ((h'.row t).2.1.trans (h.row t).2.1.symm)
  | wr t k => exact hput.symm.trans (congrArg (·[k]) (h.wr_put_eq h'))
  | hin i =>
    have hsum : ((WitnessElement.hin i).put v s).hin[i] + s.wr[63][i] = s.hin[i] + s.wr[63][i] :=
      (h'.feedForward i).symm.trans (h.feedForward i)
    exact hput.symm.trans (add_right_cancel hsum)
  | hout i => exact hput.symm.trans ((h'.feedForward i).trans (h.feedForward i).symm)

/-- Flipping a bit changes a word. -/
theorem xor_bit_ne (x : Word) {b : Nat} (hb : b < 32) : x ^^^ (1#32 <<< b) ≠ x := by
  intro h
  have := congrArg (·.getLsbD b) h
  simp [hb] at this

/-- Settles O41: the changed element would have to keep its value. -/
theorem witnessIsSensitive : Obligations.WitnessIsSensitive :=
  fun s e _ hb hvalid hchanged => xor_bit_ne (e.get s) hb (hvalid.put_eq_get hchanged)

end Sys2Proof.Machine
end

section
/-! PROOFS. ERRCODE (60_exceptions.md): a command raises the error of the table and nothing else (R242, R244, R245),
and the first recorded error stays (R243). -/

namespace Sys2Proof.Machine

theorem effect_msgFinal_errcode (s : State) : (effect .msgFinal s).errcode = s.errcode := by
  simp only [effect]
  split
  · rfl
  split
  · exact padInBlock_same (e := .errcode) (by decide) (by decide) (enterBitPath s)
  · exact padTwoBlocks_same (e := .errcode) (by decide) (by decide) (enterBitPath s)

/-- A command that raises no error leaves ERRCODE, CLRERR and CHECK apart (60_exceptions.md R242). -/
theorem effect_errcode {i : Instr} {s : State} (hc : commandError i s = none) (hclr : i ≠ .clrerr)
    (hchk : i ≠ .check) : (effect i s).errcode = s.errcode := by
  cases i with
  | clrerr => exact absurd rfl hclr
  | check => exact absurd rfl hchk
  | compress last => simp only [effect, compressBlock_errcode]
  | expand => simp only [effect, expandBlock_errcode]
  | round => simp only [effect_round (commandError_round_none hc).2, roundOp_errcode]
  | msgPush n =>
    exact pushBits_same (e := .errcode) (s := enterBitPath s) (by decide) (by decide) fun _ => by decide
  | msgFinal => exact effect_msgFinal_errcode s
  | _ => rfl

/-- Settles O42: the two outcomes of `exec_eq`, the recorded error of the table and the completed effect. -/
theorem commandErrorsAreTheTable : Obligations.CommandErrorsAreTheTable :=
  fun _ _ => ⟨fun _ hc => exec_of_commandError_some hc,
    fun hc hclr hchk => ⟨_, exec_of_commandError_none hc, effect_errcode hc hclr hchk⟩⟩

/-! ### The first error stays (60_exceptions.md R243) -/

theorem record_errcode_of_recorded {s : State} (hs : s.errcode ≠ .noError) (e : ErrCode) :
    (record e s).errcode = s.errcode := by
  rw [record_errcode, if_neg hs]

theorem checkWitness_errcode_of_recorded {s : State} (hs : s.errcode ≠ .noError) :
    (checkWitness s).errcode = s.errcode := by
  unfold checkWitness
  split
  · rfl
  · exact (record_errcode _ _).trans (if_neg hs)

/-- Of the commands, CLRERR alone changes a recorded error: a raised error is dropped, and so is CHECK's violation. -/
theorem exec_errcode_of_recorded {i : Instr} {s t : State} (hs : s.errcode ≠ .noError) (hclr : i ≠ .clrerr)
    (hx : exec i s = .next t) : t.errcode = s.errcode := by
  rcases exec_next_cases hx with ⟨e, -, rfl⟩ | ⟨hc, rfl⟩
  · exact record_errcode_of_recorded hs _
  · by_cases hchk : i = .check
    · subst hchk
      exact checkWitness_errcode_of_recorded hs
    · exact effect_errcode hc hclr hchk

/-- The error of a dropped host write, BUSY or SEQUENCE, is not recorded over a recorded one (20_memory.md R67, R68). -/
theorem writeTarget_errcode_of_recorded {s : State} (hs : s.errcode ≠ .noError) (tgt : Target) (v : Word) :
    (writeTarget tgt v s).errcode = s.errcode := by
  unfold writeTarget
  split
  · exact record_errcode_of_recorded hs _
  cases tgt with
  | m j =>
    simp only [writeIdle, writeBlockWord]
    split
    · exact record_errcode_of_recorded hs _
    · rfl
  | _ => rfl

/-- The engine step leaves a recorded error unless the pending command is CLRERR. -/
theorem engineStep_errcode_of_recorded {s t : State} (hs : s.errcode ≠ .noError)
    (hclr : ∀ c, s.pending = some c → decodeCmd c ≠ .ok .clrerr) (hstep : engineStep s = .next t) :
    t.errcode = s.errcode := by
  rcases engineStep_cases s with ⟨-, he⟩ | ⟨c, i, hc, hd, he⟩ | ⟨_, _, -, -, he⟩ <;> rw [he] at hstep
  · obtain rfl := Host.Outcome.next.inj hstep
    rfl
  · have hi : i ≠ .clrerr := by
      rintro rfl
      exact hclr c hc hd
    exact exec_errcode_of_recorded (s := clearPending s) hs hi hstep
  · obtain rfl := Host.Outcome.next.inj hstep
    exact record_errcode_of_recorded (s := clearPending s) hs _

/-- Settles O43: every agent's move but a reset leaves a recorded error, the engine's because it does not execute
CLRERR. -/
theorem firstErrorStays : Obligations.FirstErrorStays := by
  intro s t herr hs hreset hclr
  rcases step_cases s with ⟨hturn, he⟩ | ⟨a, _, -, -, he⟩ | ⟨a, v, _, -, -, he⟩ | ⟨_, _, -, he⟩ | ⟨rest, ha, he⟩ <;>
    rw [he] at hs
  · exact engineStep_errcode_of_recorded (s := popped s) herr (fun c hc hd => hclr ⟨hturn, c, hc, hd⟩) hs
  · obtain rfl := Host.Outcome.next.inj hs
    obtain ⟨_, _, hr⟩ := readTarget_frame (decodeOffset a.toNat) (popped s)
    rw [hr]
    rfl
  · obtain rfl := Host.Outcome.next.inj hs
    exact writeTarget_errcode_of_recorded (s := popped s) herr _ v
  · cases hs
  · exact absurd ha (hreset rest)

end Sys2Proof.Machine
end

section
/-! PROOFS. Every command completes (70_reset_and_hazards.md R288), and a reset discards a pending one (R270, R272). -/

namespace Sys2Proof.Machine

/-- With a word pending, legal or not, the engine's step completes, and PENDING apart it keeps what every command
keeps. -/
theorem engineStep_pending_kept {s : State} {c : Word} (hp : s.pending = some c) :
    ∃ t, engineStep s = .next t ∧ Kept (clearPending s) t := by
  cases hd : decodeCmd c with
  | ok i =>
    obtain ⟨t, hx, hk⟩ := exec_next_kept i (clearPending s)
    exact ⟨t, (engineStep_pending hp hd).trans hx, hk⟩
  | error why => exact ⟨_, engineStep_illegal hp hd, record_kept .illegalCmd (clearPending s)⟩

/-- Settles O7: the step clears PENDING, and neither a command nor the error of an illegal word sets it again. -/
theorem everyCommandCompletes : Obligations.EveryCommandCompletes := by
  intro s c hp
  obtain ⟨t, hstep, hk⟩ := engineStep_pending_kept hp
  have hbusy : t.busy = false := congrArg Option.isSome hk.pending
  exact ⟨t, hstep, hbusy, hk.agenda, hk.rdata, hk.draws⟩

theorem step_reset {s : State} {rest : List Event} (h : s.agenda = .reset :: rest) :
    step s = .next (assertReset { s with agenda := rest }) := by
  simp [step, h]

/-- Settles O52: the step is the assertion of reset, whose registers, the arrays' draws apart, are those of
State.reset whatever the draw number and whatever was pending. -/
theorem resetDiscardsPending : Obligations.ResetDiscardsPending :=
  fun _ _ h => ⟨_, step_reset h, rfl, rfl⟩

end Sys2Proof.Machine
end
